-- ==== Sys2Proof/Word.lean ====
section
/-! DEFINITION. The word types of FSVM-R (spec/00_scope.md R3, R4). -/

namespace Sys2Proof

/-- A Memory Cell: the 32-bit value every register and every memory address holds (00_scope.md R3, R4). Its
unsigned value `u(v)` is `v.toNat`, its signed value `s(v)` is `v.toInt`. -/
abbrev Cell := BitVec 32

/-- A byte field of a cell: the opcode, the subtype, the register and shift fields (30_encoding.md R46, R52). -/
abbrev Byte := BitVec 8

/-- A half-word field of a cell: the offset of a memory operand (30_encoding.md R52). -/
abbrev Half := BitVec 16

end Sys2Proof
end

