-- ==== Sys2Proof/Syntax.lean ====
section
/-! DEFINITION. The abstract syntax of FSVM-R: registers, operands and one constructor per row of
spec/opcode_table.json. -/

namespace Sys2Proof

/-- The closed enumeration of twelve registers, in the spec's order (10_state.md R11). -/
inductive RegId where
  | r0 | r1 | r2 | r3 | ip | sp | fp | sb | ss | src | dst | flags
deriving DecidableEq, Repr

/-- One argument with its addressing mode (30_encoding.md R47, R50 to R53). The register and shift fields stay
bytes: a value outside the legal range is a defined encoding, which faults when the operand is resolved (R55),
not when it is decoded (R63). -/
inductive Operand where
  /-- Tag 0, immediate: the whole argument word (R50). -/
  | imm (value : Cell)
  /-- Tag 1, register: byte 0 is the register number; the other bits are ignored (R51). -/
  | reg (areg : Byte)
  /-- Tag 2, static memory: index register (or 0xFF for none), shift, unsigned offset (R52). -/
  | sta (areg ashift : Byte) (aoff : Half)
  /-- Tag 3, register-indirect memory: base register, shift, signed offset (R53). -/
  | ind (areg ashift : Byte) (aoff : Half)
deriving DecidableEq, Repr

/-- The instructions, in the order of spec/opcode_table.json; arguments in the order of 30_encoding.md R48. -/
inductive Instr where
  /-- `NOP` (R75). -/
  | nop
  /-- `HALT` (R76). -/
  | halt
  /-- `PUSH` (R78). -/
  | push (a0 : Operand)
  /-- `POP` (R79). -/
  | pop (a0 : Operand)
  /-- `JMP` (R80). -/
  | jmp (a0 : Operand)
  /-- `JMPC.EQ` (R82). -/
  | jmpcEq (a0 : Operand)
  /-- `JMPC.NE` (R83). -/
  | jmpcNe (a0 : Operand)
  /-- `JMPC.GT` (R84). -/
  | jmpcGt (a0 : Operand)
  /-- `JMPC.LT` (R85). -/
  | jmpcLt (a0 : Operand)
  /-- `JMPC.GE` (R86). -/
  | jmpcGe (a0 : Operand)
  /-- `JMPC.LE` (R87). -/
  | jmpcLe (a0 : Operand)
  /-- `CALL` (R90). -/
  | call (a0 : Operand)
  /-- `RET` (R91). -/
  | ret (a0 a1 : Operand)
  /-- `ENTER` (R88). -/
  | enter (a0 : Operand)
  /-- `LEAVE` (R89). -/
  | leave
  /-- `ADD` (R96). -/
  | add (a0 a1 a2 : Operand)
  /-- `SUB` (R97). -/
  | sub (a0 a1 a2 : Operand)
  /-- `MUL` (R98). -/
  | mul (a0 a1 a2 : Operand)
  /-- `DIV` (R99). -/
  | div (a0 a1 a2 : Operand)
  /-- `MOD` (R100). -/
  | mod (a0 a1 a2 : Operand)
  /-- `UDIV` (R101). -/
  | udiv (a0 a1 a2 : Operand)
  /-- `UMOD` (R102). -/
  | umod (a0 a1 a2 : Operand)
  /-- `AND` (R103). -/
  | and (a0 a1 a2 : Operand)
  /-- `OR` (R104). -/
  | or (a0 a1 a2 : Operand)
  /-- `XOR` (R105). -/
  | xor (a0 a1 a2 : Operand)
  /-- `SHL` (R106). -/
  | shl (a0 a1 a2 : Operand)
  /-- `SHR` (R107). -/
  | shr (a0 a1 a2 : Operand)
  /-- `SAR` (R108). -/
  | sar (a0 a1 a2 : Operand)
  /-- `FADD` (R109). -/
  | fadd (a0 a1 a2 : Operand)
  /-- `FSUB` (R110). -/
  | fsub (a0 a1 a2 : Operand)
  /-- `FMUL` (R111). -/
  | fmul (a0 a1 a2 : Operand)
  /-- `FDIV` (R112). -/
  | fdiv (a0 a1 a2 : Operand)
  /-- `NEG` (R114). -/
  | neg (a0 a1 : Operand)
  /-- `NOT` (R115). -/
  | not (a0 a1 : Operand)
  /-- `FNEG` (R116). -/
  | fneg (a0 a1 : Operand)
  /-- `FABS` (R117). -/
  | fabs (a0 a1 : Operand)
  /-- `FSQRT` (R118). -/
  | fsqrt (a0 a1 : Operand)
  /-- `FSIN` (R119). -/
  | fsin (a0 a1 : Operand)
  /-- `FCOS` (R120). -/
  | fcos (a0 a1 : Operand)
  /-- `ITOF` (R121). -/
  | itof (a0 a1 : Operand)
  /-- `FTOI` (R122). -/
  | ftoi (a0 a1 : Operand)
  /-- `IN` (R123). -/
  | inPort (a0 a1 : Operand)
  /-- `OUT` (R124). -/
  | outPort (a0 a1 : Operand)
  /-- `CMP.I32` (R126). -/
  | cmpI32 (a0 a1 : Operand)
  /-- `CMP.I16` (R127). -/
  | cmpI16 (a0 a1 : Operand)
  /-- `CMP.I8` (R128). -/
  | cmpI8 (a0 a1 : Operand)
  /-- `CMP.U32` (R129). -/
  | cmpU32 (a0 a1 : Operand)
  /-- `CMP.U16` (R130). -/
  | cmpU16 (a0 a1 : Operand)
  /-- `CMP.U8` (R131). -/
  | cmpU8 (a0 a1 : Operand)
  /-- `CMP.F32` (R132). -/
  | cmpF32 (a0 a1 : Operand)
  /-- `MOV` (R133). -/
  | mov (a0 a1 : Operand)
  /-- `SECT` (R77). -/
  | sect
deriving DecidableEq, Repr

end Sys2Proof
end

