-- ==== Sys2Proof/WellFormed.lean ====
section
/-! DEFINITION. Which instructions are well formed: those whose operands pass every check of 30_encoding.md R55.
An ill-formed instruction is still an instruction: executing it raises the fault R58 names. -/

namespace Sys2Proof

/-- A register field naming one of the twelve registers (30_encoding.md R51, R58 f). -/
def regFieldOk (b : Byte) : Bool := b.toNat < 12

/-- A shift field in range (30_encoding.md R52, R53, R58 e). -/
def shiftFieldOk (b : Byte) : Bool := b.toNat < 32

/-- An operand legal as a source: any of the four modes (30_encoding.md R54), its fields in range. -/
def Operand.srcOk : Operand → Bool
  | .imm _ => true
  | .reg r => regFieldOk r
  | .sta r sh _ => (r == 0xFF#8 || regFieldOk r) && shiftFieldOk sh
  | .ind r sh _ => regFieldOk r && shiftFieldOk sh

/-- An operand legal as a destination: as a source, but not immediate (30_encoding.md R54, R58 d). -/
def Operand.dstOk : Operand → Bool
  | .imm _ => false
  | o => o.srcOk

/-- Every operand is legal in its role (the roles are those of 30_encoding.md R48). -/
def Instr.wellFormed : Instr → Bool
  | .nop => true
  | .halt => true
  | .push a0 => a0.srcOk
  | .pop a0 => a0.dstOk
  | .jmp a0 => a0.srcOk
  | .jmpcEq a0 => a0.srcOk
  | .jmpcNe a0 => a0.srcOk
  | .jmpcGt a0 => a0.srcOk
  | .jmpcLt a0 => a0.srcOk
  | .jmpcGe a0 => a0.srcOk
  | .jmpcLe a0 => a0.srcOk
  | .call a0 => a0.srcOk
  | .ret a0 a1 => a0.srcOk && a1.srcOk
  | .enter a0 => a0.srcOk
  | .leave => true
  | .add a0 a1 a2 => a0.dstOk && a1.srcOk && a2.srcOk
  | .sub a0 a1 a2 => a0.dstOk && a1.srcOk && a2.srcOk
  | .mul a0 a1 a2 => a0.dstOk && a1.srcOk && a2.srcOk
  | .div a0 a1 a2 => a0.dstOk && a1.srcOk && a2.srcOk
  | .mod a0 a1 a2 => a0.dstOk && a1.srcOk && a2.srcOk
  | .udiv a0 a1 a2 => a0.dstOk && a1.srcOk && a2.srcOk
  | .umod a0 a1 a2 => a0.dstOk && a1.srcOk && a2.srcOk
  | .and a0 a1 a2 => a0.dstOk && a1.srcOk && a2.srcOk
  | .or a0 a1 a2 => a0.dstOk && a1.srcOk && a2.srcOk
  | .xor a0 a1 a2 => a0.dstOk && a1.srcOk && a2.srcOk
  | .shl a0 a1 a2 => a0.dstOk && a1.srcOk && a2.srcOk
  | .shr a0 a1 a2 => a0.dstOk && a1.srcOk && a2.srcOk
  | .sar a0 a1 a2 => a0.dstOk && a1.srcOk && a2.srcOk
  | .fadd a0 a1 a2 => a0.dstOk && a1.srcOk && a2.srcOk
  | .fsub a0 a1 a2 => a0.dstOk && a1.srcOk && a2.srcOk
  | .fmul a0 a1 a2 => a0.dstOk && a1.srcOk && a2.srcOk
  | .fdiv a0 a1 a2 => a0.dstOk && a1.srcOk && a2.srcOk
  | .neg a0 a1 => a0.dstOk && a1.srcOk
  | .not a0 a1 => a0.dstOk && a1.srcOk
  | .fneg a0 a1 => a0.dstOk && a1.srcOk
  | .fabs a0 a1 => a0.dstOk && a1.srcOk
  | .fsqrt a0 a1 => a0.dstOk && a1.srcOk
  | .fsin a0 a1 => a0.dstOk && a1.srcOk
  | .fcos a0 a1 => a0.dstOk && a1.srcOk
  | .itof a0 a1 => a0.dstOk && a1.srcOk
  | .ftoi a0 a1 => a0.dstOk && a1.srcOk
  | .inPort a0 a1 => a0.dstOk && a1.srcOk
  | .outPort a0 a1 => a0.srcOk && a1.srcOk
  | .cmpI32 a0 a1 => a0.srcOk && a1.srcOk
  | .cmpI16 a0 a1 => a0.srcOk && a1.srcOk
  | .cmpI8 a0 a1 => a0.srcOk && a1.srcOk
  | .cmpU32 a0 a1 => a0.srcOk && a1.srcOk
  | .cmpU16 a0 a1 => a0.srcOk && a1.srcOk
  | .cmpU8 a0 a1 => a0.srcOk && a1.srcOk
  | .cmpF32 a0 a1 => a0.srcOk && a1.srcOk
  | .mov a0 a1 => a0.dstOk && a1.srcOk
  | .sect => true

end Sys2Proof
end

