-- ==== Sys2Proof/Decode.lean ====
section
/-! DEFINITION. The decoder and the encoder of FSVM-R, from the tables of spec/30_encoding.md (R45 to R53, R57 to
R59, R63) and spec/opcode_table.json. -/

namespace Sys2Proof

/-- Why cells are no instruction of the table. Executing such cells raises the fault 30_encoding.md R58 names. -/
inductive Reject where
  /-- `op > 0x10` (30_encoding.md R49, R58 a). -/
  | illegalOpcode
  /-- A subtype outside the space of JMPC, BINOP, UNOP or CMP (30_encoding.md R57, R58 c). -/
  | invalidSubtype
  /-- The list of cells ends before the argument words its opcode has (30_encoding.md R45). -/
  | truncated
deriving DecidableEq, Repr

/-! ## The fields of an instruction cell and of an argument word -/

/-- The opcode byte `w[7:0]` (30_encoding.md R46). -/
def opField (w : Cell) : Byte := w.extractLsb' 0 8

/-- The addressing-mode tag of argument `i`, `w[9+2i : 8+2i]` (30_encoding.md R46). -/
def tagField (w : Cell) (i : Nat) : BitVec 2 := w.extractLsb' (8 + 2 * i) 2

/-- The subtype byte `w[23:16]` (30_encoding.md R46). -/
def subField (w : Cell) : Byte := w.extractLsb' 16 8

/-- `areg`, byte 0 of an argument word (30_encoding.md R51 to R53). -/
def aregField (a : Cell) : Byte := a.extractLsb' 0 8

/-- `ashift`, byte 1 of an argument word (30_encoding.md R52, R53). -/
def ashiftField (a : Cell) : Byte := a.extractLsb' 8 8

/-- `aoff`, half-word 1 of an argument word (30_encoding.md R52, R53). -/
def aoffField (a : Cell) : Half := a.extractLsb' 16 16

/-- An argument word read under its tag (30_encoding.md R47). -/
def operandOf (tag : BitVec 2) (a : Cell) : Operand :=
  match tag.toNat with
  | 0 => .imm a
  | 1 => .reg (aregField a)
  | 2 => .sta (aregField a) (ashiftField a) (aoffField a)
  | _ => .ind (aregField a) (ashiftField a) (aoffField a)

/-! ## The opcode map -/

/-- The number of argument words, from the opcode alone; `none` for `op > 0x10` (30_encoding.md R45, R48, R49). -/
def argc (op : Byte) : Option Nat :=
  match op.toNat with
  | 0x00 | 0x01 | 0x09 | 0x10 => some 0
  | 0x02 | 0x03 | 0x04 | 0x05 | 0x06 | 0x08 => some 1
  | 0x07 | 0x0B | 0x0C | 0x0D | 0x0E | 0x0F => some 2
  | 0x0A => some 3
  | _ => none

/-- The conditions of JMPC (30_encoding.md R57). -/
def jmpcOf (sub : Byte) (o0 : Operand) : Except Reject Instr :=
  match sub.toNat with
  | 0x00 => .ok (.jmpcEq o0)
  | 0x01 => .ok (.jmpcNe o0)
  | 0x02 => .ok (.jmpcGt o0)
  | 0x03 => .ok (.jmpcLt o0)
  | 0x04 => .ok (.jmpcGe o0)
  | 0x05 => .ok (.jmpcLe o0)
  | _ => .error .invalidSubtype

/-- The operations of BINOP (30_encoding.md R57). -/
def binopOf (sub : Byte) (o0 o1 o2 : Operand) : Except Reject Instr :=
  match sub.toNat with
  | 0x00 => .ok (.add o0 o1 o2)
  | 0x01 => .ok (.sub o0 o1 o2)
  | 0x02 => .ok (.mul o0 o1 o2)
  | 0x03 => .ok (.div o0 o1 o2)
  | 0x04 => .ok (.mod o0 o1 o2)
  | 0x05 => .ok (.udiv o0 o1 o2)
  | 0x06 => .ok (.umod o0 o1 o2)
  | 0x07 => .ok (.and o0 o1 o2)
  | 0x08 => .ok (.or o0 o1 o2)
  | 0x09 => .ok (.xor o0 o1 o2)
  | 0x0A => .ok (.shl o0 o1 o2)
  | 0x0B => .ok (.shr o0 o1 o2)
  | 0x0C => .ok (.sar o0 o1 o2)
  | 0x0D => .ok (.fadd o0 o1 o2)
  | 0x0E => .ok (.fsub o0 o1 o2)
  | 0x0F => .ok (.fmul o0 o1 o2)
  | 0x10 => .ok (.fdiv o0 o1 o2)
  | _ => .error .invalidSubtype

/-- The operations of UNOP (30_encoding.md R57). -/
def unopOf (sub : Byte) (o0 o1 : Operand) : Except Reject Instr :=
  match sub.toNat with
  | 0x00 => .ok (.neg o0 o1)
  | 0x01 => .ok (.not o0 o1)
  | 0x02 => .ok (.fneg o0 o1)
  | 0x03 => .ok (.fabs o0 o1)
  | 0x04 => .ok (.fsqrt o0 o1)
  | 0x05 => .ok (.fsin o0 o1)
  | 0x06 => .ok (.fcos o0 o1)
  | 0x07 => .ok (.itof o0 o1)
  | 0x08 => .ok (.ftoi o0 o1)
  | _ => .error .invalidSubtype

/-- The kinds and widths of CMP (30_encoding.md R57). -/
def cmpOf (sub : Byte) (o0 o1 : Operand) : Except Reject Instr :=
  match sub.toNat with
  | 0x00 => .ok (.cmpI32 o0 o1)
  | 0x01 => .ok (.cmpI16 o0 o1)
  | 0x02 => .ok (.cmpI8 o0 o1)
  | 0x04 => .ok (.cmpU32 o0 o1)
  | 0x05 => .ok (.cmpU16 o0 o1)
  | 0x06 => .ok (.cmpU8 o0 o1)
  | 0x08 => .ok (.cmpF32 o0 o1)
  | _ => .error .invalidSubtype

/-- The opcode map (30_encoding.md R49): the instruction that an opcode, a subtype and operands stand for. -/
def instrOf (op sub : Byte) (o0 o1 o2 : Operand) : Except Reject Instr :=
  match op.toNat with
  | 0x00 => .ok (.nop)
  | 0x01 => .ok (.halt)
  | 0x02 => .ok (.push o0)
  | 0x03 => .ok (.pop o0)
  | 0x04 => .ok (.jmp o0)
  | 0x05 => jmpcOf sub o0
  | 0x06 => .ok (.call o0)
  | 0x07 => .ok (.ret o0 o1)
  | 0x08 => .ok (.enter o0)
  | 0x09 => .ok (.leave)
  | 0x0A => binopOf sub o0 o1 o2
  | 0x0B => unopOf sub o0 o1
  | 0x0C => .ok (.inPort o0 o1)
  | 0x0D => .ok (.outPort o0 o1)
  | 0x0E => cmpOf sub o0 o1
  | 0x0F => .ok (.mov o0 o1)
  | 0x10 => .ok (.sect)
  | _ => .error .illegalOpcode

/-! ## Decoding -/

/-- The instruction of the instruction cell `w` with argument words `a0`, `a1`, `a2`; those beyond the opcode's
own number are not read, and no ignored bit is (30_encoding.md R59, R63). -/
def decodeCell (w a0 a1 a2 : Cell) : Except Reject Instr :=
  instrOf (opField w) (subField w) (operandOf (tagField w 0) a0) (operandOf (tagField w 1) a1)
    (operandOf (tagField w 2) a2)

/-- Decode the first instruction of a list of cells and give the cells after it (30_encoding.md R45, R63). -/
def decode (cells : List Cell) : Except Reject (Instr × List Cell) :=
  match cells with
  | [] => .error .truncated
  | w :: rest =>
    match argc (opField w) with
    | none => .error .illegalOpcode
    | some n =>
      if rest.length < n then .error .truncated
      else
        match decodeCell w (rest.getD 0 0) (rest.getD 1 0) (rest.getD 2 0) with
        | .ok i => .ok (i, rest.drop n)
        | .error r => .error r

/-! ## Encoding -/

/-- The tag of an operand's mode (30_encoding.md R47). -/
def Operand.tag : Operand → BitVec 2
  | .imm _ => 0
  | .reg _ => 1
  | .sta _ _ _ => 2
  | .ind _ _ _ => 3

/-- The argument word of an operand; the bits a register argument does not use are 0 (30_encoding.md R50 to R53,
R59). -/
def Operand.word : Operand → Cell
  | .imm v => v
  | .reg r => r.setWidth 32
  | .sta r sh off => off ++ sh ++ r
  | .ind r sh off => off ++ sh ++ r

/-- The tag of the `i`-th operand, 0 where there is none (30_encoding.md R59: the assembler writes zeros). -/
def tagAt (args : List Operand) (i : Nat) : BitVec 2 := (args.getD i (.imm 0)).tag

/-- The cells of an instruction: the instruction cell with its ignored bits 0, then the argument words
(30_encoding.md R45, R46). -/
def instrCells (op sub : Byte) (args : List Operand) : List Cell :=
  ((0 : Byte) ++ sub ++ (0 : BitVec 2) ++ tagAt args 2 ++ tagAt args 1 ++ tagAt args 0 ++ op : Cell)
    :: args.map Operand.word

/-- The cells of an instruction, from the same tables as the decoder (30_encoding.md R46 to R53, R57). -/
def encode : Instr → List Cell
  | .nop => instrCells 0x00 0x00 []
  | .halt => instrCells 0x01 0x00 []
  | .push a0 => instrCells 0x02 0x00 [a0]
  | .pop a0 => instrCells 0x03 0x00 [a0]
  | .jmp a0 => instrCells 0x04 0x00 [a0]
  | .jmpcEq a0 => instrCells 0x05 0x00 [a0]
  | .jmpcNe a0 => instrCells 0x05 0x01 [a0]
  | .jmpcGt a0 => instrCells 0x05 0x02 [a0]
  | .jmpcLt a0 => instrCells 0x05 0x03 [a0]
  | .jmpcGe a0 => instrCells 0x05 0x04 [a0]
  | .jmpcLe a0 => instrCells 0x05 0x05 [a0]
  | .call a0 => instrCells 0x06 0x00 [a0]
  | .ret a0 a1 => instrCells 0x07 0x00 [a0, a1]
  | .enter a0 => instrCells 0x08 0x00 [a0]
  | .leave => instrCells 0x09 0x00 []
  | .add a0 a1 a2 => instrCells 0x0A 0x00 [a0, a1, a2]
  | .sub a0 a1 a2 => instrCells 0x0A 0x01 [a0, a1, a2]
  | .mul a0 a1 a2 => instrCells 0x0A 0x02 [a0, a1, a2]
  | .div a0 a1 a2 => instrCells 0x0A 0x03 [a0, a1, a2]
  | .mod a0 a1 a2 => instrCells 0x0A 0x04 [a0, a1, a2]
  | .udiv a0 a1 a2 => instrCells 0x0A 0x05 [a0, a1, a2]
  | .umod a0 a1 a2 => instrCells 0x0A 0x06 [a0, a1, a2]
  | .and a0 a1 a2 => instrCells 0x0A 0x07 [a0, a1, a2]
  | .or a0 a1 a2 => instrCells 0x0A 0x08 [a0, a1, a2]
  | .xor a0 a1 a2 => instrCells 0x0A 0x09 [a0, a1, a2]
  | .shl a0 a1 a2 => instrCells 0x0A 0x0A [a0, a1, a2]
  | .shr a0 a1 a2 => instrCells 0x0A 0x0B [a0, a1, a2]
  | .sar a0 a1 a2 => instrCells 0x0A 0x0C [a0, a1, a2]
  | .fadd a0 a1 a2 => instrCells 0x0A 0x0D [a0, a1, a2]
  | .fsub a0 a1 a2 => instrCells 0x0A 0x0E [a0, a1, a2]
  | .fmul a0 a1 a2 => instrCells 0x0A 0x0F [a0, a1, a2]
  | .fdiv a0 a1 a2 => instrCells 0x0A 0x10 [a0, a1, a2]
  | .neg a0 a1 => instrCells 0x0B 0x00 [a0, a1]
  | .not a0 a1 => instrCells 0x0B 0x01 [a0, a1]
  | .fneg a0 a1 => instrCells 0x0B 0x02 [a0, a1]
  | .fabs a0 a1 => instrCells 0x0B 0x03 [a0, a1]
  | .fsqrt a0 a1 => instrCells 0x0B 0x04 [a0, a1]
  | .fsin a0 a1 => instrCells 0x0B 0x05 [a0, a1]
  | .fcos a0 a1 => instrCells 0x0B 0x06 [a0, a1]
  | .itof a0 a1 => instrCells 0x0B 0x07 [a0, a1]
  | .ftoi a0 a1 => instrCells 0x0B 0x08 [a0, a1]
  | .inPort a0 a1 => instrCells 0x0C 0x00 [a0, a1]
  | .outPort a0 a1 => instrCells 0x0D 0x00 [a0, a1]
  | .cmpI32 a0 a1 => instrCells 0x0E 0x00 [a0, a1]
  | .cmpI16 a0 a1 => instrCells 0x0E 0x01 [a0, a1]
  | .cmpI8 a0 a1 => instrCells 0x0E 0x02 [a0, a1]
  | .cmpU32 a0 a1 => instrCells 0x0E 0x04 [a0, a1]
  | .cmpU16 a0 a1 => instrCells 0x0E 0x05 [a0, a1]
  | .cmpU8 a0 a1 => instrCells 0x0E 0x06 [a0, a1]
  | .cmpF32 a0 a1 => instrCells 0x0E 0x08 [a0, a1]
  | .mov a0 a1 => instrCells 0x0F 0x00 [a0, a1]
  | .sect => instrCells 0x10 0x00 []

/-! ## The opcode table's numbering of bits -/

/-- The four cells that `nbits` bits of `w` fill, the first cell from bit 0 on, every bit above `nbits` 0. -/
def tableCells (nbits w : Nat) : List Cell :=
  let v := w % 2 ^ nbits
  [BitVec.ofNat 32 v, BitVec.ofNat 32 (v / 2 ^ 32), BitVec.ofNat 32 (v / 2 ^ 64), BitVec.ofNat 32 (v / 2 ^ 96)]

/-- The instruction the decoder reads from the bits `w`, numbered as spec/opcode_table.json numbers them. -/
def decodeTableWord (nbits w : Nat) : Option Instr :=
  match decode (tableCells nbits w) with
  | .ok (i, _) => some i
  | .error _ => none

end Sys2Proof
end

