-- ==== Sys2Proof/Config.lean ====
section
/-! DEFINITION. What an implementation fixes and what the spec leaves open (spec/00_scope.md R3): the record of
parameters, which is plain data and stands in State, and the free values, which are constants without a body. -/

namespace Sys2Proof

/-- What the host's read-only storage does with a write (20_memory.md R31, 93_implementation_defined.md U6). -/
inductive RomWrite where
  /-- The provider fails the `setValue`. -/
  | fails
  /-- The provider accepts the `setValue` and the cell keeps its value. -/
  | discards
deriving DecidableEq, Repr

/-- Addresses `[base, base + size)` that the host backs with read-only storage (93_implementation_defined.md U6). -/
structure RomBank where
  base : Nat
  size : Nat
  onWrite : RomWrite
deriving DecidableEq, Repr

/-- The OPEN parameters of 00_scope.md R3 that are numbers, with what else the host configures. The core never
changes them. -/
structure Params where
  /-- `MEM_SIZE`: valid addresses are `[0, MEM_SIZE)`. -/
  memSize : Nat
  /-- `STACK_BASE`. -/
  stackBase : Cell
  /-- `STACK_SIZE`. -/
  stackSize : Cell
  /-- `PORT_COUNT`: valid ports are `[0, PORT_COUNT)`. -/
  portCount : Nat
  /-- `COST_MUL`. -/
  costMul : Nat
  /-- `COST_DIV`. -/
  costDiv : Nat
  /-- `COST_TRANS`. -/
  costTrans : Nat
  /-- `LOAD_BASE`: where the host places an assembled program; the core never reads it. -/
  loadBase : Cell
  /-- The read-only part of memory; empty is the spec's default, plain RAM (93_implementation_defined.md U6). -/
  banks : List RomBank
  /-- Whether the host has registered an error callback (60_exceptions.md R137). -/
  errorCallback : Bool
deriving DecidableEq, Repr

/-- The bounds 00_scope.md R3 sets on the parameters. -/
abbrev Params.wf (p : Params) : Prop :=
  p.memSize ≤ 2 ^ 32 ∧ 2 ≤ p.portCount ∧ p.portCount ≤ 2 ^ 31 ∧ 1 ≤ p.costMul ∧ 1 ≤ p.costDiv ∧ 1 ≤ p.costTrans

/-- The float operations whose result can be an open NaN (44_binary_ops.md R95, 45_unary_ops.md R118). -/
inductive FloatOp where
  | fadd | fsub | fmul | fdiv | fsqrt
deriving DecidableEq, Repr

namespace Config

/-- FREE VALUE (log entry 11): the host's bits behind `nan_result`; Machine/Float.lean constrains them to a NaN. -/
opaque nanBits : FloatOp → Cell → Cell → Cell

/-- FREE VALUE (log entry 12): the host's bits behind FSIN, constrained in Machine/Float.lean (45_unary_ops.md R119). -/
opaque sinBits : Cell → Cell

/-- FREE VALUE (log entry 12): the host's bits behind FCOS, constrained in Machine/Float.lean (45_unary_ops.md R120). -/
opaque cosBits : Cell → Cell

/-- FREE VALUE (log entry 7): the host's answer to a `PortRead` of a port, once State's list of decided answers
is used up; the number is State's counter of such draws (20_memory.md R38: the host's free choice). -/
opaque readAnswer : Nat → Nat → Option Cell

/-- FREE VALUE (log entry 7): the host's answer to a `PortWrite` of a cell to a port, in the same case. -/
opaque writeAnswer : Nat → Nat → Cell → Bool

end Config

end Sys2Proof
end

