-- ==== Sys2Proof/Machine/Platform.lean ====
section
/-! DEFINITION. The values State.reset takes for the spec's OPEN parameters: those of the spec's test machine T
(spec/95_test_vectors.md §0) and the defaults of spec/00_scope.md R3. -/

namespace Sys2Proof.Machine

/-- DESIGN CHOICE (log entry 5): the parameters of State.reset. The costs and the load base are the spec's
defaults (00_scope.md R3); the sizes are those of the spec's test machine T. -/
def platform : Params where
  memSize := 0x200
  stackBase := 0x100
  stackSize := 0x40
  portCount := 16
  costMul := 2
  costDiv := 4
  costTrans := 8
  loadBase := 0
  banks := []
  errorCallback := true

/-- DESIGN CHOICE (log entry 6): the argument `entry` of the `reset(entry)` that State.reset stands after. -/
def platformEntry : Cell := 0

end Sys2Proof.Machine
end

