-- ==== Sys2Proof/Machine/State.lean ====
section
/-! DEFINITION. The state of the machine (spec/10_state.md) and of the host's two providers as the core sees them
(spec/20_memory.md), the reasons a step can stop, and the state after reset (R26, R149). -/

namespace Sys2Proof.Machine

/-- The register file: twelve cells (10_state.md R11). -/
structure Regs where
  /-- General purpose 0 (R12). -/
  r0 : Cell
  /-- General purpose 1 (R12). -/
  r1 : Cell
  /-- General purpose 2 (R12). -/
  r2 : Cell
  /-- General purpose 3 (R12). -/
  r3 : Cell
  /-- Instruction pointer (R13). -/
  ip : Cell
  /-- Stack pointer: the next free slot (R14). -/
  sp : Cell
  /-- Frame pointer (R15). -/
  fp : Cell
  /-- Stack base (R16). -/
  sb : Cell
  /-- Stack size (R17). -/
  ss : Cell
  /-- Source scratch (R18). -/
  src : Cell
  /-- Destination scratch (R18). -/
  dst : Cell
  /-- Comparison flags: E is bit 0, G is bit 1 (R19). -/
  flags : Cell
deriving DecidableEq, Repr

/-- The run state (10_state.md R22). -/
inductive RunState where
  | halted | running | waiting
deriving DecidableEq, Repr

/-- The nine fault kinds (60_exceptions.md R135), in the order of their codes. They are the hardware's own
faults, delivered to the host as events; none of them stops the model. -/
inductive FaultKind where
  | illegalInstruction | segmentationFault | stackOverflow | stackUnderflow | divisionByZero | invalidType
  | invalidPort | illegalRegister | sectionBoundary
deriving DecidableEq, Repr

/-- An error event: the fault kind and the fault address (60_exceptions.md R136, R137). -/
structure ErrorEvent where
  kind : FaultKind
  addr : Cell
deriving DecidableEq, Repr

/-- A port transaction that succeeded: a cell the host handed over, or one it accepted (20_memory.md R38). -/
inductive PortEvent where
  | input (port : Nat) (v : Cell)
  | output (port : Nat) (v : Cell)
deriving DecidableEq, Repr

/-- What the host's `Recover` does at one fault (60_exceptions.md R139): registers it writes, cells of memory it
writes, and whether it sets the run state back to Running. -/
structure Recovery where
  regs : List (RegId × Cell)
  cells : List (Cell × Cell)
  resume : Bool
deriving DecidableEq, Repr

/-- The outcome of one `Step` (40_execution_cycle.md R67, R73). -/
inductive StepOutcome where
  | completed (cost : Nat)
  | haltedByInstruction (cost : Nat)
  | waited
  | paused
  | faulted (kind : FaultKind) (addr : Cell)
deriving DecidableEq, Repr

/-- Memory as data: pairs of a cell address and the cell, addresses strictly rising, no cell listed that holds
what an unlisted one reads as (`Memory.wf`, Machine/Ops.lean). The addressable unit is the 32-bit cell
(20_memory.md R30; log entry 3). -/
abbrev Memory := List (Nat × Cell)

/-- The state of the core and of what the host keeps for it. -/
structure State where
  /-- The register file (10_state.md R11). -/
  regs : Regs
  /-- The run state (10_state.md R22). -/
  run : RunState
  /-- The cells behind the Data Provider (20_memory.md R30, R31). -/
  mem : Memory
  /-- The OPEN parameters (00_scope.md R3); no step changes them. -/
  params : Params
  /-- Error events delivered to the host, oldest first (60_exceptions.md R137). -/
  events : List ErrorEvent
  /-- Successful port transactions, oldest first (20_memory.md R38). -/
  portHistory : List PortEvent
  /-- The host's answers to the coming `PortRead`s: `some v` is `Ready(v)` (20_memory.md R38; log entry 7). -/
  readAnswers : List (Option Cell)
  /-- The host's answers to the coming `PortWrite`s: `true` is `Done` (20_memory.md R38; log entry 7). -/
  writeAnswers : List Bool
  /-- The answers of `DebugPause` at the coming instructions; `false` once used up (40_execution_cycle.md R72; log
  entry 9). -/
  pauseAnswers : List Bool
  /-- What `Recover` does at the coming faults; nothing once used up (60_exceptions.md R139; log entry 10). -/
  recoveries : List Recovery
  /-- The MODEL's own: how many free port answers have been drawn (log entry 7). -/
  drawn : Nat
  /-- The MODEL's own: the outcome of the latest `Step` (40_execution_cycle.md R73; log entry 17). -/
  last : Option StepOutcome
deriving DecidableEq, Repr

/-- Why the model would stop with a fault: never. Each of the spec's nine fault kinds is TAKEN as
60_exceptions.md R137 describes (a next state), so there is no constructor and nothing raises one (log entry 1).
That is safe: nothing is left out that the core could do. -/
inductive Fault where
deriving DecidableEq, Repr

/-- Why the model would refuse an instruction. -/
inductive Refusal where
  /-- Raised by `exec` alone, for an instruction without a meaning; no arm raises it in this model. Safe: the
  model stops where the hardware would go on. -/
  | notModelled (mnemonic : String)
deriving DecidableEq, Repr

/-- The state right after `reset(entry)` (10_state.md R26, 70_reset_and_hazards.md R149) of a new core: entry and
OPEN parameters as Machine/Platform.lean chooses them (log entries 5, 6), memory with nothing listed (log entry
4), no host decision made yet. -/
def State.reset : State where
  regs :=
    { r0 := 0, r1 := 0, r2 := 0, r3 := 0, ip := platformEntry, sp := platform.stackBase, fp := 0,
      sb := platform.stackBase, ss := platform.stackSize, src := 0, dst := 0, flags := 0 }
  run := .running
  mem := []
  params := platform
  events := []
  portHistory := []
  readAnswers := []
  writeAnswers := []
  pauseAnswers := []
  recoveries := []
  drawn := 0
  last := none

end Sys2Proof.Machine
end

