-- ==== Sys2Proof/Machine/Ops.lean ====
section
/-! DEFINITION. The named operations on registers, memory and ports, taking a fault, waiting, completing, and
fetching an instruction (spec/00_scope.md R5, 20_memory.md, 40_execution_cycle.md R67 to R73, 60_exceptions.md). -/

namespace Sys2Proof.Machine

/-! ## Registers -/

/-- `x[i]` (00_scope.md R5, 10_state.md R20). -/
def Regs.get (x : Regs) : RegId → Cell
  | .r0 => x.r0
  | .r1 => x.r1
  | .r2 => x.r2
  | .r3 => x.r3
  | .ip => x.ip
  | .sp => x.sp
  | .fp => x.fp
  | .sb => x.sb
  | .ss => x.ss
  | .src => x.src
  | .dst => x.dst
  | .flags => x.flags

/-- `x[i] <- v` (00_scope.md R5, 10_state.md R20). -/
def Regs.set (x : Regs) (r : RegId) (v : Cell) : Regs :=
  match r with
  | .r0 => { x with r0 := v }
  | .r1 => { x with r1 := v }
  | .r2 => { x with r2 := v }
  | .r3 => { x with r3 := v }
  | .ip => { x with ip := v }
  | .sp => { x with sp := v }
  | .fp => { x with fp := v }
  | .sb => { x with sb := v }
  | .ss => { x with ss := v }
  | .src => { x with src := v }
  | .dst => { x with dst := v }
  | .flags => { x with flags := v }

/-- `pc0`, the address of the instruction at hand: a meaning is applied to the state its `Step` began in
(00_scope.md R5, 10_state.md R13). -/
def State.pc (s : State) : Cell := s.regs.ip

/-- The registers after fetch, as the operands of an instruction with `n` argument words see them:
`x[IP] = (pc0 + 1 + n) mod 2^32` (10_state.md R13, 30_encoding.md R63). -/
def State.fetched (s : State) (n : Nat) : Regs :=
  s.regs.set .ip (s.pc + BitVec.ofNat 32 (1 + n))

/-! ## Memory -/

/-- What a cell that nothing has written reads as. DESIGN CHOICE (log entry 4): zero. -/
def unwritten : Cell := 0

/-- The cell at an address. -/
def Memory.read : Memory → Nat → Cell
  | [], _ => unwritten
  | (b, w) :: m, a => if a = b then w else Memory.read m a

/-- Put a cell in its place in the rising order of addresses. -/
def Memory.insert : Memory → Nat → Cell → Memory
  | [], a, v => [(a, v)]
  | (b, w) :: m, a, v =>
    if a < b then (a, v) :: (b, w) :: m
    else if a = b then (a, v) :: m
    else (b, w) :: Memory.insert m a v

/-- Write a cell, keeping the canonical form: a cell written back to what an unlisted one reads as is unlisted. -/
def Memory.write (m : Memory) (a : Nat) (v : Cell) : Memory :=
  if v = unwritten then m.filter (fun e => e.1 != a) else Memory.insert m a v

/-- The canonical form: addresses strictly rising, no cell listed that reads as an unlisted one. -/
abbrev Memory.wf (m : Memory) : Prop :=
  m.Pairwise (fun e f => e.1 < f.1) ∧ ∀ e ∈ m, e.2 ≠ unwritten

/-- Write cells to consecutive addresses, modulo `2^32`: the host placing words in its memory
(70_reset_and_hazards.md R151). -/
def Memory.load (m : Memory) (a : Cell) : List Cell → Memory
  | [] => m
  | v :: vs => Memory.load (Memory.write m a.toNat v) (a + 1) vs

/-- What the read-only storage at an address does with a write; `none` is RAM (93_implementation_defined.md U6). -/
def Params.romAt (p : Params) (a : Nat) : Option RomWrite :=
  (p.banks.find? (fun b => decide (b.base ≤ a ∧ a < b.base + b.size))).map RomBank.onWrite

/-- `getValue`: it fails exactly outside `[0, MEM_SIZE)` (20_memory.md R31). -/
def State.getValue (s : State) (a : Cell) : Option Cell :=
  if a.toNat < s.params.memSize then some (s.mem.read a.toNat) else none

/-- `setValue`: the memory after it, or `none` where the provider fails it: outside `[0, MEM_SIZE)`, or read-only
storage that refuses writes (20_memory.md R31). -/
def State.setValue (s : State) (a v : Cell) : Option Memory :=
  if a.toNat < s.params.memSize then
    match Params.romAt s.params a.toNat with
    | none => some (s.mem.write a.toNat v)
    | some .discards => some s.mem
    | some .fails => none
  else none

/-- `MemRead(addr)`, raising `SegmentationFault(addr)` (00_scope.md R5, 20_memory.md R31). -/
def State.memRead (s : State) (a : Cell) : Except ErrorEvent Cell :=
  match s.getValue a with
  | some v => .ok v
  | none => .error ⟨.segmentationFault, a⟩

/-- `MemWrite(addr, v)`, raising `SegmentationFault(addr)` (00_scope.md R5, 20_memory.md R31). -/
def State.memWrite (s : State) (a v : Cell) : Except ErrorEvent Memory :=
  match s.setValue a v with
  | some m => .ok m
  | none => .error ⟨.segmentationFault, a⟩

/-! ## Completing, halting, waiting, pausing

A meaning computes on copies and commits once, so a fault or a wait finds the registers as `Step` found them
(40_execution_cycle.md R70). -/

/-- `Completed(c)`: the registers and the memory of the finished instruction (40_execution_cycle.md R73). -/
def State.commit (s : State) (x : Regs) (m : Memory) (c : Nat) : State :=
  { s with regs := x, mem := m, last := some (.completed c) }

/-- `Halted_by_instruction(c)` (40_execution_cycle.md R73, 41_nop_halt_sect.md R76). -/
def State.commitHalt (s : State) (x : Regs) (c : Nat) : State :=
  { s with regs := x, run := .halted, last := some (.haltedByInstruction c) }

/-- `wait`: nothing has changed, the run state becomes Waiting (40_execution_cycle.md R69). -/
def State.wait (s : State) : State :=
  { s with run := .waiting, last := some .waited }

/-- The debug pause: as a wait, before anything is executed (40_execution_cycle.md R72). -/
def State.pause (s : State) : State :=
  { s with run := .waiting, last := some .paused }

/-- The retry of a Waiting core at the next `Tick` (40_execution_cycle.md R66). -/
def State.resume (s : State) : State :=
  { s with run := .running }

/-! ## Taking a fault -/

/-- The code of a fault kind (60_exceptions.md R135); 0 is kept for no fault. -/
def FaultKind.code : FaultKind → Nat
  | .illegalInstruction => 1
  | .segmentationFault => 2
  | .stackOverflow => 3
  | .stackUnderflow => 4
  | .divisionByZero => 5
  | .invalidType => 6
  | .invalidPort => 7
  | .illegalRegister => 8
  | .sectionBoundary => 9

/-- The registers after the writes of a host's `Recover`, in their order (60_exceptions.md R139). -/
def Regs.setAll (x : Regs) (ws : List (RegId × Cell)) : Regs :=
  ws.foldl (fun y w => y.set w.1 w.2) x

/-- The memory after the host's own writes; only cells of the backed space exist (60_exceptions.md R139). -/
def State.pokeAll (s : State) (ws : List (Cell × Cell)) : Memory :=
  ws.foldl (fun m w => if w.1.toNat < s.params.memSize then Memory.write m w.1.toNat w.2 else m) s.mem

/-- `Recover`: the host's reaction to a fault, by default nothing (60_exceptions.md R139; log entry 10). -/
def State.recover (s : State) : State :=
  match s.recoveries with
  | [] => s
  | r :: rest =>
    { s with
      regs := s.regs.setAll r.regs
      mem := s.pokeAll r.cells
      run := if r.resume then .running else s.run
      recoveries := rest }

/-- The error event reaches the host's callback, which may recover; without a callback it is dropped
(60_exceptions.md R137 steps 3 and 4; log entry 15). -/
def State.deliver (s : State) (e : ErrorEvent) : State :=
  if s.params.errorCallback then { s with events := s.events ++ [e] }.recover else s

/-- The core's own part of a fault: Halted, the registers those of the snapshot, which `s` still holds
(60_exceptions.md R137 steps 1 and 2, 40_execution_cycle.md R67). -/
def State.stop (s : State) (e : ErrorEvent) : State :=
  { s with run := .halted, last := some (.faulted e.kind e.addr) }

/-- `raise K(addr)`: TAKING A FAULT, the one operation every fault goes through (60_exceptions.md R137). There is
no return from a fault inside the program (R139): the ways out are `hostReset` and `recover`. -/
def State.raise (s : State) (e : ErrorEvent) : State :=
  (s.stop e).deliver e

/-- The state after an instruction's phases: the one they commit, or the fault they raise
(40_execution_cycle.md R67, R71). -/
def State.settle (s : State) : Except ErrorEvent State → State
  | .ok t => t
  | .error e => s.raise e

/-! ## Ports -/

/-- The port that is never ready: port 1, the unimplemented disk (20_memory.md R39). -/
def diskPort : Nat := 1

/-- The valid port number in a cell read as a signed integer, or `none` (20_memory.md R37). -/
def State.portOf (s : State) (p : Cell) : Option Nat :=
  if 0 ≤ p.toInt ∧ p.toInt < (s.params.portCount : Int) then some p.toInt.toNat else none

/-- The answer of `PortRead(p)` and the state after the transaction: a cell handed over is consumed, `NotReady`
leaves the history as it was (20_memory.md R38, R39; log entries 7, 8). -/
def State.portRead (s : State) (p : Nat) : Option Cell × State :=
  if p = diskPort then (none, s)
  else
    let (answer, t) :=
      match s.readAnswers with
      | a :: rest => (a, { s with readAnswers := rest })
      | [] => (Config.readAnswer s.drawn p, { s with drawn := s.drawn + 1 })
    match answer with
    | none => (none, t)
    | some v => (some v, { t with portHistory := t.portHistory ++ [.input p v] })

/-- The answer of `PortWrite(p, v)` (`true` is `Done`) and the state after the transaction (20_memory.md R38, R39;
log entries 7, 8). -/
def State.portWrite (s : State) (p : Nat) (v : Cell) : Bool × State :=
  if p = diskPort then (false, s)
  else
    let (answer, t) :=
      match s.writeAnswers with
      | a :: rest => (a, { s with writeAnswers := rest })
      | [] => (Config.writeAnswer s.drawn p v, { s with drawn := s.drawn + 1 })
    if answer then (true, { t with portHistory := t.portHistory ++ [.output p v] }) else (false, t)

/-! ## Fetch -/

/-- The `n` argument words from address `a` on, in ascending order, modulo `2^32` (30_encoding.md R63). -/
def State.fetchArgs (s : State) (a : Cell) : Nat → Except ErrorEvent (List Cell)
  | 0 => .ok []
  | n + 1 => do
    let v ← s.memRead a
    let rest ← s.fetchArgs (a + 1) n
    pure (v :: rest)

/-- Fetch the instruction cell at `x[IP]` and its argument words (30_encoding.md R63): `SegmentationFault` for a
cell outside memory, `IllegalInstruction` for `op > 0x10` before any argument word is fetched (R58 a). -/
def State.fetch (s : State) : Except ErrorEvent (List Cell) := do
  let w ← s.memRead s.pc
  match argc (opField w) with
  | none => .error ⟨.illegalInstruction, s.pc⟩
  | some n => do
    let rest ← s.fetchArgs (s.pc + 1) n
    pure (w :: rest)

/-- The fault that executing rejected cells raises (30_encoding.md R58). `truncated` cannot follow a fetch. -/
def rejectFault : Reject → FaultKind
  | .illegalOpcode => .illegalInstruction
  | .invalidSubtype => .invalidType
  | .truncated => .segmentationFault

/-! ## What the host does outside a Tick -/

/-- A new core before its first `reset`: Halted, its registers arbitrary (70_reset_and_hazards.md R150;
log entry 19). -/
def powerOn (p : Params) (x : Regs) (m : Memory) : State :=
  { State.reset with regs := x, run := .halted, mem := m, params := p }

/-- `reset(entry)` (70_reset_and_hazards.md R149): every register zeroed, then SB, SS, SP, IP; the run state
Running whatever it was; memory, ports and events untouched. -/
def State.hostReset (s : State) (entry : Cell) : State :=
  { s with
    regs :=
      { r0 := 0, r1 := 0, r2 := 0, r3 := 0, ip := entry, sp := s.params.stackBase, fp := 0,
        sb := s.params.stackBase, ss := s.params.stackSize, src := 0, dst := 0, flags := 0 }
    run := .running
    last := none }

/-- The host places the word array of a program from `LOAD_BASE` on (70_reset_and_hazards.md R151). -/
def State.hostLoad (s : State) (code : List Cell) : State :=
  { s with mem := s.mem.load s.params.loadBase code }

end Sys2Proof.Machine
end

