-- ==== Sys2Proof/Machine/Operands.lean ====
section
/-! DEFINITION. Operand locations, operand reads and operand writes: all four addressing modes with their checks in
the order of spec/30_encoding.md R50 to R56. -/

namespace Sys2Proof.Machine

/-- The register a number names, 0 to 11; `none` from 12 on (10_state.md R11, R20). -/
def regOf (b : Byte) : Option RegId :=
  match b.toNat with
  | 0 => some .r0
  | 1 => some .r1
  | 2 => some .r2
  | 3 => some .r3
  | 4 => some .ip
  | 5 => some .sp
  | 6 => some .fp
  | 7 => some .sb
  | 8 => some .ss
  | 9 => some .src
  | 10 => some .dst
  | 11 => some .flags
  | _ => none

/-- The location of a source operand (30_encoding.md R55). -/
inductive Loc where
  | imm (v : Cell)
  | reg (r : RegId)
  | mem (ea : Cell)
deriving DecidableEq, Repr

/-- The location of a destination operand: never an immediate (30_encoding.md R54, R55). -/
inductive Dest where
  | reg (r : RegId)
  | mem (ea : Cell)
deriving DecidableEq, Repr

/-- `(value << shift) + offset`, modulo `2^32` (30_encoding.md R52, R53). -/
def scaled (value : Cell) (shift : Byte) (offset : Cell) : Cell :=
  (value <<< shift.toNat) + offset

/-- The value that enters an address computation: that of the named register; `IllegalRegister(pc0)` from number
12 on (30_encoding.md R55). -/
def baseValue (x : Regs) (pc : Cell) (areg : Byte) : Except ErrorEvent Cell :=
  match regOf areg with
  | some r => .ok (x.get r)
  | none => .error ⟨.illegalRegister, pc⟩

/-- The index value of a static operand: 0 for the register field 0xFF (30_encoding.md R52). -/
def indexValue (x : Regs) (pc : Cell) (areg : Byte) : Except ErrorEvent Cell :=
  if areg = 0xFF then .ok 0 else baseValue x pc areg

/-- The check `ashift > 31`: `InvalidType(pc0)` (30_encoding.md R52, R53, R58 e). -/
def shiftCheck (pc : Cell) (ashift : Byte) : Except ErrorEvent Unit :=
  if ashift.toNat > 31 then .error ⟨.invalidType, pc⟩ else .ok ()

/-- The effective address of a static operand, its offset unsigned (30_encoding.md R52, R55). -/
def staticAddress (x : Regs) (pc : Cell) (areg ashift : Byte) (aoff : Half) : Except ErrorEvent Cell := do
  let idx ← indexValue x pc areg
  shiftCheck pc ashift
  pure (scaled idx ashift (aoff.setWidth 32))

/-- The effective address of a register-indirect operand, its offset signed (30_encoding.md R53, R55). -/
def indirectAddress (x : Regs) (pc : Cell) (areg ashift : Byte) (aoff : Half) : Except ErrorEvent Cell := do
  let base ← baseValue x pc areg
  shiftCheck pc ashift
  pure (scaled base ashift (aoff.signExtend 32))

/-- The register of a register-mode operand; `IllegalRegister(pc0)` from number 12 on (30_encoding.md R51, R55). -/
def registerOf (pc : Cell) (areg : Byte) : Except ErrorEvent RegId :=
  match regOf areg with
  | some r => .ok r
  | none => .error ⟨.illegalRegister, pc⟩

/-- `Loc(i)` of a source argument, over the registers after fetch (30_encoding.md R55). -/
def srcLoc (x : Regs) (pc : Cell) : Operand → Except ErrorEvent Loc
  | .imm v => .ok (.imm v)
  | .reg r => do pure (.reg (← registerOf pc r))
  | .sta r sh off => do pure (.mem (← staticAddress x pc r sh off))
  | .ind r sh off => do pure (.mem (← indirectAddress x pc r sh off))

/-- `Loc(i)` of a destination argument: an immediate raises `InvalidType(pc0)` (30_encoding.md R54, R55). -/
def dstLoc (x : Regs) (pc : Cell) : Operand → Except ErrorEvent Dest
  | .imm _ => .error ⟨.invalidType, pc⟩
  | .reg r => do pure (.reg (← registerOf pc r))
  | .sta r sh off => do pure (.mem (← staticAddress x pc r sh off))
  | .ind r sh off => do pure (.mem (← indirectAddress x pc r sh off))

/-- `Read(L)`: the registers are those after fetch (30_encoding.md R56). -/
def State.readLoc (s : State) (x : Regs) : Loc → Except ErrorEvent Cell
  | .imm v => .ok v
  | .reg r => .ok (x.get r)
  | .mem ea => s.memRead ea

/-- The memory write of phase 8, if the destination is in memory (40_execution_cycle.md R71, 30_encoding.md R56). -/
def State.storeTo (s : State) (v : Cell) : Dest → Except ErrorEvent Memory
  | .reg _ => .ok s.mem
  | .mem ea => s.memWrite ea v

/-- The explicit register write of phase 9, which comes after the implicit ones in `x` (40_execution_cycle.md
R71 d). -/
def Regs.setTo (x : Regs) (v : Cell) : Dest → Regs
  | .reg r => x.set r v
  | .mem _ => x

/-- `Write(L, v)` and the end of the instruction: the memory write, then the register writes, at cost `c`
(30_encoding.md R56, 40_execution_cycle.md R71 phases 8 and 9). `x` holds the implicit register writes. -/
def State.commitTo (s : State) (x : Regs) (L : Dest) (v : Cell) (c : Nat) : Except ErrorEvent State := do
  let m ← s.storeTo v L
  pure (s.commit (x.setTo v L) m c)

end Sys2Proof.Machine
end

