-- ==== Sys2Proof/Machine/Basic.lean ====
section
/-! DEFINITION. NOP, HALT and SECT (spec/41_nop_halt_sect.md). -/

namespace Sys2Proof.Machine

/-- `NOP` (R75): only IP moves. -/
def execNop (s : State) : Host.Outcome State Fault Refusal :=
  .next (s.commit (s.fetched 0) s.mem 1)

/-- `HALT` (R76): the core halts with IP past the instruction; no event. -/
def execHalt (s : State) : Host.Outcome State Fault Refusal :=
  .next (s.commitHalt (s.fetched 0) 1)

/-- `SECT` (R77): always the fault SectionBoundary at its own address. -/
def execSect (s : State) : Host.Outcome State Fault Refusal :=
  .next (s.raise ⟨.sectionBoundary, s.pc⟩)

end Sys2Proof.Machine
end

