-- ==== Sys2Proof/Machine/Alu.lean ====
section
/-! DEFINITION. The integer, bitwise and shift functions of BINOP and UNOP (spec/44_binary_ops.md R94, R96 to R108,
45_unary_ops.md R114, R115). -/

namespace Sys2Proof.Machine

/-- ADD: `(p + q) mod 2^32` (R96). -/
def aluAdd (p q : Cell) : Cell := p + q

/-- SUB: `(p − q) mod 2^32` (R97). -/
def aluSub (p q : Cell) : Cell := p - q

/-- MUL: the low 32 bits of the product (R98). -/
def aluMul (p q : Cell) : Cell := p * q

/-- DIV: the signed quotient rounded toward zero, wrapped (R99). -/
def aluDiv (p q : Cell) : Cell := BitVec.ofInt 32 (p.toInt.tdiv q.toInt)

/-- MOD: the signed remainder, with the sign of the dividend (R100). -/
def aluMod (p q : Cell) : Cell := BitVec.ofInt 32 (p.toInt.tmod q.toInt)

/-- UDIV: the unsigned quotient rounded down (R101). -/
def aluUdiv (p q : Cell) : Cell := BitVec.ofNat 32 (p.toNat / q.toNat)

/-- UMOD: the unsigned remainder (R102). -/
def aluUmod (p q : Cell) : Cell := BitVec.ofNat 32 (p.toNat % q.toNat)

/-- AND (R103). -/
def aluAnd (p q : Cell) : Cell := p &&& q

/-- OR (R104). -/
def aluOr (p q : Cell) : Cell := p ||| q

/-- XOR (R105). -/
def aluXor (p q : Cell) : Cell := p ^^^ q

/-- The shift count: the low five bits of `q` (R94). -/
def shiftCount (q : Cell) : Nat := (q.extractLsb' 0 5).toNat

/-- SHL: zeros enter at the right (R106). -/
def aluShl (p q : Cell) : Cell := p <<< shiftCount q

/-- SHR: zeros enter at the left (R107). -/
def aluShr (p q : Cell) : Cell := p >>> shiftCount q

/-- SAR: copies of bit 31 enter at the left (R108). -/
def aluSar (p q : Cell) : Cell := p.sshiftRight (shiftCount q)

/-- NEG: `(0 − p) mod 2^32` (R114). -/
def aluNeg (p : Cell) : Cell := 0 - p

/-- NOT: every bit inverted (R115). -/
def aluNot (p : Cell) : Cell := ~~~p

end Sys2Proof.Machine
end

