-- ==== Sys2Proof/Machine/Float.lean ====
section
/-! DEFINITION. IEEE-754 binary32 arithmetic on cells (spec/44_binary_ops.md R95, R109 to R112, 45_unary_ops.md R116
to R122, 93_implementation_defined.md G1 to G4). Every finite float is a whole number of units of `2^-149`, the
smallest subnormal, so the exact result of an operation is a quotient of naturals, rounded once at the end. -/

namespace Sys2Proof.Machine

/-! ## The view `f(v)` -/

/-- The sign bit (00_scope.md R4). -/
def signBit (v : Cell) : Bool := v.getLsbD 31

/-- The biased exponent, bits 30:23 (00_scope.md R4). -/
def expField (v : Cell) : Nat := (v.extractLsb' 23 8).toNat

/-- The fraction, bits 22:0 (00_scope.md R4). -/
def fracField (v : Cell) : Nat := (v.extractLsb' 0 23).toNat

/-- Exponent 0xFF, fraction not zero (93_implementation_defined.md G1). -/
def isNaN (v : Cell) : Bool := expField v == 255 && fracField v != 0

/-- Exponent 0xFF, fraction zero (93_implementation_defined.md G1). -/
def isInf (v : Cell) : Bool := expField v == 255 && fracField v == 0

/-- The magnitude of a finite float in units of `2^-149` (93_implementation_defined.md G1); of an infinity, a number
above every finite magnitude. -/
def floatMag (v : Cell) : Nat :=
  if expField v = 0 then fracField v else (2 ^ 23 + fracField v) * 2 ^ (expField v - 1)

/-- The value of a finite float in units of `2^-149`, signed; both zeros are 0. -/
def floatUnits (v : Cell) : Int := if signBit v then -(floatMag v : Int) else floatMag v

/-! ## Rounding -/

/-- `+infinity`. -/
def infBits : Nat := 0x7F800000

/-- The bits of the magnitude nearest to `n / d` units, ties to even, as if the exponent had no upper bound
(44_binary_ops.md R95). With `k` the power of two between neighbouring floats there and `q` the quotient in such
steps, the encoding is `k * 2^23 + q`, for subnormals (`k = 0`, `q < 2^23`) and normals alike, and rounding up
past a power of two carries into the exponent. -/
def roundBits (n d : Nat) : Nat :=
  let k := (n / d).log2 - 23
  let step := d * 2 ^ k
  let q := n / step
  let r := n % step
  let up := step < 2 * r ∨ (2 * r = step ∧ q % 2 = 1)
  k * 2 ^ 23 + q + (if up then 1 else 0)

/-- A sign and a rounded magnitude as a cell; from `2^128` on it is infinity (44_binary_ops.md R95). -/
def packFloat (sign : Bool) (bits : Nat) : Cell :=
  BitVec.ofNat 32 ((if sign then 2 ^ 31 else 0) + min bits infBits)

/-! ## NaN results -/

/-- The spec's default quiet NaN (00_scope.md R3). -/
def quietNaN : Cell := 0x7FC00000

/-- Any NaN the host likes: its own bits where they are a NaN (00_scope.md R3, log entry 11). -/
def asNaN (v : Cell) : Cell := if isNaN v then v else quietNaN

/-- `nan_result(sub, p, q)`: open, but some NaN (44_binary_ops.md R95; log entry 11). -/
def nanResult (op : FloatOp) (p q : Cell) : Cell := asNaN (Config.nanBits op p q)

/-! ## Binary operations -/

/-- The sum of two floats, `nan` where the result is a NaN (44_binary_ops.md R95, R109). -/
def floatSum (nan p q : Cell) : Cell :=
  if isNaN p || isNaN q then nan
  else if isInf p then
    if isInf q && (signBit p != signBit q) then nan else p
  else if isInf q then q
  else
    let z := floatUnits p + floatUnits q
    if z = 0 then packFloat (signBit p && signBit q) 0
    else packFloat (decide (z < 0)) (roundBits z.natAbs 1)

/-- The sign bit inverted, nothing else (45_unary_ops.md R116). -/
def fneg (p : Cell) : Cell := p ^^^ 0x80000000#32

/-- The sign bit cleared, nothing else (45_unary_ops.md R117). -/
def fabs (p : Cell) : Cell := p &&& 0x7FFFFFFF#32

/-- FADD (44_binary_ops.md R109). -/
def fadd (p q : Cell) : Cell := floatSum (nanResult .fadd p q) p q

/-- FSUB (44_binary_ops.md R110): the sum with the second operand's sign inverted. -/
def fsub (p q : Cell) : Cell := floatSum (nanResult .fsub p q) p (fneg q)

/-- FMUL (44_binary_ops.md R111); the exact product is `floatMag p * floatMag q / 2^149` units. -/
def fmul (p q : Cell) : Cell :=
  let sign := signBit p != signBit q
  if isNaN p || isNaN q then nanResult .fmul p q
  else if isInf p || isInf q then
    if floatMag p = 0 ∨ floatMag q = 0 then nanResult .fmul p q else packFloat sign infBits
  else packFloat sign (roundBits (floatMag p * floatMag q) (2 ^ 149))

/-- FDIV (44_binary_ops.md R112, R95); the exact quotient is `floatMag p * 2^149 / floatMag q` units. -/
def fdiv (p q : Cell) : Cell :=
  let sign := signBit p != signBit q
  if isNaN p || isNaN q then nanResult .fdiv p q
  else if isInf p then
    if isInf q then nanResult .fdiv p q else packFloat sign infBits
  else if isInf q then packFloat sign 0
  else if floatMag q = 0 then
    if floatMag p = 0 then nanResult .fdiv p q else packFloat sign infBits
  else packFloat sign (roundBits (floatMag p * 2 ^ 149) (floatMag q))

/-! ## Unary operations -/

/-- The greatest root found by deciding its bits from bit `b - 1` down, `acc` holding those already decided. -/
def sqrtBits (n : Nat) : Nat → Nat → Nat
  | 0, acc => acc
  | b + 1, acc => if (acc + 2 ^ b) * (acc + 2 ^ b) ≤ n then sqrtBits n b (acc + 2 ^ b) else sqrtBits n b acc

/-- The square root rounded down, of numbers below `2^432`. -/
def floorSqrt (n : Nat) : Nat := sqrtBits n 216 0

/-- FSQRT (45_unary_ops.md R118). The root of `m` units is that of `m * 2^149` in units; it has far more bits than
a fraction, so its whole part and whether it is exact decide the rounding. -/
def fsqrt (p : Cell) : Cell :=
  if isNaN p then nanResult .fsqrt p 0
  else if floatMag p = 0 then p
  else if signBit p then nanResult .fsqrt p 0
  else if isInf p then p
  else
    let n := floatMag p * 2 ^ 149
    let root := floorSqrt n
    packFloat false (roundBits (2 * root + (if root * root = n then 0 else 1)) 2)

/-- `1.0` (45_unary_ops.md R120). -/
def oneCell : Cell := 0x3F800000

/-- The host's bits where they are a finite float with `|f(r)| ≤ 1`, else `+0` (45_unary_ops.md R119, R120). -/
def asUnit (v : Cell) : Cell := if floatMag v ≤ floatMag oneCell then v else 0

/-- `fsin`: open, within the constraints of 45_unary_ops.md R119 (log entry 12). -/
def fsin (p : Cell) : Cell :=
  if expField p = 255 then asNaN (Config.sinBits p)
  else if floatMag p = 0 then p
  else asUnit (Config.sinBits p)

/-- `fcos`: open, within the constraints of 45_unary_ops.md R120 (log entry 12). -/
def fcos (p : Cell) : Cell :=
  if expField p = 255 then asNaN (Config.cosBits p)
  else if floatMag p = 0 then oneCell
  else asUnit (Config.cosBits p)

/-- ITOF (45_unary_ops.md R121). -/
def itof (p : Cell) : Cell :=
  packFloat (decide (p.toInt < 0)) (roundBits (p.toInt.natAbs * 2 ^ 149) 1)

/-- FTOI (45_unary_ops.md R122): truncated, saturating, a NaN gives 0. -/
def ftoi (p : Cell) : Cell :=
  let whole : Nat := floatMag p / 2 ^ 149
  if isNaN p then 0
  else if signBit p then
    if 2 ^ 31 ≤ whole then 0x80000000 else BitVec.ofInt 32 (-(whole : Int))
  else if 2 ^ 31 ≤ whole then 0x7FFFFFFF
  else BitVec.ofNat 32 whole

end Sys2Proof.Machine
end

