-- ==== Sys2Proof/Machine/Binary.lean ====
section
/-! DEFINITION. The seventeen binary operations (spec/44_binary_ops.md). -/

namespace Sys2Proof.Machine

/-- The body every BINOP shares (R93): three locations, two reads, the operation (which may raise), the write.
`c` is the cost. -/
def State.binaryWith (s : State) (c : Nat) (f : Cell → Cell → Except ErrorEvent Cell) (a0 a1 a2 : Operand) : State :=
  s.settle <| do
    let x := s.fetched 3
    let l0 ← dstLoc x s.pc a0
    let l1 ← srcLoc x s.pc a1
    let l2 ← srcLoc x s.pc a2
    let p ← s.readLoc x l1
    let q ← s.readLoc x l2
    let r ← f p q
    s.commitTo x l0 r c

/-- A binary operation that raises nothing of its own (R93). -/
def State.binary (s : State) (c : Nat) (f : Cell → Cell → Cell) (a0 a1 a2 : Operand) : State :=
  s.binaryWith c (fun p q => .ok (f p q)) a0 a1 a2

/-- A division or remainder: `DivisionByZero(pc0)` where the second source is zero (R93, R94). -/
def State.division (s : State) (c : Nat) (f : Cell → Cell → Cell) (a0 a1 a2 : Operand) : State :=
  s.binaryWith c (fun p q => if q = 0 then .error ⟨.divisionByZero, s.pc⟩ else .ok (f p q)) a0 a1 a2

/-- `ADD a0, a1, a2` (R96). -/
def execAdd (a0 a1 a2 : Operand) (s : State) : Host.Outcome State Fault Refusal :=
  .next (s.binary 1 aluAdd a0 a1 a2)

/-- `SUB a0, a1, a2` (R97). -/
def execSub (a0 a1 a2 : Operand) (s : State) : Host.Outcome State Fault Refusal :=
  .next (s.binary 1 aluSub a0 a1 a2)

/-- `MUL a0, a1, a2` (R98). -/
def execMul (a0 a1 a2 : Operand) (s : State) : Host.Outcome State Fault Refusal :=
  .next (s.binary s.params.costMul aluMul a0 a1 a2)

/-- `DIV a0, a1, a2` (R99). -/
def execDiv (a0 a1 a2 : Operand) (s : State) : Host.Outcome State Fault Refusal :=
  .next (s.division s.params.costDiv aluDiv a0 a1 a2)

/-- `MOD a0, a1, a2` (R100). -/
def execMod (a0 a1 a2 : Operand) (s : State) : Host.Outcome State Fault Refusal :=
  .next (s.division s.params.costDiv aluMod a0 a1 a2)

/-- `UDIV a0, a1, a2` (R101). -/
def execUdiv (a0 a1 a2 : Operand) (s : State) : Host.Outcome State Fault Refusal :=
  .next (s.division s.params.costDiv aluUdiv a0 a1 a2)

/-- `UMOD a0, a1, a2` (R102). -/
def execUmod (a0 a1 a2 : Operand) (s : State) : Host.Outcome State Fault Refusal :=
  .next (s.division s.params.costDiv aluUmod a0 a1 a2)

/-- `AND a0, a1, a2` (R103). -/
def execAnd (a0 a1 a2 : Operand) (s : State) : Host.Outcome State Fault Refusal :=
  .next (s.binary 1 aluAnd a0 a1 a2)

/-- `OR a0, a1, a2` (R104). -/
def execOr (a0 a1 a2 : Operand) (s : State) : Host.Outcome State Fault Refusal :=
  .next (s.binary 1 aluOr a0 a1 a2)

/-- `XOR a0, a1, a2` (R105). -/
def execXor (a0 a1 a2 : Operand) (s : State) : Host.Outcome State Fault Refusal :=
  .next (s.binary 1 aluXor a0 a1 a2)

/-- `SHL a0, a1, a2` (R106). -/
def execShl (a0 a1 a2 : Operand) (s : State) : Host.Outcome State Fault Refusal :=
  .next (s.binary 1 aluShl a0 a1 a2)

/-- `SHR a0, a1, a2` (R107). -/
def execShr (a0 a1 a2 : Operand) (s : State) : Host.Outcome State Fault Refusal :=
  .next (s.binary 1 aluShr a0 a1 a2)

/-- `SAR a0, a1, a2` (R108). -/
def execSar (a0 a1 a2 : Operand) (s : State) : Host.Outcome State Fault Refusal :=
  .next (s.binary 1 aluSar a0 a1 a2)

/-- `FADD a0, a1, a2` (R109). -/
def execFadd (a0 a1 a2 : Operand) (s : State) : Host.Outcome State Fault Refusal :=
  .next (s.binary 1 fadd a0 a1 a2)

/-- `FSUB a0, a1, a2` (R110). -/
def execFsub (a0 a1 a2 : Operand) (s : State) : Host.Outcome State Fault Refusal :=
  .next (s.binary 1 fsub a0 a1 a2)

/-- `FMUL a0, a1, a2` (R111). -/
def execFmul (a0 a1 a2 : Operand) (s : State) : Host.Outcome State Fault Refusal :=
  .next (s.binary s.params.costMul fmul a0 a1 a2)

/-- `FDIV a0, a1, a2` (R112). -/
def execFdiv (a0 a1 a2 : Operand) (s : State) : Host.Outcome State Fault Refusal :=
  .next (s.binary s.params.costDiv fdiv a0 a1 a2)

end Sys2Proof.Machine
end

