-- ==== Sys2Proof/Machine/Flags.lean ====
section
/-! DEFINITION. The comparison flags: the seven comparisons that write them and the six conditions that read them
(spec/10_state.md R19, 43_control_transfer.md R81, 47_cmp_mov.md R125 to R132). -/

namespace Sys2Proof.Machine

/-- `E`, bit 0 of FLAGS: the last comparison found its operands equal (10_state.md R19). -/
def flagE (f : Cell) : Bool := f.getLsbD 0

/-- `G`, bit 1 of FLAGS: the last comparison found its first operand greater (10_state.md R19). -/
def flagG (f : Cell) : Bool := f.getLsbD 1

/-- `zext_32(G : E)`, the whole FLAGS register as CMP writes it (47_cmp_mov.md R125). -/
def flagsCell (e g : Bool) : Cell := (BitVec.ofBool g ++ BitVec.ofBool e).setWidth 32

/-- The outcome of comparing two numbers (47_cmp_mov.md R125). -/
def compareInts (p q : Int) : Cell := flagsCell (decide (p = q)) (decide (p > q))

/-- The low `W` bits of a cell as a signed number (47_cmp_mov.md R125 to R128). -/
def lowSigned (W : Nat) (v : Cell) : Int := (v.extractLsb' 0 W).toInt

/-- The low `W` bits of a cell as an unsigned number (47_cmp_mov.md R125, R129 to R131). -/
def lowUnsigned (W : Nat) (v : Cell) : Int := (v.extractLsb' 0 W).toNat

/-- The signed comparisons (47_cmp_mov.md R126 to R128). -/
def compareSigned (W : Nat) (p q : Cell) : Cell := compareInts (lowSigned W p) (lowSigned W q)

/-- The unsigned comparisons (47_cmp_mov.md R129 to R131). -/
def compareUnsigned (W : Nat) (p q : Cell) : Cell := compareInts (lowUnsigned W p) (lowUnsigned W q)

/-- The binary32 comparison: unordered with a NaN, by value otherwise (47_cmp_mov.md R132). -/
def compareFloats (p q : Cell) : Cell :=
  if isNaN p || isNaN q then flagsCell false false else compareInts (floatUnits p) (floatUnits q)

/-- The six conditions (43_control_transfer.md R81). -/
inductive Condition where
  | eq | ne | gt | lt | ge | le
deriving DecidableEq, Repr

/-- When a condition holds of FLAGS (43_control_transfer.md R81). -/
def Condition.holds (c : Condition) (f : Cell) : Bool :=
  match c with
  | .eq => flagE f
  | .ne => !flagE f
  | .gt => flagG f
  | .lt => !flagE f && !flagG f
  | .ge => flagE f || flagG f
  | .le => !flagG f

end Sys2Proof.Machine
end

