-- ==== Sys2Proof/Machine/CompareMove.lean ====
section
/-! DEFINITION. The seven comparisons and MOV (spec/47_cmp_mov.md). -/

namespace Sys2Proof.Machine

/-- The body every CMP shares (R125): it writes the whole FLAGS register and nothing else. -/
def State.compare (s : State) (f : Cell → Cell → Cell) (a0 a1 : Operand) : State :=
  s.settle <| do
    let x := s.fetched 2
    let l0 ← srcLoc x s.pc a0
    let l1 ← srcLoc x s.pc a1
    let p ← s.readLoc x l0
    let q ← s.readLoc x l1
    pure (s.commit { x with flags := f p q } s.mem 1)

/-- `CMP.I32 a0, a1` (R126). -/
def execCmpI32 (a0 a1 : Operand) (s : State) : Host.Outcome State Fault Refusal :=
  .next (s.compare (compareSigned 32) a0 a1)

/-- `CMP.I16 a0, a1` (R127). -/
def execCmpI16 (a0 a1 : Operand) (s : State) : Host.Outcome State Fault Refusal :=
  .next (s.compare (compareSigned 16) a0 a1)

/-- `CMP.I8 a0, a1` (R128). -/
def execCmpI8 (a0 a1 : Operand) (s : State) : Host.Outcome State Fault Refusal :=
  .next (s.compare (compareSigned 8) a0 a1)

/-- `CMP.U32 a0, a1` (R129). -/
def execCmpU32 (a0 a1 : Operand) (s : State) : Host.Outcome State Fault Refusal :=
  .next (s.compare (compareUnsigned 32) a0 a1)

/-- `CMP.U16 a0, a1` (R130). -/
def execCmpU16 (a0 a1 : Operand) (s : State) : Host.Outcome State Fault Refusal :=
  .next (s.compare (compareUnsigned 16) a0 a1)

/-- `CMP.U8 a0, a1` (R131). -/
def execCmpU8 (a0 a1 : Operand) (s : State) : Host.Outcome State Fault Refusal :=
  .next (s.compare (compareUnsigned 8) a0 a1)

/-- `CMP.F32 a0, a1` (R132). -/
def execCmpF32 (a0 a1 : Operand) (s : State) : Host.Outcome State Fault Refusal :=
  .next (s.compare compareFloats a0 a1)

/-- `MOV a0, a1` (R133). -/
def execMov (a0 a1 : Operand) (s : State) : Host.Outcome State Fault Refusal :=
  .next <| s.settle <| do
    let x := s.fetched 2
    let l0 ← dstLoc x s.pc a0
    let l1 ← srcLoc x s.pc a1
    let v ← s.readLoc x l1
    s.commitTo x l0 v 1

end Sys2Proof.Machine
end

