-- ==== Sys2Proof/Machine/Stack.lean ====
section
/-! DEFINITION. PUSH and POP (spec/42_stack.md), and the limit checks the stack instructions share
(spec/10_state.md R14, R16, R17; the arithmetic is unbounded, 00_scope.md R6). -/

namespace Sys2Proof.Machine

/-- The overflow check before `slots` cells are taken at SP: `StackOverflow(pc0)` where `SP + slots` passes
`SB + SS` (42_stack.md R78, 43_control_transfer.md R88). -/
def overflowCheck (x : Regs) (pc : Cell) (slots : Nat) : Except ErrorEvent Unit :=
  if x.sp.toNat + slots > x.sb.toNat + x.ss.toNat then .error ⟨.stackOverflow, pc⟩ else .ok ()

/-- The underflow check before `slots` cells below `top` are given up: `StackUnderflow(pc0)` where one lies below
SB (42_stack.md R79, 43_control_transfer.md R89, R91). -/
def underflowCheck (x : Regs) (pc top : Cell) (slots : Nat) : Except ErrorEvent Unit :=
  if top.toNat < x.sb.toNat + slots then .error ⟨.stackUnderflow, pc⟩ else .ok ()

/-- `PUSH a0` (R78). -/
def execPush (a0 : Operand) (s : State) : Host.Outcome State Fault Refusal :=
  .next <| s.settle <| do
    let x := s.fetched 1
    let l0 ← srcLoc x s.pc a0
    let v ← s.readLoc x l0
    overflowCheck x s.pc 1
    let m ← s.memWrite x.sp v
    pure (s.commit { x with sp := x.sp + 1 } m 1)

/-- `POP a0` (R79): the destination is located before the pop and written after SP. -/
def execPop (a0 : Operand) (s : State) : Host.Outcome State Fault Refusal :=
  .next <| s.settle <| do
    let x := s.fetched 1
    let l0 ← dstLoc x s.pc a0
    underflowCheck x s.pc x.sp 1
    let v ← s.memRead (x.sp - 1)
    s.commitTo { x with sp := x.sp - 1 } l0 v 1

end Sys2Proof.Machine
end

