-- ==== Sys2Proof/Machine/Control.lean ====
section
/-! DEFINITION. Control transfer: JMP, the six JMPC, CALL, RET, ENTER, LEAVE (spec/43_control_transfer.md). -/

namespace Sys2Proof.Machine

/-- `JMP a0` (R80). -/
def execJmp (a0 : Operand) (s : State) : Host.Outcome State Fault Refusal :=
  .next <| s.settle <| do
    let x := s.fetched 1
    let l0 ← srcLoc x s.pc a0
    let t ← s.readLoc x l0
    pure (s.commit { x with ip := t } s.mem 1)

/-- The body the six JMPC share (R81): the target is read whether or not the jump is taken. -/
def State.jumpIf (s : State) (c : Condition) (a0 : Operand) : State :=
  s.settle <| do
    let x := s.fetched 1
    let l0 ← srcLoc x s.pc a0
    let t ← s.readLoc x l0
    pure (s.commit (if c.holds x.flags then { x with ip := t } else x) s.mem 1)

/-- `JMPC.EQ a0` (R82). -/
def execJmpcEq (a0 : Operand) (s : State) : Host.Outcome State Fault Refusal :=
  .next (s.jumpIf .eq a0)

/-- `JMPC.NE a0` (R83). -/
def execJmpcNe (a0 : Operand) (s : State) : Host.Outcome State Fault Refusal :=
  .next (s.jumpIf .ne a0)

/-- `JMPC.GT a0` (R84). -/
def execJmpcGt (a0 : Operand) (s : State) : Host.Outcome State Fault Refusal :=
  .next (s.jumpIf .gt a0)

/-- `JMPC.LT a0` (R85). -/
def execJmpcLt (a0 : Operand) (s : State) : Host.Outcome State Fault Refusal :=
  .next (s.jumpIf .lt a0)

/-- `JMPC.GE a0` (R86). -/
def execJmpcGe (a0 : Operand) (s : State) : Host.Outcome State Fault Refusal :=
  .next (s.jumpIf .ge a0)

/-- `JMPC.LE a0` (R87). -/
def execJmpcLe (a0 : Operand) (s : State) : Host.Outcome State Fault Refusal :=
  .next (s.jumpIf .le a0)

/-- `CALL a0` (R90): the return address is the IP after fetch. -/
def execCall (a0 : Operand) (s : State) : Host.Outcome State Fault Refusal :=
  .next <| s.settle <| do
    let x := s.fetched 1
    let l0 ← srcLoc x s.pc a0
    let t ← s.readLoc x l0
    overflowCheck x s.pc 1
    let m ← s.memWrite x.sp x.ip
    pure (s.commit { x with sp := x.sp + 1, ip := t } m 1)

/-- `RET a0, a1` (R91): `b` slots above the return address and `k` below it are given up. -/
def execRet (a0 a1 : Operand) (s : State) : Host.Outcome State Fault Refusal :=
  .next <| s.settle <| do
    let x := s.fetched 2
    let l0 ← srcLoc x s.pc a0
    let l1 ← srcLoc x s.pc a1
    let b ← s.readLoc x l0
    let k ← s.readLoc x l1
    underflowCheck x s.pc x.sp (b.toNat + 1 + k.toNat)
    let ra ← s.memRead (x.sp - b - 1)
    pure (s.commit { x with sp := x.sp - b - 1 - k, ip := ra } s.mem 1)

/-- `ENTER a0` (R88): one check for the saved FP and all the slots. -/
def execEnter (a0 : Operand) (s : State) : Host.Outcome State Fault Refusal :=
  .next <| s.settle <| do
    let x := s.fetched 1
    let l0 ← srcLoc x s.pc a0
    let k ← s.readLoc x l0
    overflowCheck x s.pc (1 + k.toNat)
    let m ← s.memWrite x.sp x.fp
    pure (s.commit { x with fp := x.sp + 1, sp := x.sp + 1 + k } m 1)

/-- `LEAVE` (R89). -/
def execLeave (s : State) : Host.Outcome State Fault Refusal :=
  .next <| s.settle <| do
    let x := s.fetched 0
    underflowCheck x s.pc x.fp 1
    let v ← s.memRead (x.fp - 1)
    pure (s.commit { x with sp := x.fp - 1, fp := v } s.mem 1)

end Sys2Proof.Machine
end

