-- ==== Sys2Proof/Machine/Port.lean ====
section
/-! DEFINITION. IN and OUT (spec/46_io.md), the only instructions that reach the port space and that can wait. -/

namespace Sys2Proof.Machine

/-- The port check of IN and OUT: `InvalidPort(pc0)` outside `[0, PORT_COUNT)` (R123, R124). -/
def State.portCheck (s : State) (p : Cell) : Except ErrorEvent Nat :=
  match s.portOf p with
  | some n => .ok n
  | none => .error ⟨.invalidPort, s.pc⟩

/-- Phases 3 to 5 of IN: the destination and the port (R123). -/
def State.inPhases (s : State) (a0 a1 : Operand) : Except ErrorEvent (Dest × Nat) := do
  let x := s.fetched 2
  let l0 ← dstLoc x s.pc a0
  let l1 ← srcLoc x s.pc a1
  let p ← s.readLoc x l1
  let port ← s.portCheck p
  pure (l0, port)

/-- Phases 3 to 5 of OUT: the port and the value (R124). -/
def State.outPhases (s : State) (a0 a1 : Operand) : Except ErrorEvent (Nat × Cell) := do
  let x := s.fetched 2
  let l0 ← srcLoc x s.pc a0
  let l1 ← srcLoc x s.pc a1
  let p ← s.readLoc x l0
  let v ← s.readLoc x l1
  let port ← s.portCheck p
  pure (port, v)

/-- The rest of IN once the port has answered; `s` is the state after the transaction. A memory destination that
faults has lost the cell the host handed over: the machine's one imprecise fault (R123). -/
def State.finishIn (s : State) (l0 : Dest) : Option Cell → State
  | none => s.wait
  | some v => s.settle (s.commitTo (s.fetched 2) l0 v 1)

/-- The rest of OUT once the port has answered (R124). -/
def State.finishOut (s : State) : Bool → State
  | false => s.wait
  | true => s.commit (s.fetched 2) s.mem 1

/-- `IN a0, a1` (R123). -/
def execInPort (a0 a1 : Operand) (s : State) : Host.Outcome State Fault Refusal :=
  .next <|
    match s.inPhases a0 a1 with
    | .error e => s.raise e
    | .ok (l0, port) => (s.portRead port).2.finishIn l0 (s.portRead port).1

/-- `OUT a0, a1` (R124). -/
def execOutPort (a0 a1 : Operand) (s : State) : Host.Outcome State Fault Refusal :=
  .next <|
    match s.outPhases a0 a1 with
    | .error e => s.raise e
    | .ok (port, v) => (s.portWrite port v).2.finishOut (s.portWrite port v).1

end Sys2Proof.Machine
end

