-- ==== Sys2Proof/Machine/Unary.lean ====
section
/-! DEFINITION. The nine unary operations (spec/45_unary_ops.md). -/

namespace Sys2Proof.Machine

/-- The body every UNOP shares (R113); `c` is the cost. -/
def State.unary (s : State) (c : Nat) (f : Cell → Cell) (a0 a1 : Operand) : State :=
  s.settle <| do
    let x := s.fetched 2
    let l0 ← dstLoc x s.pc a0
    let l1 ← srcLoc x s.pc a1
    let p ← s.readLoc x l1
    s.commitTo x l0 (f p) c

/-- `NEG a0, a1` (R114). -/
def execNeg (a0 a1 : Operand) (s : State) : Host.Outcome State Fault Refusal :=
  .next (s.unary 1 aluNeg a0 a1)

/-- `NOT a0, a1` (R115). -/
def execNot (a0 a1 : Operand) (s : State) : Host.Outcome State Fault Refusal :=
  .next (s.unary 1 aluNot a0 a1)

/-- `FNEG a0, a1` (R116). -/
def execFneg (a0 a1 : Operand) (s : State) : Host.Outcome State Fault Refusal :=
  .next (s.unary 1 fneg a0 a1)

/-- `FABS a0, a1` (R117). -/
def execFabs (a0 a1 : Operand) (s : State) : Host.Outcome State Fault Refusal :=
  .next (s.unary 1 fabs a0 a1)

/-- `FSQRT a0, a1` (R118). -/
def execFsqrt (a0 a1 : Operand) (s : State) : Host.Outcome State Fault Refusal :=
  .next (s.unary s.params.costTrans fsqrt a0 a1)

/-- `FSIN a0, a1` (R119). -/
def execFsin (a0 a1 : Operand) (s : State) : Host.Outcome State Fault Refusal :=
  .next (s.unary s.params.costTrans fsin a0 a1)

/-- `FCOS a0, a1` (R120). -/
def execFcos (a0 a1 : Operand) (s : State) : Host.Outcome State Fault Refusal :=
  .next (s.unary s.params.costTrans fcos a0 a1)

/-- `ITOF a0, a1` (R121). -/
def execItof (a0 a1 : Operand) (s : State) : Host.Outcome State Fault Refusal :=
  .next (s.unary 1 itof a0 a1)

/-- `FTOI a0, a1` (R122). -/
def execFtoi (a0 a1 : Operand) (s : State) : Host.Outcome State Fault Refusal :=
  .next (s.unary 1 ftoi a0 a1)

end Sys2Proof.Machine
end

