-- ==== Sys2Proof/Machine/Dispatch.lean ====
section
/-! DEFINITION. The dispatch: one arm per instruction, one direct call of its meaning. -/

namespace Sys2Proof.Machine

/-- What one instruction does, applied to the state its `Step` began in, after fetch, decode and the debug hook
(40_execution_cycle.md R67, R71). -/
def exec (i : Instr) (s : State) : Host.Outcome State Fault Refusal :=
  match i with
  | .nop => Sys2Proof.Machine.execNop s
  | .halt => Sys2Proof.Machine.execHalt s
  | .push a0 => Sys2Proof.Machine.execPush a0 s
  | .pop a0 => Sys2Proof.Machine.execPop a0 s
  | .jmp a0 => Sys2Proof.Machine.execJmp a0 s
  | .jmpcEq a0 => Sys2Proof.Machine.execJmpcEq a0 s
  | .jmpcNe a0 => Sys2Proof.Machine.execJmpcNe a0 s
  | .jmpcGt a0 => Sys2Proof.Machine.execJmpcGt a0 s
  | .jmpcLt a0 => Sys2Proof.Machine.execJmpcLt a0 s
  | .jmpcGe a0 => Sys2Proof.Machine.execJmpcGe a0 s
  | .jmpcLe a0 => Sys2Proof.Machine.execJmpcLe a0 s
  | .call a0 => Sys2Proof.Machine.execCall a0 s
  | .ret a0 a1 => Sys2Proof.Machine.execRet a0 a1 s
  | .enter a0 => Sys2Proof.Machine.execEnter a0 s
  | .leave => Sys2Proof.Machine.execLeave s
  | .add a0 a1 a2 => Sys2Proof.Machine.execAdd a0 a1 a2 s
  | .sub a0 a1 a2 => Sys2Proof.Machine.execSub a0 a1 a2 s
  | .mul a0 a1 a2 => Sys2Proof.Machine.execMul a0 a1 a2 s
  | .div a0 a1 a2 => Sys2Proof.Machine.execDiv a0 a1 a2 s
  | .mod a0 a1 a2 => Sys2Proof.Machine.execMod a0 a1 a2 s
  | .udiv a0 a1 a2 => Sys2Proof.Machine.execUdiv a0 a1 a2 s
  | .umod a0 a1 a2 => Sys2Proof.Machine.execUmod a0 a1 a2 s
  | .and a0 a1 a2 => Sys2Proof.Machine.execAnd a0 a1 a2 s
  | .or a0 a1 a2 => Sys2Proof.Machine.execOr a0 a1 a2 s
  | .xor a0 a1 a2 => Sys2Proof.Machine.execXor a0 a1 a2 s
  | .shl a0 a1 a2 => Sys2Proof.Machine.execShl a0 a1 a2 s
  | .shr a0 a1 a2 => Sys2Proof.Machine.execShr a0 a1 a2 s
  | .sar a0 a1 a2 => Sys2Proof.Machine.execSar a0 a1 a2 s
  | .fadd a0 a1 a2 => Sys2Proof.Machine.execFadd a0 a1 a2 s
  | .fsub a0 a1 a2 => Sys2Proof.Machine.execFsub a0 a1 a2 s
  | .fmul a0 a1 a2 => Sys2Proof.Machine.execFmul a0 a1 a2 s
  | .fdiv a0 a1 a2 => Sys2Proof.Machine.execFdiv a0 a1 a2 s
  | .neg a0 a1 => Sys2Proof.Machine.execNeg a0 a1 s
  | .not a0 a1 => Sys2Proof.Machine.execNot a0 a1 s
  | .fneg a0 a1 => Sys2Proof.Machine.execFneg a0 a1 s
  | .fabs a0 a1 => Sys2Proof.Machine.execFabs a0 a1 s
  | .fsqrt a0 a1 => Sys2Proof.Machine.execFsqrt a0 a1 s
  | .fsin a0 a1 => Sys2Proof.Machine.execFsin a0 a1 s
  | .fcos a0 a1 => Sys2Proof.Machine.execFcos a0 a1 s
  | .itof a0 a1 => Sys2Proof.Machine.execItof a0 a1 s
  | .ftoi a0 a1 => Sys2Proof.Machine.execFtoi a0 a1 s
  | .inPort a0 a1 => Sys2Proof.Machine.execInPort a0 a1 s
  | .outPort a0 a1 => Sys2Proof.Machine.execOutPort a0 a1 s
  | .cmpI32 a0 a1 => Sys2Proof.Machine.execCmpI32 a0 a1 s
  | .cmpI16 a0 a1 => Sys2Proof.Machine.execCmpI16 a0 a1 s
  | .cmpI8 a0 a1 => Sys2Proof.Machine.execCmpI8 a0 a1 s
  | .cmpU32 a0 a1 => Sys2Proof.Machine.execCmpU32 a0 a1 s
  | .cmpU16 a0 a1 => Sys2Proof.Machine.execCmpU16 a0 a1 s
  | .cmpU8 a0 a1 => Sys2Proof.Machine.execCmpU8 a0 a1 s
  | .cmpF32 a0 a1 => Sys2Proof.Machine.execCmpF32 a0 a1 s
  | .mov a0 a1 => Sys2Proof.Machine.execMov a0 a1 s
  | .sect => Sys2Proof.Machine.execSect s

end Sys2Proof.Machine
end

