-- ==== Sys2Proof/Machine/Cycle.lean ====
section
/-! DEFINITION. The execution cycle: one `Step()` and the loop of `Tick(budget)` (spec/40_execution_cycle.md R65 to
R74). -/

namespace Sys2Proof.Machine

/-- What follows a successful fetch: the debug hook is asked, then the instruction is decoded and executed
(40_execution_cycle.md R67, R72). A rejected subtype raises its fault here, after the hook (60_exceptions.md R138). -/
def State.dispatch (s : State) (cells : List Cell) : Host.Outcome State Fault Refusal :=
  match decode cells with
  | .ok (i, _) => exec i s
  | .error r => .next (s.raise ⟨rejectFault r, s.pc⟩)

/-- `Step()`, called only of a Running core (40_execution_cycle.md R67). -/
def stepInstr (s : State) : Host.Outcome State Fault Refusal :=
  match s.fetch with
  | .error e => .next (s.raise e)
  | .ok cells =>
    match s.pauseAnswers with
    | true :: rest => .next { s with pauseAnswers := rest }.pause
    | false :: rest => { s with pauseAnswers := rest }.dispatch cells
    | [] => s.dispatch cells

/-- The loop of `Tick`: `remaining` ticks are left; every completed instruction costs at least one, so `fuel` equal
to the budget never runs out first (40_execution_cycle.md R66). -/
def tickLoop : Nat → Nat → State → Host.Outcome State Fault Refusal
  | 0, _, s => .next s
  | fuel + 1, remaining, s =>
    if remaining = 0 then .next s
    else
      match stepInstr s with
      | .next t =>
        match t.last with
        | some (.completed c) => tickLoop fuel (remaining - min c remaining) t
        | _ => .next t
      | .fault r => .fault r
      | .refused r => .refused r

/-- `Tick(budget)` (40_execution_cycle.md R66). -/
def tick (budget : Nat) (s : State) : Host.Outcome State Fault Refusal :=
  match s.run with
  | .halted => .next s
  | _ => if budget = 0 then .next s else tickLoop budget budget s.resume

end Sys2Proof.Machine
end

