-- ==== Sys2Proof/Machine/Step.lean ====
section
/-! DEFINITION. One step of the machine, and the state in which a given instruction is the next one fetched. -/

namespace Sys2Proof.Machine

/-- One step of the machine is one `Tick(1)` (40_execution_cycle.md R66; log entry 2): a Halted core does nothing, a
Waiting one retries, and exactly one instruction is started. -/
def step (s : State) : Host.Outcome State Fault Refusal :=
  match s.run with
  | .halted => .next s
  | _ => stepInstr s.resume

/-- `s` with an instruction's four cells stored at `x[IP]`, the core Running and the debug hook quiet, so that the
next step fetches and runs it. The backed space grows where the cells would not fit (log entry 20). -/
def State.withFetchWord (s : State) (nbits w : Nat) : State :=
  { s with
    run := .running
    pauseAnswers := []
    mem := s.mem.load s.pc (tableCells nbits w)
    params := { s.params with
      memSize := max s.params.memSize
        (max (s.pc.toNat + 1) (max ((s.pc + 1).toNat + 1) (max ((s.pc + 2).toNat + 1) ((s.pc + 3).toNat + 1)))) } }

end Sys2Proof.Machine
end

