-- ==== Sys2Proof/Safety.lean ====
section
/-! DEFINITION. The terms the statements are made in: the invariant of the machine, what an instruction's operands
are, what it leaves unchanged, what it costs, and what a correctly rounded float is. -/

namespace Sys2Proof.Machine

/-! ## The invariant -/

/-- The invariant every step keeps: the memory is in canonical form and lists only cells of the backed space
(20_memory.md R31), and the parameters are within their bounds (00_scope.md R3). -/
abbrev State.Inv (s : State) : Prop :=
  Memory.wf s.mem ∧ (∀ e ∈ s.mem, e.1 < s.params.memSize) ∧ s.params.wf

/-! ## Operands, as an instruction with `n` argument words sees them (30_encoding.md R55, R56) -/

/-- The destination operand `o` names the place `L`. -/
def State.locates (s : State) (n : Nat) (o : Operand) (L : Dest) : Prop :=
  dstLoc (s.fetched n) s.pc o = .ok L

/-- The source operand `o` is readable and holds `v`. -/
def State.reads (s : State) (n : Nat) (o : Operand) (v : Cell) : Prop :=
  ∃ L, srcLoc (s.fetched n) s.pc o = .ok L ∧ s.readLoc (s.fetched n) L = .ok v

/-- The Data Provider accepts a write to the address (20_memory.md R31). -/
def State.acceptsAt (s : State) (a : Cell) : Prop :=
  a.toNat < s.params.memSize ∧ Params.romAt s.params a.toNat ≠ some .fails

/-- A write to the place does not fail. -/
def State.accepts (s : State) : Dest → Prop
  | .reg _ => True
  | .mem ea => s.acceptsAt ea

/-! ## Frames -/

/-- The host's side and the parameters are as before: no event, no port transaction, no answer used. -/
def State.sameHost (s t : State) : Prop :=
  t.params = s.params ∧ t.events = s.events ∧ t.portHistory = s.portHistory ∧ t.readAnswers = s.readAnswers ∧
    t.writeAnswers = s.writeAnswers ∧ t.pauseAnswers = s.pauseAnswers ∧ t.recoveries = s.recoveries ∧
    t.drawn = s.drawn

/-- The instruction completed at cost `c`; nothing but registers and memory may differ. -/
def State.completes (s t : State) (c : Nat) : Prop :=
  t.run = s.run ∧ t.last = some (.completed c) ∧ s.sameHost t

/-- Every cell reads as before. -/
def State.keepsMemory (s t : State) : Prop :=
  ∀ a, t.getValue a = s.getValue a

/-- The cell at `addr` now reads `v` where it is RAM (read-only storage that discards the write keeps its cell);
every other cell reads as before (20_memory.md R31). -/
def State.stores (s t : State) (addr v : Cell) : Prop :=
  ∀ a, t.getValue a =
    if a = addr ∧ Params.romAt s.params addr.toNat = none then some v else s.getValue a

/-- Every register is as before but IP, which is past an instruction with `n` argument words, and those listed,
where a later entry wins. -/
def State.setsRegs (s t : State) (n : Nat) (ws : List (RegId × Cell)) : Prop :=
  ∀ r, t.regs.get r = ((s.fetched n).setAll ws).get r

/-- The place `L` now holds `v`, after the register writes `ws`; nothing else among registers and memory changed. -/
def State.writesTo (s t : State) (n : Nat) (ws : List (RegId × Cell)) (L : Dest) (v : Cell) : Prop :=
  match L with
  | .reg r => s.setsRegs t n (ws ++ [(r, v)]) ∧ s.keepsMemory t
  | .mem ea => s.setsRegs t n ws ∧ s.stores t ea v

/-- A fault was taken (60_exceptions.md R137): Halted, registers and memory as before, the event delivered if
there is a callback. It is what `State.raise` leaves with a host that does not recover. -/
def State.faults (s t : State) (k : FaultKind) (addr : Cell) : Prop :=
  t.regs = s.regs ∧ t.mem = s.mem ∧ t.run = .halted ∧ t.last = some (.faulted k addr) ∧
    t.events = (if s.params.errorCallback then s.events ++ [⟨k, addr⟩] else s.events) ∧
    t.params = s.params ∧ t.portHistory = s.portHistory ∧ t.readAnswers = s.readAnswers ∧
    t.writeAnswers = s.writeAnswers ∧ t.pauseAnswers = s.pauseAnswers ∧ t.recoveries = s.recoveries ∧
    t.drawn = s.drawn

/-! ## What an instruction does -/

/-- The instruction raises the fault and does nothing else. -/
def State.raises (s : State) (i : Instr) (k : FaultKind) (addr : Cell) : Prop :=
  exec i s = .next (s.raise ⟨k, addr⟩)

/-- The instruction, of `n` argument words, completes at cost `c`: the register writes `ws` and no other, memory as
before. -/
def State.setsOnly (s : State) (i : Instr) (n c : Nat) (ws : List (RegId × Cell)) : Prop :=
  ∃ t, exec i s = .next t ∧ s.completes t c ∧ s.setsRegs t n ws ∧ s.keepsMemory t

/-- The instruction, of `n` argument words, completes at cost `c`: the register writes `ws` and the cell `v` stored
at `addr`, nothing else; but where the provider refuses that cell it raises SegmentationFault there. -/
def State.setsAndStores (s : State) (i : Instr) (n c : Nat) (ws : List (RegId × Cell)) (addr v : Cell) : Prop :=
  (s.acceptsAt addr → ∃ t, exec i s = .next t ∧ s.completes t c ∧ s.setsRegs t n ws ∧ s.stores t addr v) ∧
    (¬ s.acceptsAt addr → s.raises i .segmentationFault addr)

/-- The instruction, of `n` argument words, completes at cost `c` with the register writes `ws` and then `v` in its
destination `L`, nothing else; but where the provider refuses the destination it raises SegmentationFault there. -/
def State.yields (s : State) (i : Instr) (n c : Nat) (ws : List (RegId × Cell)) (L : Dest) (v : Cell) : Prop :=
  (s.accepts L → ∃ t, exec i s = .next t ∧ s.completes t c ∧ s.writesTo t n ws L v) ∧
    ∀ ea, L = .mem ea → ¬ s.acceptsAt ea → s.raises i .segmentationFault ea

end Sys2Proof.Machine

namespace Sys2Proof

/-! ## Arguments and their roles -/

/-- The role of an argument (30_encoding.md R48). -/
inductive Role where
  | src | dst
deriving DecidableEq, Repr

/-- The arguments of an instruction with their roles, argument 0 first (30_encoding.md R48). -/
def Instr.args : Instr → List (Role × Operand)
  | .nop | .halt | .leave | .sect => []
  | .push a0 | .jmp a0 | .jmpcEq a0 | .jmpcNe a0 | .jmpcGt a0 | .jmpcLt a0 | .jmpcGe a0 | .jmpcLe a0 | .call a0
  | .enter a0 => [(.src, a0)]
  | .pop a0 => [(.dst, a0)]
  | .ret a0 a1 | .outPort a0 a1 | .cmpI32 a0 a1 | .cmpI16 a0 a1 | .cmpI8 a0 a1 | .cmpU32 a0 a1 | .cmpU16 a0 a1
  | .cmpU8 a0 a1 | .cmpF32 a0 a1 => [(.src, a0), (.src, a1)]
  | .neg a0 a1 | .not a0 a1 | .fneg a0 a1 | .fabs a0 a1 | .fsqrt a0 a1 | .fsin a0 a1 | .fcos a0 a1 | .itof a0 a1
  | .ftoi a0 a1 | .inPort a0 a1 | .mov a0 a1 => [(.dst, a0), (.src, a1)]
  | .add a0 a1 a2 | .sub a0 a1 a2 | .mul a0 a1 a2 | .div a0 a1 a2 | .mod a0 a1 a2 | .udiv a0 a1 a2
  | .umod a0 a1 a2 | .and a0 a1 a2 | .or a0 a1 a2 | .xor a0 a1 a2 | .shl a0 a1 a2 | .shr a0 a1 a2
  | .sar a0 a1 a2 | .fadd a0 a1 a2 | .fsub a0 a1 a2 | .fmul a0 a1 a2 | .fdiv a0 a1 a2 =>
    [(.dst, a0), (.src, a1), (.src, a2)]

/-- The registers other than IP that an instruction writes of itself (42_stack.md, 43_control_transfer.md,
47_cmp_mov.md R125). -/
def Instr.implicit : Instr → List RegId
  | .push _ | .pop _ | .call _ | .ret _ _ => [.sp]
  | .enter _ | .leave => [.sp, .fp]
  | .cmpI32 _ _ | .cmpI16 _ _ | .cmpI8 _ _ | .cmpU32 _ _ | .cmpU16 _ _ | .cmpU8 _ _ | .cmpF32 _ _ => [.flags]
  | .nop | .halt | .sect | .jmp _ | .jmpcEq _ | .jmpcNe _ | .jmpcGt _ | .jmpcLt _ | .jmpcGe _ | .jmpcLe _
  | .add _ _ _ | .sub _ _ _ | .mul _ _ _ | .div _ _ _ | .mod _ _ _ | .udiv _ _ _ | .umod _ _ _ | .and _ _ _
  | .or _ _ _ | .xor _ _ _ | .shl _ _ _ | .shr _ _ _ | .sar _ _ _ | .fadd _ _ _ | .fsub _ _ _ | .fmul _ _ _
  | .fdiv _ _ _ | .neg _ _ | .not _ _ | .fneg _ _ | .fabs _ _ | .fsqrt _ _ | .fsin _ _ | .fcos _ _ | .itof _ _
  | .ftoi _ _ | .inPort _ _ | .outPort _ _ | .mov _ _ => []

/-- The instructions that store a cell at SP (42_stack.md R78, 43_control_transfer.md R88, R90). -/
def Instr.storesAtSp : Instr → Bool
  | .push _ | .call _ | .enter _ => true
  | .nop | .halt | .sect | .pop _ | .ret _ _ | .leave | .jmp _ | .jmpcEq _ | .jmpcNe _ | .jmpcGt _ | .jmpcLt _
  | .jmpcGe _ | .jmpcLe _ | .add _ _ _ | .sub _ _ _ | .mul _ _ _ | .div _ _ _ | .mod _ _ _ | .udiv _ _ _
  | .umod _ _ _ | .and _ _ _ | .or _ _ _ | .xor _ _ _ | .shl _ _ _ | .shr _ _ _ | .sar _ _ _ | .fadd _ _ _
  | .fsub _ _ _ | .fmul _ _ _ | .fdiv _ _ _ | .neg _ _ | .not _ _ | .fneg _ _ | .fabs _ _ | .fsqrt _ _
  | .fsin _ _ | .fcos _ _ | .itof _ _ | .ftoi _ _ | .inPort _ _ | .outPort _ _ | .cmpI32 _ _ | .cmpI16 _ _
  | .cmpI8 _ _ | .cmpU32 _ _ | .cmpU16 _ _ | .cmpU8 _ _ | .cmpF32 _ _ | .mov _ _ => false

/-- The instructions that can raise a fault kind of their own (60_exceptions.md R135, column "raised by"); for the
kinds of the operands, of fetch and of decode, every instruction. -/
def Instr.mayRaise (i : Instr) (k : Machine.FaultKind) : Prop :=
  match k with
  | .illegalInstruction => False
  | .segmentationFault => i ≠ .nop ∧ i ≠ .halt ∧ i ≠ .sect
  | .stackOverflow => i.storesAtSp = true
  | .stackUnderflow => i = .leave ∨ (∃ a0, i = .pop a0) ∨ ∃ a0 a1, i = .ret a0 a1
  | .divisionByZero =>
    ∃ a0 a1 a2, i = .div a0 a1 a2 ∨ i = .mod a0 a1 a2 ∨ i = .udiv a0 a1 a2 ∨ i = .umod a0 a1 a2
  | .invalidType | .illegalRegister => i.args ≠ []
  | .invalidPort => ∃ a0 a1, i = .inPort a0 a1 ∨ i = .outPort a0 a1
  | .sectionBoundary => i = .sect

/-! ## Costs -/

/-- The tick cost of an instruction (70_reset_and_hazards.md R154); that of SECT is never charged. -/
def Instr.cost (p : Params) : Instr → Nat
  | .mul _ _ _ | .fmul _ _ _ => p.costMul
  | .div _ _ _ | .mod _ _ _ | .udiv _ _ _ | .umod _ _ _ | .fdiv _ _ _ => p.costDiv
  | .fsqrt _ _ | .fsin _ _ | .fcos _ _ => p.costTrans
  | .sect => 0
  | .nop | .halt | .push _ | .pop _ | .jmp _ | .jmpcEq _ | .jmpcNe _ | .jmpcGt _ | .jmpcLt _ | .jmpcGe _
  | .jmpcLe _ | .call _ | .ret _ _ | .enter _ | .leave | .add _ _ _ | .sub _ _ _ | .and _ _ _ | .or _ _ _
  | .xor _ _ _ | .shl _ _ _ | .shr _ _ _ | .sar _ _ _ | .fadd _ _ _ | .fsub _ _ _ | .neg _ _ | .not _ _
  | .fneg _ _ | .fabs _ _ | .itof _ _ | .ftoi _ _ | .inPort _ _ | .outPort _ _ | .cmpI32 _ _ | .cmpI16 _ _
  | .cmpI8 _ _ | .cmpU32 _ _ | .cmpU16 _ _ | .cmpU8 _ _ | .cmpF32 _ _ | .mov _ _ => 1

end Sys2Proof

namespace Sys2Proof.Machine

/-! ## Arguments in a state -/

/-- In both roles the operand names the memory cell `ea`. -/
def namesCell (x : Regs) (pc : Cell) (o : Operand) (ea : Cell) : Prop :=
  srcLoc x pc o = .ok (.mem ea) ∧ dstLoc x pc o = .ok (.mem ea)

/-- In both roles the operand is refused with the fault kind `k` at the instruction's own address. -/
def refusedWith (x : Regs) (pc : Cell) (o : Operand) (k : FaultKind) : Prop :=
  srcLoc x pc o = .error ⟨k, pc⟩ ∧ dstLoc x pc o = .error ⟨k, pc⟩

/-- The argument fails its location checks with the fault `e` (30_encoding.md R55). -/
def State.badArg (s : State) (n : Nat) (a : Role × Operand) (e : ErrorEvent) : Prop :=
  match a.1 with
  | .src => srcLoc (s.fetched n) s.pc a.2 = .error e
  | .dst => dstLoc (s.fetched n) s.pc a.2 = .error e

/-- The instruction's destination is the register `r`. -/
def State.targets (s : State) (i : Instr) (r : RegId) : Prop :=
  ∃ o, (Role.dst, o) ∈ i.args ∧ s.locates i.args.length o (.reg r)

/-- The instruction stores to the address `a`: its slot at SP, or its destination in memory. -/
def State.storesTo (s : State) (i : Instr) (a : Cell) : Prop :=
  (i.storesAtSp = true ∧ a = s.regs.sp) ∨ ∃ o, (Role.dst, o) ∈ i.args ∧ s.locates i.args.length o (.mem a)

/-! ## The rules an instruction follows -/

/-- The faults of the operands, the same for every instruction (40_execution_cycle.md R71 phases 3 and 4,
60_exceptions.md R138 6 and 7): the first argument that fails its location checks is the fault, whatever the
arguments after it; with every argument located, the first source whose cell cannot be read is the fault, before the
instruction's own checks. -/
def OperandFaults (i : Instr) : Prop :=
  ∀ s : State,
    (∀ (before after : List (Role × Operand)) (a : Role × Operand) (e : ErrorEvent),
      i.args = before ++ a :: after →
      (∀ b ∈ before, ∀ e', ¬ s.badArg i.args.length b e') →
      s.badArg i.args.length a e →
      exec i s = .next (s.raise e)) ∧
    ∀ (before after : List (Role × Operand)) (o : Operand) (ea : Cell),
      i.args = before ++ (.src, o) :: after →
      (∀ b ∈ i.args, ∀ e, ¬ s.badArg i.args.length b e) →
      (∀ b ∈ before, b.1 = .src → ∃ v, s.reads i.args.length b.2 v) →
      srcLoc (s.fetched i.args.length) s.pc o = .ok (.mem ea) → s.getValue ea = none →
      exec i s = .next (s.raise ⟨.segmentationFault, ea⟩)

/-- `i` is the BINOP of subtype `sub` and cost `c` whose result `r` of sources `p`, `q` is what `f` says
(44_binary_ops.md R93). -/
def BinaryRule (i : Operand → Operand → Operand → Instr) (sub : Byte) (c : Params → Nat)
    (f : Cell → Cell → Cell → Prop) : Prop :=
  (∀ a0 a1 a2, encode (i a0 a1 a2) = instrCells 0x0A sub [a0, a1, a2] ∧ OperandFaults (i a0 a1 a2)) ∧
    ∀ (s : State) (a0 a1 a2 : Operand) (L : Dest) (p q : Cell),
      s.locates 3 a0 L → s.reads 3 a1 p → s.reads 3 a2 q →
        ∃ r, f p q r ∧ s.yields (i a0 a1 a2) 3 (c s.params) [] L r

/-- As `BinaryRule`, for the operations that raise DivisionByZero where the second source is zero. -/
def DivisionRule (i : Operand → Operand → Operand → Instr) (sub : Byte) (f : Cell → Cell → Cell → Prop) : Prop :=
  (∀ a0 a1 a2, encode (i a0 a1 a2) = instrCells 0x0A sub [a0, a1, a2] ∧ OperandFaults (i a0 a1 a2)) ∧
    ∀ (s : State) (a0 a1 a2 : Operand) (L : Dest) (p q : Cell),
      s.locates 3 a0 L → s.reads 3 a1 p → s.reads 3 a2 q →
        (q = 0 → s.raises (i a0 a1 a2) .divisionByZero s.pc) ∧
          (q ≠ 0 → ∃ r, f p q r ∧ s.yields (i a0 a1 a2) 3 s.params.costDiv [] L r)

/-- `i` is the UNOP of subtype `sub` and cost `c` whose result `r` of the source `p` is what `f` says
(45_unary_ops.md R113). -/
def UnaryRule (i : Operand → Operand → Instr) (sub : Byte) (c : Params → Nat) (f : Cell → Cell → Prop) : Prop :=
  (∀ a0 a1, encode (i a0 a1) = instrCells 0x0B sub [a0, a1] ∧ OperandFaults (i a0 a1)) ∧
    ∀ (s : State) (a0 a1 : Operand) (L : Dest) (p : Cell),
      s.locates 2 a0 L → s.reads 2 a1 p → ∃ r, f p r ∧ s.yields (i a0 a1) 2 (c s.params) [] L r

/-- `i` is the CMP of subtype `sub` that finds its operands equal where `eq` holds and the first greater where `gt`
does: FLAGS becomes `E + 2 G`, nothing else changes (47_cmp_mov.md R125). -/
def CompareRule (i : Operand → Operand → Instr) (sub : Byte) (eq gt : Cell → Cell → Prop) : Prop :=
  (∀ a0 a1, encode (i a0 a1) = instrCells 0x0E sub [a0, a1] ∧ OperandFaults (i a0 a1)) ∧
    ∀ (s : State) (a0 a1 : Operand) (p q : Cell), s.reads 2 a0 p → s.reads 2 a1 q →
      (eq p q → s.setsOnly (i a0 a1) 2 1 [(.flags, 1)]) ∧
        (gt p q → s.setsOnly (i a0 a1) 2 1 [(.flags, 2)]) ∧
          (¬ eq p q → ¬ gt p q → s.setsOnly (i a0 a1) 2 1 [(.flags, 0)])

/-- `i` is the JMPC of subtype `sub` that jumps where `cond E G` holds of the two flags (43_control_transfer.md
R81); it is also what reads its target whether or not it jumps. -/
def JumpRule (i : Operand → Instr) (sub : Byte) (cond : Bool → Bool → Prop) : Prop :=
  (∀ a0, encode (i a0) = instrCells 0x05 sub [a0] ∧ OperandFaults (i a0)) ∧
    ∀ (s : State) (a0 : Operand) (target : Cell), s.reads 1 a0 target →
      (cond (s.regs.flags.getLsbD 0) (s.regs.flags.getLsbD 1) → s.setsOnly (i a0) 1 1 [(.ip, target)]) ∧
        (¬ cond (s.regs.flags.getLsbD 0) (s.regs.flags.getLsbD 1) → s.setsOnly (i a0) 1 1 [])

/-! ## Rounding -/

/-- `r` is the float whose magnitude is nearest to `x` units of `2^-149`, ties to the even encoding; from halfway
between the greatest finite float and `2^128` on it is an infinity (44_binary_ops.md R95,
93_implementation_defined.md G2). -/
def nearestFloat (x : ℝ) (r : Cell) : Prop :=
  ((2 ^ 25 - 1) * 2 ^ 252 ≤ x → isInf r = true) ∧
    (x < (2 ^ 25 - 1) * 2 ^ 252 →
      expField r ≠ 255 ∧
        ∀ c : Cell, expField c ≠ 255 →
          |(floatMag r : ℝ) - x| ≤ |(floatMag c : ℝ) - x| ∧
            (|(floatMag r : ℝ) - x| = |(floatMag c : ℝ) - x| → floatMag c ≠ floatMag r → r.getLsbD 0 = false))

/-- A float that is neither an infinity nor a NaN. -/
abbrev isFinite (v : Cell) : Prop := expField v ≠ 255

/-- `r` is the IEEE-754 sum of `p` and `q` (44_binary_ops.md R95, R109). -/
def isFloatSum (p q r : Cell) : Prop :=
  (isNaN p ∨ isNaN q → isNaN r) ∧
    (isInf p → isInf q → signBit p ≠ signBit q → isNaN r) ∧
    (isInf p → isInf q → signBit p = signBit q → r = p) ∧
    (isInf p → isFinite q → r = p) ∧
    (isFinite p → isInf q → r = q) ∧
    (isFinite p → isFinite q → floatUnits p + floatUnits q = 0 →
      r = if signBit p ∧ signBit q then 0x80000000 else 0) ∧
    (isFinite p → isFinite q → floatUnits p + floatUnits q ≠ 0 →
      (signBit r ↔ floatUnits p + floatUnits q < 0) ∧
        nearestFloat |((floatUnits p + floatUnits q : ℤ) : ℝ)| r)

/-- `r` is the IEEE-754 product of `p` and `q` (44_binary_ops.md R95, R111). -/
def isFloatProduct (p q r : Cell) : Prop :=
  (isNaN p ∨ isNaN q → isNaN r) ∧
    ((isInf p ∧ isFinite q ∧ floatMag q = 0) ∨ (isInf q ∧ isFinite p ∧ floatMag p = 0) → isNaN r) ∧
    ((isInf p ∧ ¬ isNaN q ∧ floatMag q ≠ 0) ∨ (isInf q ∧ ¬ isNaN p ∧ floatMag p ≠ 0) →
      isInf r ∧ signBit r = (signBit p != signBit q)) ∧
    (isFinite p → isFinite q →
      signBit r = (signBit p != signBit q) ∧ nearestFloat ((floatMag p : ℝ) * floatMag q / 2 ^ 149) r)

/-- `r` is the IEEE-754 quotient of `p` by `q` (44_binary_ops.md R95, R112). -/
def isFloatQuotient (p q r : Cell) : Prop :=
  (isNaN p ∨ isNaN q → isNaN r) ∧
    (isInf p → isInf q → isNaN r) ∧
    (isFinite p → isFinite q → floatMag p = 0 → floatMag q = 0 → isNaN r) ∧
    ((isInf p ∧ isFinite q) ∨ (isFinite p ∧ floatMag p ≠ 0 ∧ isFinite q ∧ floatMag q = 0) →
      isInf r ∧ signBit r = (signBit p != signBit q)) ∧
    (isFinite p → isInf q → floatMag r = 0 ∧ signBit r = (signBit p != signBit q)) ∧
    (isFinite p → isFinite q → floatMag q ≠ 0 →
      signBit r = (signBit p != signBit q) ∧ nearestFloat ((floatMag p : ℝ) * 2 ^ 149 / floatMag q) r)

/-- `r` is the IEEE-754 square root of `p` (45_unary_ops.md R118). -/
def isFloatRoot (p r : Cell) : Prop :=
  (isNaN p → isNaN r) ∧
    (floatMag p = 0 → r = p) ∧
    (¬ isNaN p → floatMag p ≠ 0 → signBit p → isNaN r) ∧
    (isInf p → ¬ signBit p → r = p) ∧
    (isFinite p → floatMag p ≠ 0 → ¬ signBit p →
      ¬ signBit r ∧ nearestFloat (Real.sqrt (floatMag p * 2 ^ 149)) r)

/-- `r` is the float nearest to the signed integer `p` (45_unary_ops.md R121). -/
def isFloatOfInt (p r : Cell) : Prop :=
  (p = 0 → r = 0) ∧ (signBit r ↔ p.toInt < 0) ∧ nearestFloat (|(p.toInt : ℝ)| * 2 ^ 149) r

/-- `r` is the float `p` truncated to a signed integer, saturating (45_unary_ops.md R122). -/
def isIntOfFloat (p r : Cell) : Prop :=
  (isNaN p → r = 0) ∧
    (¬ isNaN p → 2 ^ 31 * 2 ^ 149 ≤ floatUnits p → r = 0x7FFFFFFF) ∧
    (¬ isNaN p → floatUnits p ≤ -(2 ^ 31 * 2 ^ 149) → r = 0x80000000) ∧
    (¬ isNaN p → -(2 ^ 31 * 2 ^ 149) < floatUnits p → floatUnits p < 2 ^ 31 * 2 ^ 149 →
      r.toInt = (floatUnits p).tdiv (2 ^ 149))

/-- `r` is a finite float with `|f(r)| ≤ 1` (45_unary_ops.md R119, R120). -/
def withinOne (r : Cell) : Prop := isFinite r ∧ floatMag r ≤ 2 ^ 149

end Sys2Proof.Machine
end

