-- ==== Sys2Proof/Certificates/Slice0/Obligations.lean ====
section
/-! DEFINITION. The statements for the provers, from the numbered rules of spec/. -/

section Statements

open Sys2Proof Sys2Proof.Machine

/-! ## Encoding and decoding (spec/30_encoding.md) -/

/-- Decode and encode agree, for every instruction with every operand at every value (30_encoding.md R45 to R53,
R57, R63). -/
def Obligations.DecodeOfEncodeIsIdentity : Prop :=
  ∀ (i : Instr) (rest : List Cell), decode (encode i ++ rest) = .ok (i, rest)

/-- 30_encoding.md R59: the unused byte, `m3`, the tags of absent arguments, the subtype byte of the opcodes without
one, and bits 31:8 of a register argument decide nothing. -/
def Obligations.IgnoredBitsDecideNothing : Prop :=
  ∀ (w w' : Cell) (as as' : List Cell) (n : Nat),
    opField w' = opField w → argc (opField w) = some n → as.length = n → as'.length = n →
    (opField w ∈ ([0x05, 0x0A, 0x0B, 0x0E] : List Byte) → subField w' = subField w) →
    (∀ k < n, tagField w' k = tagField w k) →
    (∀ k < n, if tagField w k = 1 then aregField (as'.getD k 0) = aregField (as.getD k 0)
      else as'.getD k 0 = as.getD k 0) →
    decode (w' :: as') = decode (w :: as)

/-- 30_encoding.md R49, R57, R58 a and c: with its argument words present, exactly the cells with `op > 0x10` are
rejected as illegal opcodes and exactly those with a subtype outside its opcode's space as invalid subtypes. -/
def Obligations.DecodeRejectsExactlyTheIllegal : Prop :=
  (∀ (w : Cell) (as : List Cell),
    decode (w :: as) = .error .illegalOpcode ↔ 0x10 < (opField w).toNat) ∧
  ∀ (w : Cell) (as : List Cell), 3 ≤ as.length →
    (decode (w :: as) = .error .invalidSubtype ↔
      (opField w = 0x05 ∧ 0x05 < (subField w).toNat) ∨ (opField w = 0x0A ∧ 0x10 < (subField w).toNat) ∨
        (opField w = 0x0B ∧ 0x08 < (subField w).toNat) ∨
        (opField w = 0x0E ∧ (subField w).toNat ∉ [0x00, 0x01, 0x02, 0x04, 0x05, 0x06, 0x08])) ∧
    decode (w :: as) ≠ .error .truncated

/-- The other direction of the round trip (30_encoding.md R45, R46, R59): the encoding of a decoded instruction has
the length its opcode announces and agrees with the cells it was decoded from in every bit that is read; the ignored
subtype byte is 0. -/
def Obligations.ReencodingKeepsEveryReadBit : Prop :=
  ∀ (w : Cell) (as rest : List Cell) (i : Instr), decode (w :: as) = .ok (i, rest) →
    ∃ w' as', encode i = w' :: as' ∧ opField w' = opField w ∧ argc (opField w) = some as'.length ∧
      as'.length ≤ 3 ∧ as = as.take as'.length ++ rest ∧
      (∀ k < as'.length, tagField w' k = tagField w k ∧
        operandOf (tagField w k) (as'.getD k 0) = operandOf (tagField w k) (as.getD k 0)) ∧
      subField w' = if opField w ∈ ([0x05, 0x0A, 0x0B, 0x0E] : List Byte) then subField w else 0

/-- Sanity: words the spec writes out in its examples decode to the instructions they stand for (42_stack.md R79,
43_control_transfer.md R83, R91, 44_binary_ops.md R99, 45_unary_ops.md R118, 46_io.md R124, 47_cmp_mov.md R132,
R133). -/
def Obligations.SpecWordsDecode : Prop :=
  decode [0x00000103, 0x00000001] = .ok (.pop (.reg 1), []) ∧
  decode [0x00010005, 0x00000030] = .ok (.jmpcNe (.imm 0x30), []) ∧
  decode [0x00000007, 0, 2] = .ok (.ret (.imm 0) (.imm 2), []) ∧
  decode [0x0003150A, 0, 1, 2] = .ok (.div (.reg 0) (.reg 1) (.reg 2), []) ∧
  decode [0x0004050B, 0, 1] = .ok (.fsqrt (.reg 0) (.reg 1), []) ∧
  decode [0x0000040D, 0, 0] = .ok (.outPort (.imm 0) (.reg 0), []) ∧
  decode [0x0008050E, 0, 1] = .ok (.cmpF32 (.reg 0) (.reg 1), []) ∧
  decode [0x0000070F, 0xFFFD0006, 2] = .ok (.mov (.ind 6 0 0xFFFD) (.reg 2), [])

/-! ## The execution cycle (spec/40_execution_cycle.md) -/

/-- 40_execution_cycle.md R67: when the cells at IP can be read and decode to an instruction, and the debug hook does
not pause, the step of a core that is not Halted is `exec` of that instruction; before it, the core is Running and
one answer of the hook is used up. -/
def Obligations.StepRunsTheDecodedInstruction : Prop :=
  ∀ (s : State) (w : Cell) (as : List Cell) (i : Instr),
    s.run ≠ .halted → s.pauseAnswers.head? ≠ some true →
    s.getValue s.pc = some w →
    (∀ k < as.length, s.getValue (s.pc + 1 + BitVec.ofNat 32 k) = as[k]?) →
    decode (w :: as) = .ok (i, []) →
    step s = exec i { s with run := .running, pauseAnswers := s.pauseAnswers.tail }

/-- 20_memory.md R43, 40_execution_cycle.md R67: an instruction placed at IP is the one the very next step fetches and
runs. The placing is the model's, for a host that writes its memory between two Ticks (log entry 20). -/
def Obligations.PlacedInstructionRunsNext : Prop :=
  ∀ (s : State) (nbits w : Nat) (i : Instr), decodeTableWord nbits w = some i →
    step (s.withFetchWord nbits w) = exec i (s.withFetchWord nbits w) ∧
      (s.withFetchWord nbits w).regs = s.regs ∧
      ∀ a : Cell, (∀ k < 4, a ≠ s.pc + BitVec.ofNat 32 k) → a.toNat < s.params.memSize →
        (s.withFetchWord nbits w).getValue a = s.getValue a

/-- 30_encoding.md R63, R58 a and c, 60_exceptions.md R138 (1 to 3 and 5): the faults of fetch and decode, the
highest first; those of fetch are raised without asking the debug hook. -/
def Obligations.FetchAndDecodeFaultsInOrder : Prop :=
  ∀ (s : State), s.run ≠ .halted →
    (s.getValue s.pc = none → step s = .next (s.raise ⟨.segmentationFault, s.pc⟩)) ∧
    (∀ w, s.getValue s.pc = some w → 0x10 < (opField w).toNat →
      step s = .next (s.raise ⟨.illegalInstruction, s.pc⟩)) ∧
    (∀ w n k, s.getValue s.pc = some w → argc (opField w) = some n → k < n →
      (∀ j < k, s.getValue (s.pc + 1 + BitVec.ofNat 32 j) ≠ none) →
      s.getValue (s.pc + 1 + BitVec.ofNat 32 k) = none →
      step s = .next (s.raise ⟨.segmentationFault, s.pc + 1 + BitVec.ofNat 32 k⟩)) ∧
    (∀ w as, s.getValue s.pc = some w → argc (opField w) = some as.length →
      (∀ k < as.length, s.getValue (s.pc + 1 + BitVec.ofNat 32 k) = as[k]?) →
      decode (w :: as) = .error .invalidSubtype → s.pauseAnswers.head? ≠ some true →
      step s = .next ({ s with pauseAnswers := s.pauseAnswers.tail }.raise ⟨.invalidType, s.pc⟩))

/-- 40_execution_cycle.md R72: where the instruction was fetched and the host's predicate answers true, the core only
becomes Waiting. -/
def Obligations.PausedStepOnlyWaits : Prop :=
  ∀ (s : State) (w : Cell) (as : List Cell),
    s.run ≠ .halted → s.getValue s.pc = some w → argc (opField w) = some as.length →
    (∀ k < as.length, s.getValue (s.pc + 1 + BitVec.ofNat 32 k) = as[k]?) →
    s.pauseAnswers.head? = some true →
    step s = .next { s with run := .waiting, last := some .paused, pauseAnswers := s.pauseAnswers.tail }

/-- 40_execution_cycle.md R66: `Tick(budget)` in terms of steps. Nothing happens to a Halted core or with no budget;
otherwise one instruction runs, a completed one is charged at most what remains and the loop goes on while ticks
remain, and every other outcome ends the `Tick`. -/
def Obligations.TickChargesUntilItEnds : Prop :=
  ∀ (s : State) (budget : Nat),
    (s.run = .halted → tick budget s = .next s) ∧
    tick 0 s = .next s ∧
    (s.params.wf → s.run ≠ .halted → 0 < budget → ∀ t, step s = .next t →
      (∀ c, t.last = some (.completed c) →
        tick budget s = if c < budget then tick (budget - c) t else .next t) ∧
      ((∀ c, t.last ≠ some (.completed c)) → tick budget s = .next t))

/-- 70_reset_and_hazards.md R156: instructions, steps and `Tick` are total; none of them stops on a fault or a
refusal of the model. -/
def Obligations.EveryStepAnswersNext : Prop :=
  (∀ (i : Instr) (s : State), ∃ t, exec i s = .next t) ∧
  (∀ s : State, ∃ t, step s = .next t) ∧
  ∀ (budget : Nat) (s : State), ∃ t, tick budget s = .next t

/-- 40_execution_cycle.md R73: a step of a core that is not Halted has one of the five outcomes, with the run state
and, but for a completed one, the registers of the table. The fault line is that of a host whose `Recover` does
nothing. -/
def Obligations.StepHasOneOfFiveOutcomes : Prop :=
  ∀ (s t : State), s.run ≠ .halted → step s = .next t →
    match t.last with
    | some (.completed _) => t.run = .running
    | some (.haltedByInstruction _) => t.run = .halted ∧ s.setsRegs t 0 []
    | some .waited => t.run = .waiting ∧ t.regs = s.regs
    | some .paused => t.run = .waiting ∧ t.regs = s.regs
    | some (.faulted _ _) => s.recoveries = [] → t.run = .halted ∧ t.regs = s.regs
    | none => False

/-- 70_reset_and_hazards.md R153: `k` waited or paused steps leave registers, memory and port history as they were
and the core Waiting; and the step after them, with whatever the host then answers, is the one that would have been
made without them. -/
def Obligations.WaitsLeaveNoTraceAndRetryAlike : Prop :=
  ∀ (u : Nat → State) (k : Nat), (u 0).run ≠ .halted →
    (∀ j < k, step (u j) = .next (u (j + 1)) ∧
      ((u (j + 1)).last = some .waited ∨ (u (j + 1)).last = some .paused)) →
    (0 < k → (u k).run = .waiting) ∧ (u k).regs = (u 0).regs ∧ (u k).mem = (u 0).mem ∧
      (u k).portHistory = (u 0).portHistory ∧ (u k).events = (u 0).events ∧
      ∀ ra wa pa d,
        step { u k with readAnswers := ra, writeAnswers := wa, pauseAnswers := pa, drawn := d } =
          step { u 0 with readAnswers := ra, writeAnswers := wa, pauseAnswers := pa, drawn := d }

/-! ## Invariants -/

/-- Every step keeps the invariant: memory in canonical form, inside the backed space, parameters within their bounds
(20_memory.md R31, 00_scope.md R3). The canonical form is the model's (log entries 3, 4). -/
def Obligations.EveryStepKeepsInv : Prop :=
  ∀ (s t : State), s.Inv → step s = .next t → t.Inv

/-- The reset state has the invariant; its parameters are the model's choice (log entry 5). -/
def Obligations.ResetStateHasInv : Prop := State.reset.Inv

/-- 60_exceptions.md R137, 20_memory.md R38, 00_scope.md R3: a step changes no parameter, delivers at most one error
event, which is that of the fault it ends with, and makes at most one port transfer. -/
def Obligations.HistoriesGrowByAtMostOne : Prop :=
  ∀ (s t : State), step s = .next t →
    t.params = s.params ∧
    (t.events = s.events ∨ ∃ e, t.events = s.events ++ [e] ∧ t.last = some (.faulted e.kind e.addr)) ∧
    (t.portHistory = s.portHistory ∨ ∃ e, t.portHistory = s.portHistory ++ [e])

/-! ## Faults (spec/60_exceptions.md) -/

/-- 60_exceptions.md R137, R139: what taking a fault does, for every host: without a callback, and with a callback
that recovers nothing, the core is Halted with registers and memory as before; a callback's `Recover` may write
registers and memory and set the core Running. -/
def Obligations.TakingAFaultHaltsAndTellsTheHost : Prop :=
  ∀ (s : State) (e : ErrorEvent),
    (s.params.errorCallback = false → s.faults (s.raise e) e.kind e.addr) ∧
    (s.params.errorCallback = true → s.recoveries = [] → s.faults (s.raise e) e.kind e.addr) ∧
    (∀ r rest, s.params.errorCallback = true → s.recoveries = r :: rest →
      s.raise e =
        { s with
          regs := s.regs.setAll r.regs
          mem := s.pokeAll r.cells
          run := if r.resume then .running else .halted
          events := s.events ++ [e]
          recoveries := rest
          last := some (.faulted e.kind e.addr) })

/-- 60_exceptions.md R134: faults are precise. Registers and memory are those before the step, the core is Halted,
the event was delivered once, and no port transfer was made but by an IN whose memory destination was refused
(46_io.md R123). For a host whose `Recover` does nothing. -/
def Obligations.FaultsArePrecise : Prop :=
  ∀ (s t : State) (k : FaultKind) (a : Cell),
    s.run ≠ .halted → s.recoveries = [] → step s = .next t → t.last = some (.faulted k a) →
    t.regs = s.regs ∧ t.mem = s.mem ∧ t.run = .halted ∧
    t.events = (if s.params.errorCallback then s.events ++ [⟨k, a⟩] else s.events) ∧
    (t.portHistory = s.portHistory ∨
      ∃ cells a0 a1 p v, s.fetch = .ok cells ∧ decode cells = .ok (.inPort a0 a1, []) ∧
        s.locates 2 a0 (.mem a) ∧ k = .segmentationFault ∧ t.portHistory = s.portHistory ++ [PortEvent.input p v])

/-- 60_exceptions.md R136: the fault address is the cell the provider refuses, for a segmentation fault, and the
address of the faulting instruction for every other kind. -/
def Obligations.FaultAddressIsRefusedCellOrPc : Prop :=
  ∀ (s t : State) (k : FaultKind) (a : Cell),
    s.run ≠ .halted → step s = .next t → t.last = some (.faulted k a) →
    (k = .segmentationFault → ¬ s.acceptsAt a) ∧ (k ≠ .segmentationFault → a = s.pc)

/-- 60_exceptions.md R135, columns "code" and "raised by": the nine codes, and which instructions can raise which
kind while they execute. -/
def Obligations.FaultKindsByInstruction : Prop :=
  ([FaultKind.illegalInstruction, .segmentationFault, .stackOverflow, .stackUnderflow, .divisionByZero,
    .invalidType, .invalidPort, .illegalRegister, .sectionBoundary].map FaultKind.code =
    [1, 2, 3, 4, 5, 6, 7, 8, 9]) ∧
  ∀ (i : Instr) (s t : State) (k : FaultKind) (a : Cell),
    exec i s = .next t → t.last = some (.faulted k a) → i.mayRaise k

/-- 40_execution_cycle.md R71 phases 3 and 4, 60_exceptions.md R138 (6, 7): of every instruction, the first operand
fault is the one reported. -/
def Obligations.FirstOperandFaultIsReported : Prop := ∀ i : Instr, OperandFaults i

/-! ## Registers, operands, memory, reset -/

/-- 10_state.md R11, R20: the twelve registers have the numbers 0 to 11 in the spec's order, no other number names
one, and each is a cell of its own that reads back what was written. -/
def Obligations.RegisterFileHasTwelveCells : Prop :=
  (∀ k < 12, regOf (BitVec.ofNat 8 k) =
    ([.r0, .r1, .r2, .r3, .ip, .sp, .fp, .sb, .ss, .src, .dst, .flags] : List RegId)[k]?) ∧
  (∀ b : Byte, 12 ≤ b.toNat → regOf b = none) ∧
  ∀ (x : Regs) (r r' : RegId) (v : Cell), (x.set r v).get r' = if r' = r then v else x.get r'

/-- 30_encoding.md R55, with R50 to R54: the location of an argument with word `A` under each tag, as source and as
destination, with its checks in their order; the address arithmetic is that of unbounded numbers, wrapped once. -/
def Obligations.OperandLocationsAndChecks : Prop :=
  ∀ (x : Regs) (pc A : Cell),
    (srcLoc x pc (operandOf 0 A) = .ok (.imm A) ∧ dstLoc x pc (operandOf 0 A) = .error ⟨.invalidType, pc⟩) ∧
    (12 ≤ A.toNat % 2 ^ 8 → refusedWith x pc (operandOf 1 A) .illegalRegister) ∧
    (∀ r, regOf (BitVec.ofNat 8 A.toNat) = some r →
      srcLoc x pc (operandOf 1 A) = .ok (.reg r) ∧ dstLoc x pc (operandOf 1 A) = .ok (.reg r)) ∧
    (A.toNat % 2 ^ 8 ≠ 0xFF → 12 ≤ A.toNat % 2 ^ 8 → refusedWith x pc (operandOf 2 A) .illegalRegister) ∧
    (A.toNat % 2 ^ 8 = 0xFF ∨ A.toNat % 2 ^ 8 < 12 → 31 < A.toNat / 2 ^ 8 % 2 ^ 8 →
      refusedWith x pc (operandOf 2 A) .invalidType) ∧
    (A.toNat % 2 ^ 8 = 0xFF → A.toNat / 2 ^ 8 % 2 ^ 8 ≤ 31 →
      namesCell x pc (operandOf 2 A) (BitVec.ofNat 32 (A.toNat / 2 ^ 16))) ∧
    (∀ r, regOf (BitVec.ofNat 8 A.toNat) = some r → A.toNat / 2 ^ 8 % 2 ^ 8 ≤ 31 →
      namesCell x pc (operandOf 2 A)
        (BitVec.ofNat 32 ((x.get r).toNat * 2 ^ (A.toNat / 2 ^ 8 % 2 ^ 8) + A.toNat / 2 ^ 16))) ∧
    (12 ≤ A.toNat % 2 ^ 8 → refusedWith x pc (operandOf 3 A) .illegalRegister) ∧
    (A.toNat % 2 ^ 8 < 12 → 31 < A.toNat / 2 ^ 8 % 2 ^ 8 → refusedWith x pc (operandOf 3 A) .invalidType) ∧
    (∀ r, regOf (BitVec.ofNat 8 A.toNat) = some r → A.toNat / 2 ^ 8 % 2 ^ 8 ≤ 31 →
      namesCell x pc (operandOf 3 A)
        (BitVec.ofInt 32 ((x.get r).toNat * 2 ^ (A.toNat / 2 ^ 8 % 2 ^ 8) +
          if A.toNat / 2 ^ 16 < 2 ^ 15 then (A.toNat / 2 ^ 16 : Int) else (A.toNat / 2 ^ 16 : Int) - 2 ^ 16)))

/-- 20_memory.md R30, R31, 93_implementation_defined.md U6: reads fail exactly outside memory, writes exactly there
and on read-only storage that refuses them; a write that succeeds is read back (unless read-only storage discards
it) and changes no other cell. -/
def Obligations.MemoryReadsTheLatestWrite : Prop :=
  ∀ (s : State) (a v : Cell),
    (s.getValue a = none ↔ s.params.memSize ≤ a.toNat) ∧
    (s.setValue a v = none ↔ ¬ s.acceptsAt a) ∧
    ∀ m, s.setValue a v = some m → s.stores { s with mem := m } a v

/-- 70_reset_and_hazards.md R151 (2): the host's load places word `i` of a program at `LOAD_BASE + i`, as far as
memory reaches, and changes no other cell. -/
def Obligations.HostLoadPlacesTheWords : Prop :=
  ∀ (s : State) (code : List Cell), code.length ≤ 2 ^ 32 →
    (∀ (i : Nat) (v : Cell), code[i]? = some v →
      (s.params.loadBase + BitVec.ofNat 32 i).toNat < s.params.memSize →
      (s.hostLoad code).getValue (s.params.loadBase + BitVec.ofNat 32 i) = some v) ∧
    (∀ a : Cell, (∀ i < code.length, a ≠ s.params.loadBase + BitVec.ofNat 32 i) →
      (s.hostLoad code).getValue a = s.getValue a) ∧
    (s.hostLoad code).regs = s.regs ∧ (s.hostLoad code).run = s.run ∧ s.sameHost (s.hostLoad code)

/-- 70_reset_and_hazards.md R149: `reset(entry)` in any state. -/
def Obligations.HostResetSetsEveryRegister : Prop :=
  ∀ (s : State) (entry : Cell),
    (∀ r, (s.hostReset entry).regs.get r =
      match r with
      | .ip => entry
      | .sp => s.params.stackBase
      | .sb => s.params.stackBase
      | .ss => s.params.stackSize
      | _ => 0) ∧
    (s.hostReset entry).run = .running ∧ (s.hostReset entry).mem = s.mem ∧ s.sameHost (s.hostReset entry)

/-- 70_reset_and_hazards.md R149, R150, 93_implementation_defined.md U1: a new core is Halted and does nothing, and the
state after its reset does not depend on its registers. The parameters and the entry of `State.reset` are the
model's choice (log entries 5, 6). -/
def Obligations.ResetStateIsResetOfANewCore : Prop :=
  (∀ x : Regs, State.reset = (powerOn platform x []).hostReset platformEntry) ∧
  ∀ (p : Params) (x : Regs) (m : Memory) (budget : Nat),
    step (powerOn p x m) = .next (powerOn p x m) ∧ tick budget (powerOn p x m) = .next (powerOn p x m)

/-! ## NOP, HALT, SECT (spec/41_nop_halt_sect.md) -/

/-- 41_nop_halt_sect.md R75. -/
def Obligations.NopOnlyAdvances : Prop :=
  (∀ w : Cell, opField w = 0x00 → decode [w] = .ok (.nop, [])) ∧ ∀ s : State, s.setsOnly .nop 0 1 []

/-- 41_nop_halt_sect.md R76: what HALT does, and of the Ticks: the one that runs it ends with it, whatever is left of
its budget, and every later one does nothing. -/
def Obligations.HaltStopsPastItself : Prop :=
  (∀ w : Cell, opField w = 0x01 → decode [w] = .ok (.halt, [])) ∧
  (∀ s : State, ∃ t, exec .halt s = .next t ∧ t.run = .halted ∧ t.last = some (.haltedByInstruction 1) ∧
    s.setsRegs t 0 [] ∧ s.keepsMemory t ∧ s.sameHost t ∧ ∀ budget, tick budget t = .next t) ∧
  ∀ (s : State) (w : Cell) (budget : Nat),
    s.run ≠ .halted → s.pauseAnswers.head? ≠ some true → s.getValue s.pc = some w → opField w = 0x01 →
    0 < budget → tick budget s = exec .halt { s with run := .running, pauseAnswers := s.pauseAnswers.tail }

/-- 41_nop_halt_sect.md R77: SECT always faults; with a host that does not recover, the core is left Halted at the
SECT. -/
def Obligations.SectAlwaysFaults : Prop :=
  (∀ w : Cell, opField w = 0x10 → decode [w] = .ok (.sect, [])) ∧
  ∀ s : State, s.raises .sect .sectionBoundary s.pc ∧
    (s.recoveries = [] → ∃ t, exec .sect s = .next t ∧ s.faults t .sectionBoundary s.pc)

/-! ## Stack (spec/42_stack.md) -/

/-- 42_stack.md R78: PUSH, once its operand is read. -/
def Obligations.PushStoresAtSp : Prop :=
  (∀ a0, encode (.push a0) = instrCells 0x02 0x00 [a0] ∧ OperandFaults (.push a0)) ∧
  ∀ (s : State) (a0 : Operand) (v : Cell), s.reads 1 a0 v →
    (s.regs.sb.toNat + s.regs.ss.toNat ≤ s.regs.sp.toNat → s.raises (.push a0) .stackOverflow s.pc) ∧
    (s.regs.sp.toNat < s.regs.sb.toNat + s.regs.ss.toNat →
      s.setsAndStores (.push a0) 1 1 [(.sp, s.regs.sp + 1)] s.regs.sp v)

/-- 42_stack.md R79: POP, once its destination is located; the destination is written after SP. -/
def Obligations.PopTakesTheCellBelowSp : Prop :=
  (∀ a0, encode (.pop a0) = instrCells 0x03 0x00 [a0] ∧ OperandFaults (.pop a0)) ∧
  ∀ (s : State) (a0 : Operand) (L : Dest), s.locates 1 a0 L →
    (s.regs.sp.toNat ≤ s.regs.sb.toNat → s.raises (.pop a0) .stackUnderflow s.pc) ∧
    (s.regs.sb.toNat < s.regs.sp.toNat →
      (s.getValue (s.regs.sp - 1) = none → s.raises (.pop a0) .segmentationFault (s.regs.sp - 1)) ∧
      ∀ v, s.getValue (s.regs.sp - 1) = some v → s.yields (.pop a0) 1 1 [(.sp, s.regs.sp - 1)] L v)

/-- 42_stack.md R79: "a matched push/pop sequence restores the stack pointer exactly", and the register popped into
holds what was pushed; where the slot is RAM and SP does not wrap. -/
def Obligations.PushThenPopRestoresSp : Prop :=
  ∀ (s : State) (a0 : Operand) (v : Cell) (b : Byte) (r : RegId),
    s.reads 1 a0 v → s.regs.sb.toNat ≤ s.regs.sp.toNat → s.regs.sp.toNat + 1 < 2 ^ 32 →
    s.regs.sp.toNat < s.regs.sb.toNat + s.regs.ss.toNat → s.regs.sp.toNat < s.params.memSize →
    Params.romAt s.params s.regs.sp.toNat = none → regOf b = some r →
    ∃ t u, exec (.push a0) s = .next t ∧ exec (.pop (.reg b)) t = .next u ∧
      u.last = some (.completed 1) ∧ u.regs.get r = v ∧ (r ≠ .sp → u.regs.sp = s.regs.sp)

/-! ## Control transfer (spec/43_control_transfer.md) -/

/-- 43_control_transfer.md R80. -/
def Obligations.JmpSetsIp : Prop :=
  (∀ a0, encode (.jmp a0) = instrCells 0x04 0x00 [a0] ∧ OperandFaults (.jmp a0)) ∧
  ∀ (s : State) (a0 : Operand) (target : Cell), s.reads 1 a0 target →
    s.setsOnly (.jmp a0) 1 1 [(.ip, target)]

/-- 43_control_transfer.md R81 to R87: the six conditional jumps by the flags E and G. -/
def Obligations.JmpcJumpsByTheFlags : Prop :=
  JumpRule .jmpcEq 0x00 (fun e _ => e = true) ∧
  JumpRule .jmpcNe 0x01 (fun e _ => e = false) ∧
  JumpRule .jmpcGt 0x02 (fun _ g => g = true) ∧
  JumpRule .jmpcLt 0x03 (fun e g => e = false ∧ g = false) ∧
  JumpRule .jmpcGe 0x04 (fun e g => e = true ∨ g = true) ∧
  JumpRule .jmpcLe 0x05 (fun _ g => g = false)

/-- 43_control_transfer.md R90: CALL, once its target is read. -/
def Obligations.CallPushesTheReturnAddress : Prop :=
  (∀ a0, encode (.call a0) = instrCells 0x06 0x00 [a0] ∧ OperandFaults (.call a0)) ∧
  ∀ (s : State) (a0 : Operand) (target : Cell), s.reads 1 a0 target →
    (s.regs.sb.toNat + s.regs.ss.toNat ≤ s.regs.sp.toNat → s.raises (.call a0) .stackOverflow s.pc) ∧
    (s.regs.sp.toNat < s.regs.sb.toNat + s.regs.ss.toNat →
      s.setsAndStores (.call a0) 1 1 [(.sp, s.regs.sp + 1), (.ip, target)] s.regs.sp (s.pc + 2))

/-- 43_control_transfer.md R91: RET, once its two counts are read. -/
def Obligations.RetReturnsAndDiscards : Prop :=
  (∀ a0 a1, encode (.ret a0 a1) = instrCells 0x07 0x00 [a0, a1] ∧ OperandFaults (.ret a0 a1)) ∧
  ∀ (s : State) (a0 a1 : Operand) (b k : Cell), s.reads 2 a0 b → s.reads 2 a1 k →
    (s.regs.sp.toNat < s.regs.sb.toNat + b.toNat + 1 + k.toNat →
      s.raises (.ret a0 a1) .stackUnderflow s.pc) ∧
    (s.regs.sb.toNat + b.toNat + 1 + k.toNat ≤ s.regs.sp.toNat →
      (s.getValue (s.regs.sp - b - 1) = none →
        s.raises (.ret a0 a1) .segmentationFault (s.regs.sp - b - 1)) ∧
      ∀ ra, s.getValue (s.regs.sp - b - 1) = some ra →
        s.setsOnly (.ret a0 a1) 2 1 [(.sp, s.regs.sp - b - 1 - k), (.ip, ra)])

/-- 43_control_transfer.md R88: ENTER, once its count is read. -/
def Obligations.EnterOpensAFrame : Prop :=
  (∀ a0, encode (.enter a0) = instrCells 0x08 0x00 [a0] ∧ OperandFaults (.enter a0)) ∧
  ∀ (s : State) (a0 : Operand) (k : Cell), s.reads 1 a0 k →
    (s.regs.sb.toNat + s.regs.ss.toNat < s.regs.sp.toNat + 1 + k.toNat →
      s.raises (.enter a0) .stackOverflow s.pc) ∧
    (s.regs.sp.toNat + 1 + k.toNat ≤ s.regs.sb.toNat + s.regs.ss.toNat →
      s.setsAndStores (.enter a0) 1 1 [(.fp, s.regs.sp + 1), (.sp, s.regs.sp + 1 + k)] s.regs.sp s.regs.fp)

/-- 43_control_transfer.md R89. -/
def Obligations.LeaveClosesAFrame : Prop :=
  (∀ w : Cell, opField w = 0x09 → decode [w] = .ok (.leave, [])) ∧
  ∀ s : State,
    (s.regs.fp.toNat ≤ s.regs.sb.toNat → s.raises .leave .stackUnderflow s.pc) ∧
    (s.regs.sb.toNat < s.regs.fp.toNat →
      (s.getValue (s.regs.fp - 1) = none → s.raises .leave .segmentationFault (s.regs.fp - 1)) ∧
      ∀ v, s.getValue (s.regs.fp - 1) = some v →
        s.setsOnly .leave 0 1 [(.sp, s.regs.fp - 1), (.fp, v)])

/-- 43_control_transfer.md R89: LEAVE is the inverse of ENTER whatever ran in between, as long as FP, SB and the
saved cell are those ENTER left; where that cell is RAM and SP does not wrap. -/
def Obligations.LeaveUndoesEnter : Prop :=
  ∀ (s t u : State) (a0 : Operand) (k : Cell),
    s.reads 1 a0 k → s.regs.sb.toNat ≤ s.regs.sp.toNat → s.regs.sp.toNat + 1 < 2 ^ 32 →
    s.regs.sp.toNat + 1 + k.toNat ≤ s.regs.sb.toNat + s.regs.ss.toNat →
    s.regs.sp.toNat < s.params.memSize → Params.romAt s.params s.regs.sp.toNat = none →
    exec (.enter a0) s = .next t →
    u.regs.fp = t.regs.fp → u.regs.sb = t.regs.sb → u.getValue (t.regs.fp - 1) = t.getValue (t.regs.fp - 1) →
    ∃ z, exec .leave u = .next z ∧ z.last = some (.completed 1) ∧ z.regs.sp = s.regs.sp ∧ z.regs.fp = s.regs.fp

/-- 43_control_transfer.md R90 to R92: RET with counts `b` and 0, in a state whose SP is `b` above what CALL left
and whose return cell is intact, goes to the instruction after the CALL with SP as before it. -/
def Obligations.RetUndoesCall : Prop :=
  ∀ (s t u : State) (a0 : Operand) (target b : Cell),
    s.reads 1 a0 target → s.regs.sb.toNat ≤ s.regs.sp.toNat → s.regs.sp.toNat + 1 + b.toNat < 2 ^ 32 →
    s.regs.sp.toNat < s.regs.sb.toNat + s.regs.ss.toNat →
    s.regs.sp.toNat < s.params.memSize → Params.romAt s.params s.regs.sp.toNat = none →
    exec (.call a0) s = .next t →
    u.regs.sp = t.regs.sp + b → u.regs.sb = t.regs.sb → u.getValue s.regs.sp = t.getValue s.regs.sp →
    ∃ z, exec (.ret (.imm b) (.imm 0)) u = .next z ∧ z.last = some (.completed 1) ∧
      z.regs.sp = s.regs.sp ∧ z.regs.ip = s.pc + 2

/-! ## Binary operations (spec/44_binary_ops.md) -/

/-- 44_binary_ops.md R96, R97, R98: wrapping sum, difference and product. -/
def Obligations.AddSubMulWrap : Prop :=
  BinaryRule .add 0x00 (fun _ => 1) (fun p q r => r.toNat = (p.toNat + q.toNat) % 2 ^ 32) ∧
  BinaryRule .sub 0x01 (fun _ => 1) (fun p q r => (r.toNat : Int) = ((p.toNat : Int) - q.toNat) % 2 ^ 32) ∧
  BinaryRule .mul 0x02 Params.costMul (fun p q r => r.toNat = (p.toNat * q.toNat) % 2 ^ 32)

/-- 44_binary_ops.md R99 to R102: the four divisions, which fault on a zero divisor; only `-2^31 DIV -1` wraps. -/
def Obligations.DivisionsTruncateOrFault : Prop :=
  DivisionRule .div 0x03 (fun p q r =>
    r.toInt = if p = 0x80000000 ∧ q = 0xFFFFFFFF then -2 ^ 31 else p.toInt.tdiv q.toInt) ∧
  DivisionRule .mod 0x04 (fun p q r => r.toInt = p.toInt - q.toInt * p.toInt.tdiv q.toInt) ∧
  DivisionRule .udiv 0x05 (fun p q r => r.toNat = p.toNat / q.toNat) ∧
  DivisionRule .umod 0x06 (fun p q r => r.toNat = p.toNat % q.toNat)

/-- 44_binary_ops.md R94, R100: quotient and remainder make up the dividend in wrapped arithmetic; the signed
remainder is smaller than the divisor and has the sign of the dividend. -/
def Obligations.QuotientAndRemainderAgree : Prop :=
  ∀ p q : Cell, q ≠ 0 →
    q * aluDiv p q + aluMod p q = p ∧ q * aluUdiv p q + aluUmod p q = p ∧
    (aluMod p q).toInt.natAbs < q.toInt.natAbs ∧
    ((aluMod p q).toInt = 0 ∨ ((aluMod p q).toInt < 0 ↔ p.toInt < 0))

/-- 44_binary_ops.md R103, R104, R105: bit by bit. -/
def Obligations.AndOrXorBitwise : Prop :=
  BinaryRule .and 0x07 (fun _ => 1) (fun p q r => ∀ i < 32, r.getLsbD i = (p.getLsbD i && q.getLsbD i)) ∧
  BinaryRule .or 0x08 (fun _ => 1) (fun p q r => ∀ i < 32, r.getLsbD i = (p.getLsbD i || q.getLsbD i)) ∧
  BinaryRule .xor 0x09 (fun _ => 1) (fun p q r => ∀ i < 32, r.getLsbD i = (p.getLsbD i != q.getLsbD i))

/-- 44_binary_ops.md R106, R107, R108: the shift count is the low five bits of the second source. -/
def Obligations.ShiftsByTheLowFiveBits : Prop :=
  BinaryRule .shl 0x0A (fun _ => 1) (fun p q r => r.toNat = p.toNat * 2 ^ (q.toNat % 32) % 2 ^ 32) ∧
  BinaryRule .shr 0x0B (fun _ => 1) (fun p q r => r.toNat = p.toNat / 2 ^ (q.toNat % 32)) ∧
  BinaryRule .sar 0x0C (fun _ => 1) (fun p q r => r.toInt = p.toInt / 2 ^ (q.toNat % 32))

/-- 44_binary_ops.md R95, R109, R110: FADD and FSUB give the exactly rounded sum and difference, the difference as the
sum with the second operand's sign inverted. -/
def Obligations.FloatSumsExactlyRounded : Prop :=
  BinaryRule .fadd 0x0D (fun _ => 1) isFloatSum ∧
  BinaryRule .fsub 0x0E (fun _ => 1) (fun p q r => isFloatSum p (q ^^^ 0x80000000) r)

/-- 44_binary_ops.md R95, R111, R112: FMUL and FDIV give the exactly rounded product and quotient, and never fault. -/
def Obligations.FloatProductsExactlyRounded : Prop :=
  BinaryRule .fmul 0x0F Params.costMul isFloatProduct ∧
  BinaryRule .fdiv 0x10 Params.costDiv isFloatQuotient

/-! ## Unary operations (spec/45_unary_ops.md) -/

/-- 45_unary_ops.md R114 to R117. -/
def Obligations.NegationsAndComplement : Prop :=
  UnaryRule .neg 0x00 (fun _ => 1) (fun p r => r.toNat = (2 ^ 32 - p.toNat) % 2 ^ 32) ∧
  UnaryRule .not 0x01 (fun _ => 1) (fun p r => ∀ i < 32, r.getLsbD i = !p.getLsbD i) ∧
  UnaryRule .fneg 0x02 (fun _ => 1)
    (fun p r => r.getLsbD 31 = !p.getLsbD 31 ∧ ∀ i < 31, r.getLsbD i = p.getLsbD i) ∧
  UnaryRule .fabs 0x03 (fun _ => 1)
    (fun p r => r.getLsbD 31 = false ∧ ∀ i < 31, r.getLsbD i = p.getLsbD i)

/-- 45_unary_ops.md R118. -/
def Obligations.SquareRootExactlyRounded : Prop :=
  UnaryRule .fsqrt 0x04 Params.costTrans isFloatRoot

/-- 45_unary_ops.md R119, R120: FSIN and FCOS are functions of the operand alone, of which only the constraints are
known. -/
def Obligations.SineAndCosineWithinTheirBounds : Prop :=
  (∃ f : Cell → Cell, UnaryRule .fsin 0x05 Params.costTrans (fun p r => r = f p) ∧
    f 0 = 0 ∧ f 0x80000000 = 0x80000000 ∧ (∀ p, isNaN p ∨ isInf p → isNaN (f p)) ∧
    ∀ p, isFinite p → withinOne (f p)) ∧
  ∃ f : Cell → Cell, UnaryRule .fcos 0x06 Params.costTrans (fun p r => r = f p) ∧
    f 0 = 0x3F800000 ∧ f 0x80000000 = 0x3F800000 ∧ (∀ p, isNaN p ∨ isInf p → isNaN (f p)) ∧
    ∀ p, isFinite p → withinOne (f p)

/-- 45_unary_ops.md R121, R122. -/
def Obligations.ConversionsRoundAndSaturate : Prop :=
  UnaryRule .itof 0x07 (fun _ => 1) isFloatOfInt ∧ UnaryRule .ftoi 0x08 (fun _ => 1) isIntOfFloat

/-! ## Ports (spec/46_io.md) -/

/-- 46_io.md R123: IN, once its destination is located and its port number read, for each answer of the host. -/
def Obligations.InDeliversWaitsOrFaults : Prop :=
  (∀ a0 a1, encode (.inPort a0 a1) = instrCells 0x0C 0x00 [a0, a1] ∧ OperandFaults (.inPort a0 a1)) ∧
  ∀ (s : State) (a0 a1 : Operand) (L : Dest) (p : Cell), s.locates 2 a0 L → s.reads 2 a1 p →
    (p.toInt < 0 ∨ (s.params.portCount : Int) ≤ p.toInt → s.raises (.inPort a0 a1) .invalidPort s.pc) ∧
    (0 ≤ p.toInt → p.toInt < s.params.portCount →
      (p = 1 → exec (.inPort a0 a1) s = .next { s with run := .waiting, last := some .waited }) ∧
      (p ≠ 1 →
        (∀ rest, s.readAnswers = none :: rest →
          exec (.inPort a0 a1) s =
            .next { s with readAnswers := rest, run := .waiting, last := some .waited }) ∧
        ∀ v rest, s.readAnswers = some v :: rest →
          let u := { s with readAnswers := rest, portHistory := s.portHistory ++ [PortEvent.input p.toNat v] }
          (s.accepts L → ∃ t, exec (.inPort a0 a1) s = .next t ∧ u.completes t 1 ∧ s.writesTo t 2 [] L v) ∧
          ∀ ea, L = .mem ea → ¬ s.acceptsAt ea →
            exec (.inPort a0 a1) s = .next (u.raise ⟨.segmentationFault, ea⟩)))

/-- 46_io.md R124: OUT, once its port number and its value are read, for each answer of the host. -/
def Obligations.OutDeliversWaitsOrFaults : Prop :=
  (∀ a0 a1, encode (.outPort a0 a1) = instrCells 0x0D 0x00 [a0, a1] ∧ OperandFaults (.outPort a0 a1)) ∧
  ∀ (s : State) (a0 a1 : Operand) (p v : Cell), s.reads 2 a0 p → s.reads 2 a1 v →
    (p.toInt < 0 ∨ (s.params.portCount : Int) ≤ p.toInt → s.raises (.outPort a0 a1) .invalidPort s.pc) ∧
    (0 ≤ p.toInt → p.toInt < s.params.portCount →
      (p = 1 → exec (.outPort a0 a1) s = .next { s with run := .waiting, last := some .waited }) ∧
      (p ≠ 1 →
        (∀ rest, s.writeAnswers = false :: rest →
          exec (.outPort a0 a1) s =
            .next { s with writeAnswers := rest, run := .waiting, last := some .waited }) ∧
        ∀ rest, s.writeAnswers = true :: rest →
          let u := { s with writeAnswers := rest, portHistory := s.portHistory ++ [PortEvent.output p.toNat v] }
          ∃ t, exec (.outPort a0 a1) s = .next t ∧ u.completes t 1 ∧ s.setsRegs t 2 [] ∧ s.keepsMemory t))

/-- The MODEL's choice (log entry 7), for a host whose decided answers are used up: its answer is free, so IN on a
valid port other than the disk waits or delivers some cell, and OUT waits or completes; one free answer is drawn. -/
def Obligations.UndecidedPortsWaitOrTransfer : Prop :=
  (∀ (s : State) (a0 a1 : Operand) (L : Dest) (p : Cell), s.locates 2 a0 L → s.reads 2 a1 p →
    0 ≤ p.toInt → p.toInt < s.params.portCount → p ≠ 1 → s.readAnswers = [] →
    exec (.inPort a0 a1) s = .next { s with drawn := s.drawn + 1, run := .waiting, last := some .waited } ∨
      ∃ v,
        let u := { s with drawn := s.drawn + 1, portHistory := s.portHistory ++ [PortEvent.input p.toNat v] }
        (s.accepts L → ∃ t, exec (.inPort a0 a1) s = .next t ∧ u.completes t 1 ∧ s.writesTo t 2 [] L v) ∧
        ∀ ea, L = .mem ea → ¬ s.acceptsAt ea →
          exec (.inPort a0 a1) s = .next (u.raise ⟨.segmentationFault, ea⟩)) ∧
  ∀ (s : State) (a0 a1 : Operand) (p v : Cell), s.reads 2 a0 p → s.reads 2 a1 v →
    0 ≤ p.toInt → p.toInt < s.params.portCount → p ≠ 1 → s.writeAnswers = [] →
    exec (.outPort a0 a1) s = .next { s with drawn := s.drawn + 1, run := .waiting, last := some .waited } ∨
      let u := { s with drawn := s.drawn + 1, portHistory := s.portHistory ++ [PortEvent.output p.toNat v] }
      ∃ t, exec (.outPort a0 a1) s = .next t ∧ u.completes t 1 ∧ s.setsRegs t 2 [] ∧ s.keepsMemory t

/-! ## Compare and move (spec/47_cmp_mov.md) -/

/-- 47_cmp_mov.md R126 to R131: the six integer comparisons. -/
def Obligations.IntegerComparisonsSetFlags : Prop :=
  CompareRule .cmpI32 0x00 (fun p q => p.toInt = q.toInt) (fun p q => q.toInt < p.toInt) ∧
  CompareRule .cmpI16 0x01 (fun p q => (p.setWidth 16).toInt = (q.setWidth 16).toInt)
    (fun p q => (q.setWidth 16).toInt < (p.setWidth 16).toInt) ∧
  CompareRule .cmpI8 0x02 (fun p q => (p.setWidth 8).toInt = (q.setWidth 8).toInt)
    (fun p q => (q.setWidth 8).toInt < (p.setWidth 8).toInt) ∧
  CompareRule .cmpU32 0x04 (fun p q => p.toNat = q.toNat) (fun p q => q.toNat < p.toNat) ∧
  CompareRule .cmpU16 0x05 (fun p q => p.toNat % 2 ^ 16 = q.toNat % 2 ^ 16)
    (fun p q => q.toNat % 2 ^ 16 < p.toNat % 2 ^ 16) ∧
  CompareRule .cmpU8 0x06 (fun p q => p.toNat % 2 ^ 8 = q.toNat % 2 ^ 8)
    (fun p q => q.toNat % 2 ^ 8 < p.toNat % 2 ^ 8)

/-- 47_cmp_mov.md R132: finite floats by value, infinities beyond them, a NaN unordered. -/
def Obligations.FloatComparisonSetsFlags : Prop :=
  CompareRule .cmpF32 0x08
    (fun p q => (isFinite p ∧ isFinite q ∧ floatUnits p = floatUnits q) ∨
      (isInf p ∧ isInf q ∧ signBit p = signBit q))
    (fun p q => (isFinite p ∧ isFinite q ∧ floatUnits q < floatUnits p) ∨
      (isInf p ∧ isInf q ∧ signBit p = false ∧ signBit q = true) ∨
      (isInf p ∧ isFinite q ∧ signBit p = false) ∨ (isFinite p ∧ isInf q ∧ signBit q = true))

/-- 47_cmp_mov.md R133: MOV, once its destination is located and its source read. -/
def Obligations.MovCopiesTheCell : Prop :=
  (∀ a0 a1, encode (.mov a0 a1) = instrCells 0x0F 0x00 [a0, a1] ∧ OperandFaults (.mov a0 a1)) ∧
  ∀ (s : State) (a0 a1 : Operand) (L : Dest) (v : Cell), s.locates 2 a0 L → s.reads 2 a1 v →
    s.yields (.mov a0 a1) 2 1 [] L v

/-! ## Every instruction -/

/-- Of every instruction that completes: its cost is that of the table (70_reset_and_hazards.md R154); of the
registers only IP, those it writes of itself and its destination can change (10_state.md R12 to R20); of memory only
the cells it stores to (20_memory.md R34); no event is delivered and no port transfer made but by IN and OUT. -/
def Obligations.EveryInstructionFrame : Prop :=
  ∀ (i : Instr) (s t : State) (c : Nat), exec i s = .next t → t.last = some (.completed c) →
    c = i.cost s.params ∧ t.run = s.run ∧ t.events = s.events ∧ t.recoveries = s.recoveries ∧
    t.pauseAnswers = s.pauseAnswers ∧
    (∀ r, r ≠ .ip → r ∉ i.implicit → ¬ s.targets i r → t.regs.get r = s.regs.get r) ∧
    (∀ a, ¬ s.storesTo i a → t.getValue a = s.getValue a) ∧
    ((∀ a0 a1, i ≠ .inPort a0 a1 ∧ i ≠ .outPort a0 a1) → s.sameHost t)

end Statements
end

