-- ==== Sys2Proof/Laws/State.lean ====
section
/-! SUPPORT. What each named update of State leaves in each field, true by rfl. -/

namespace Sys2Proof.Machine

@[simp] theorem State.commit_regs (s : State) (x : Regs) (m : Memory) (c : Nat) :
    (s.commit x m c).regs = x := rfl

@[simp] theorem State.commit_run (s : State) (x : Regs) (m : Memory) (c : Nat) :
    (s.commit x m c).run = s.run := rfl

@[simp] theorem State.commit_mem (s : State) (x : Regs) (m : Memory) (c : Nat) :
    (s.commit x m c).mem = m := rfl

@[simp] theorem State.commit_params (s : State) (x : Regs) (m : Memory) (c : Nat) :
    (s.commit x m c).params = s.params := rfl

@[simp] theorem State.commit_events (s : State) (x : Regs) (m : Memory) (c : Nat) :
    (s.commit x m c).events = s.events := rfl

@[simp] theorem State.commit_portHistory (s : State) (x : Regs) (m : Memory) (c : Nat) :
    (s.commit x m c).portHistory = s.portHistory := rfl

@[simp] theorem State.commit_readAnswers (s : State) (x : Regs) (m : Memory) (c : Nat) :
    (s.commit x m c).readAnswers = s.readAnswers := rfl

@[simp] theorem State.commit_writeAnswers (s : State) (x : Regs) (m : Memory) (c : Nat) :
    (s.commit x m c).writeAnswers = s.writeAnswers := rfl

@[simp] theorem State.commit_pauseAnswers (s : State) (x : Regs) (m : Memory) (c : Nat) :
    (s.commit x m c).pauseAnswers = s.pauseAnswers := rfl

@[simp] theorem State.commit_recoveries (s : State) (x : Regs) (m : Memory) (c : Nat) :
    (s.commit x m c).recoveries = s.recoveries := rfl

@[simp] theorem State.commit_drawn (s : State) (x : Regs) (m : Memory) (c : Nat) :
    (s.commit x m c).drawn = s.drawn := rfl

@[simp] theorem State.commit_last (s : State) (x : Regs) (m : Memory) (c : Nat) :
    (s.commit x m c).last = some (.completed c) := rfl

@[simp] theorem State.commitHalt_regs (s : State) (x : Regs) (c : Nat) :
    (s.commitHalt x c).regs = x := rfl

@[simp] theorem State.commitHalt_run (s : State) (x : Regs) (c : Nat) :
    (s.commitHalt x c).run = .halted := rfl

@[simp] theorem State.commitHalt_mem (s : State) (x : Regs) (c : Nat) :
    (s.commitHalt x c).mem = s.mem := rfl

@[simp] theorem State.commitHalt_params (s : State) (x : Regs) (c : Nat) :
    (s.commitHalt x c).params = s.params := rfl

@[simp] theorem State.commitHalt_events (s : State) (x : Regs) (c : Nat) :
    (s.commitHalt x c).events = s.events := rfl

@[simp] theorem State.commitHalt_portHistory (s : State) (x : Regs) (c : Nat) :
    (s.commitHalt x c).portHistory = s.portHistory := rfl

@[simp] theorem State.commitHalt_readAnswers (s : State) (x : Regs) (c : Nat) :
    (s.commitHalt x c).readAnswers = s.readAnswers := rfl

@[simp] theorem State.commitHalt_writeAnswers (s : State) (x : Regs) (c : Nat) :
    (s.commitHalt x c).writeAnswers = s.writeAnswers := rfl

@[simp] theorem State.commitHalt_pauseAnswers (s : State) (x : Regs) (c : Nat) :
    (s.commitHalt x c).pauseAnswers = s.pauseAnswers := rfl

@[simp] theorem State.commitHalt_recoveries (s : State) (x : Regs) (c : Nat) :
    (s.commitHalt x c).recoveries = s.recoveries := rfl

@[simp] theorem State.commitHalt_drawn (s : State) (x : Regs) (c : Nat) :
    (s.commitHalt x c).drawn = s.drawn := rfl

@[simp] theorem State.commitHalt_last (s : State) (x : Regs) (c : Nat) :
    (s.commitHalt x c).last = some (.haltedByInstruction c) := rfl

@[simp] theorem State.wait_regs (s : State) :
    (s.wait).regs = s.regs := rfl

@[simp] theorem State.wait_run (s : State) :
    (s.wait).run = .waiting := rfl

@[simp] theorem State.wait_mem (s : State) :
    (s.wait).mem = s.mem := rfl

@[simp] theorem State.wait_params (s : State) :
    (s.wait).params = s.params := rfl

@[simp] theorem State.wait_events (s : State) :
    (s.wait).events = s.events := rfl

@[simp] theorem State.wait_portHistory (s : State) :
    (s.wait).portHistory = s.portHistory := rfl

@[simp] theorem State.wait_readAnswers (s : State) :
    (s.wait).readAnswers = s.readAnswers := rfl

@[simp] theorem State.wait_writeAnswers (s : State) :
    (s.wait).writeAnswers = s.writeAnswers := rfl

@[simp] theorem State.wait_pauseAnswers (s : State) :
    (s.wait).pauseAnswers = s.pauseAnswers := rfl

@[simp] theorem State.wait_recoveries (s : State) :
    (s.wait).recoveries = s.recoveries := rfl

@[simp] theorem State.wait_drawn (s : State) :
    (s.wait).drawn = s.drawn := rfl

@[simp] theorem State.wait_last (s : State) :
    (s.wait).last = some .waited := rfl

@[simp] theorem State.pause_regs (s : State) :
    (s.pause).regs = s.regs := rfl

@[simp] theorem State.pause_run (s : State) :
    (s.pause).run = .waiting := rfl

@[simp] theorem State.pause_mem (s : State) :
    (s.pause).mem = s.mem := rfl

@[simp] theorem State.pause_params (s : State) :
    (s.pause).params = s.params := rfl

@[simp] theorem State.pause_events (s : State) :
    (s.pause).events = s.events := rfl

@[simp] theorem State.pause_portHistory (s : State) :
    (s.pause).portHistory = s.portHistory := rfl

@[simp] theorem State.pause_readAnswers (s : State) :
    (s.pause).readAnswers = s.readAnswers := rfl

@[simp] theorem State.pause_writeAnswers (s : State) :
    (s.pause).writeAnswers = s.writeAnswers := rfl

@[simp] theorem State.pause_pauseAnswers (s : State) :
    (s.pause).pauseAnswers = s.pauseAnswers := rfl

@[simp] theorem State.pause_recoveries (s : State) :
    (s.pause).recoveries = s.recoveries := rfl

@[simp] theorem State.pause_drawn (s : State) :
    (s.pause).drawn = s.drawn := rfl

@[simp] theorem State.pause_last (s : State) :
    (s.pause).last = some .paused := rfl

@[simp] theorem State.resume_regs (s : State) :
    (s.resume).regs = s.regs := rfl

@[simp] theorem State.resume_run (s : State) :
    (s.resume).run = .running := rfl

@[simp] theorem State.resume_mem (s : State) :
    (s.resume).mem = s.mem := rfl

@[simp] theorem State.resume_params (s : State) :
    (s.resume).params = s.params := rfl

@[simp] theorem State.resume_events (s : State) :
    (s.resume).events = s.events := rfl

@[simp] theorem State.resume_portHistory (s : State) :
    (s.resume).portHistory = s.portHistory := rfl

@[simp] theorem State.resume_readAnswers (s : State) :
    (s.resume).readAnswers = s.readAnswers := rfl

@[simp] theorem State.resume_writeAnswers (s : State) :
    (s.resume).writeAnswers = s.writeAnswers := rfl

@[simp] theorem State.resume_pauseAnswers (s : State) :
    (s.resume).pauseAnswers = s.pauseAnswers := rfl

@[simp] theorem State.resume_recoveries (s : State) :
    (s.resume).recoveries = s.recoveries := rfl

@[simp] theorem State.resume_drawn (s : State) :
    (s.resume).drawn = s.drawn := rfl

@[simp] theorem State.resume_last (s : State) :
    (s.resume).last = s.last := rfl

@[simp] theorem State.stop_regs (s : State) (e : ErrorEvent) :
    (s.stop e).regs = s.regs := rfl

@[simp] theorem State.stop_run (s : State) (e : ErrorEvent) :
    (s.stop e).run = .halted := rfl

@[simp] theorem State.stop_mem (s : State) (e : ErrorEvent) :
    (s.stop e).mem = s.mem := rfl

@[simp] theorem State.stop_params (s : State) (e : ErrorEvent) :
    (s.stop e).params = s.params := rfl

@[simp] theorem State.stop_events (s : State) (e : ErrorEvent) :
    (s.stop e).events = s.events := rfl

@[simp] theorem State.stop_portHistory (s : State) (e : ErrorEvent) :
    (s.stop e).portHistory = s.portHistory := rfl

@[simp] theorem State.stop_readAnswers (s : State) (e : ErrorEvent) :
    (s.stop e).readAnswers = s.readAnswers := rfl

@[simp] theorem State.stop_writeAnswers (s : State) (e : ErrorEvent) :
    (s.stop e).writeAnswers = s.writeAnswers := rfl

@[simp] theorem State.stop_pauseAnswers (s : State) (e : ErrorEvent) :
    (s.stop e).pauseAnswers = s.pauseAnswers := rfl

@[simp] theorem State.stop_recoveries (s : State) (e : ErrorEvent) :
    (s.stop e).recoveries = s.recoveries := rfl

@[simp] theorem State.stop_drawn (s : State) (e : ErrorEvent) :
    (s.stop e).drawn = s.drawn := rfl

@[simp] theorem State.stop_last (s : State) (e : ErrorEvent) :
    (s.stop e).last = some (.faulted e.kind e.addr) := rfl

@[simp] theorem State.hostReset_run (s : State) (entry : Cell) :
    (s.hostReset entry).run = .running := rfl

@[simp] theorem State.hostReset_mem (s : State) (entry : Cell) :
    (s.hostReset entry).mem = s.mem := rfl

@[simp] theorem State.hostReset_params (s : State) (entry : Cell) :
    (s.hostReset entry).params = s.params := rfl

@[simp] theorem State.hostReset_events (s : State) (entry : Cell) :
    (s.hostReset entry).events = s.events := rfl

@[simp] theorem State.hostReset_portHistory (s : State) (entry : Cell) :
    (s.hostReset entry).portHistory = s.portHistory := rfl

@[simp] theorem State.hostReset_readAnswers (s : State) (entry : Cell) :
    (s.hostReset entry).readAnswers = s.readAnswers := rfl

@[simp] theorem State.hostReset_writeAnswers (s : State) (entry : Cell) :
    (s.hostReset entry).writeAnswers = s.writeAnswers := rfl

@[simp] theorem State.hostReset_pauseAnswers (s : State) (entry : Cell) :
    (s.hostReset entry).pauseAnswers = s.pauseAnswers := rfl

@[simp] theorem State.hostReset_recoveries (s : State) (entry : Cell) :
    (s.hostReset entry).recoveries = s.recoveries := rfl

@[simp] theorem State.hostReset_drawn (s : State) (entry : Cell) :
    (s.hostReset entry).drawn = s.drawn := rfl

@[simp] theorem State.hostReset_last (s : State) (entry : Cell) :
    (s.hostReset entry).last = none := rfl

@[simp] theorem State.hostLoad_regs (s : State) (code : List Cell) :
    (s.hostLoad code).regs = s.regs := rfl

@[simp] theorem State.hostLoad_run (s : State) (code : List Cell) :
    (s.hostLoad code).run = s.run := rfl

@[simp] theorem State.hostLoad_mem (s : State) (code : List Cell) :
    (s.hostLoad code).mem = s.mem.load s.params.loadBase code := rfl

@[simp] theorem State.hostLoad_params (s : State) (code : List Cell) :
    (s.hostLoad code).params = s.params := rfl

@[simp] theorem State.hostLoad_events (s : State) (code : List Cell) :
    (s.hostLoad code).events = s.events := rfl

@[simp] theorem State.hostLoad_portHistory (s : State) (code : List Cell) :
    (s.hostLoad code).portHistory = s.portHistory := rfl

@[simp] theorem State.hostLoad_readAnswers (s : State) (code : List Cell) :
    (s.hostLoad code).readAnswers = s.readAnswers := rfl

@[simp] theorem State.hostLoad_writeAnswers (s : State) (code : List Cell) :
    (s.hostLoad code).writeAnswers = s.writeAnswers := rfl

@[simp] theorem State.hostLoad_pauseAnswers (s : State) (code : List Cell) :
    (s.hostLoad code).pauseAnswers = s.pauseAnswers := rfl

@[simp] theorem State.hostLoad_recoveries (s : State) (code : List Cell) :
    (s.hostLoad code).recoveries = s.recoveries := rfl

@[simp] theorem State.hostLoad_drawn (s : State) (code : List Cell) :
    (s.hostLoad code).drawn = s.drawn := rfl

@[simp] theorem State.hostLoad_last (s : State) (code : List Cell) :
    (s.hostLoad code).last = s.last := rfl

/-- `reset(entry)` leaves the register file of 70_reset_and_hazards.md R149. -/
@[simp] theorem State.hostReset_regs (s : State) (entry : Cell) :
    (s.hostReset entry).regs =
      { r0 := 0, r1 := 0, r2 := 0, r3 := 0, ip := entry, sp := s.params.stackBase, fp := 0,
        sb := s.params.stackBase, ss := s.params.stackSize, src := 0, dst := 0, flags := 0 } := rfl

/-- `State.reset` is what `reset(entry)` makes of a new core, whatever its registers held. -/
theorem State.reset_eq_hostReset_powerOn (x : Regs) :
    State.reset = (powerOn platform x []).hostReset platformEntry := rfl

@[simp] theorem State.wait_pc (s : State) : s.wait.pc = s.pc := rfl

@[simp] theorem State.pause_pc (s : State) : s.pause.pc = s.pc := rfl

@[simp] theorem State.resume_pc (s : State) : s.resume.pc = s.pc := rfl

@[simp] theorem State.stop_pc (s : State) (e : ErrorEvent) : (s.stop e).pc = s.pc := rfl

end Sys2Proof.Machine
end

