-- ==== Sys2Proof/Laws/Faults.lean ====
section
/-! SUPPORT. What taking a fault can do, said once (spec/60_exceptions.md R137, R139). -/

namespace Sys2Proof.Machine

/-- Without a callback the event is dropped: the core is only Halted. -/
theorem State.raise_of_no_callback {s : State} (e : ErrorEvent) (h : s.params.errorCallback = false) :
    s.raise e = s.stop e := by
  simp [State.raise, State.deliver, h]

/-- With a callback the event is appended and the host may recover. -/
theorem State.raise_of_callback {s : State} (e : ErrorEvent) (h : s.params.errorCallback = true) :
    s.raise e = State.recover { s.stop e with events := s.events ++ [e] } := by
  simp [State.raise, State.deliver, h]

/-- A host that does nothing leaves the state as the core stopped it. -/
theorem State.recover_of_nil {s : State} (h : s.recoveries = []) : s.recover = s := by
  simp [State.recover, h]

/-- The fields that `recover` cannot touch. -/
theorem State.recover_frame (s : State) :
    s.recover.params = s.params ∧ s.recover.events = s.events ∧ s.recover.portHistory = s.portHistory ∧
      s.recover.readAnswers = s.readAnswers ∧ s.recover.writeAnswers = s.writeAnswers ∧
      s.recover.pauseAnswers = s.pauseAnswers ∧ s.recover.drawn = s.drawn ∧ s.recover.last = s.last := by
  unfold State.recover
  split <;> simp

/-- All that a fault leaves, whatever the host does: the outcome, the parameters, the port history, the answers. -/
theorem State.raise_frame (s : State) (e : ErrorEvent) :
    (s.raise e).last = some (.faulted e.kind e.addr) ∧ (s.raise e).params = s.params ∧
      (s.raise e).portHistory = s.portHistory ∧ (s.raise e).readAnswers = s.readAnswers ∧
      (s.raise e).writeAnswers = s.writeAnswers ∧ (s.raise e).pauseAnswers = s.pauseAnswers ∧
      (s.raise e).drawn = s.drawn ∧
      (s.raise e).events = (if s.params.errorCallback then s.events ++ [e] else s.events) := by
  cases h : s.params.errorCallback
  · rw [State.raise_of_no_callback e h]
    simp
  · rw [State.raise_of_callback e h]
    obtain ⟨h1, h2, h3, h4, h5, h6, h7, h8⟩ := State.recover_frame { s.stop e with events := s.events ++ [e] }
    simp only [h1, h2, h3, h4, h5, h6, h7, h8]
    simp

/-- A fault with a host that does not recover: registers and memory as before, Halted, the event delivered once. -/
theorem State.raise_of_no_recovery {s : State} (e : ErrorEvent) (h : s.recoveries = []) :
    s.raise e = { s.stop e with
      events := if s.params.errorCallback then s.events ++ [e] else s.events } := by
  cases hc : s.params.errorCallback
  · rw [State.raise_of_no_callback e hc]
    simp [State.stop]
  · rw [State.raise_of_callback e hc, State.recover_of_nil (by simpa using h)]
    simp

end Sys2Proof.Machine
end

