-- ==== Sys2Proof/Laws/Memory.lean ====
section
/-! SUPPORT. The laws of memory: read after write, and the canonical form that every operation keeps. -/

namespace Sys2Proof.Machine

theorem Memory.read_insert (m : Memory) (a b : Nat) (v : Cell) :
    (Memory.insert m a v).read b = if b = a then v else m.read b := by
  induction m with
  | nil => simp [Memory.insert, Memory.read]
  | cons e m ih =>
    obtain ⟨c, w⟩ := e
    simp only [Memory.insert]
    split
    · simp [Memory.read]
    · split
      · rename_i h
        subst h
        simp only [Memory.read]
        split <;> rfl
      · rename_i h
        simp only [Memory.read, ih]
        by_cases hbc : b = c
        · subst hbc
          simp [Ne.symm h]
        · simp [hbc]

theorem Memory.read_filter (m : Memory) (a b : Nat) :
    Memory.read (m.filter (fun e => e.1 != a)) b = if b = a then unwritten else m.read b := by
  induction m with
  | nil => simp [Memory.read]
  | cons e m ih =>
    obtain ⟨c, w⟩ := e
    by_cases hca : c = a
    · subst hca
      simp only [List.filter_cons, bne_self_eq_false, Bool.false_eq_true, if_false, ih, Memory.read]
      split <;> simp_all
    · simp only [List.filter_cons, bne_iff_ne, ne_eq, hca, not_false_eq_true, if_true, Memory.read, ih]
      by_cases hbc : b = c
      · subst hbc
        simp [hca]
      · simp [hbc]

/-- Reading after a write: the value written at its address, the old cell everywhere else. -/
theorem Memory.read_write (m : Memory) (a b : Nat) (v : Cell) :
    (m.write a v).read b = if b = a then v else m.read b := by
  unfold Memory.write
  split
  · rename_i h
    rw [Memory.read_filter, h]
  · exact Memory.read_insert m a b v

/-- Every address a write leaves listed was listed before or is the one written. -/
theorem Memory.mem_insert {m : Memory} {a : Nat} {v : Cell} {e : Nat × Cell}
    (h : e ∈ Memory.insert m a v) : e = (a, v) ∨ e ∈ m := by
  induction m with
  | nil => simpa [Memory.insert] using h
  | cons f m ih =>
    obtain ⟨c, w⟩ := f
    simp only [Memory.insert] at h
    split at h
    · simpa using h
    · split at h
      · rcases List.mem_cons.1 h with h | h
        · exact .inl h
        · exact .inr (List.mem_cons_of_mem _ h)
      · rcases List.mem_cons.1 h with h | h
        · exact .inr (h ▸ List.mem_cons_self)
        · exact (ih h).imp id (List.mem_cons_of_mem _)

theorem Memory.mem_write {m : Memory} {a : Nat} {v : Cell} {e : Nat × Cell}
    (h : e ∈ m.write a v) : e = (a, v) ∨ e ∈ m := by
  unfold Memory.write at h
  split at h
  · exact .inr (List.mem_filter.1 h).1
  · exact Memory.mem_insert h

theorem Memory.insert_pairwise {m : Memory} {a : Nat} {v : Cell}
    (h : m.Pairwise (fun e f => e.1 < f.1)) :
    (Memory.insert m a v).Pairwise (fun e f => e.1 < f.1) := by
  induction m with
  | nil => simp [Memory.insert]
  | cons f m ih =>
    obtain ⟨c, w⟩ := f
    obtain ⟨h1, h2⟩ := List.pairwise_cons.1 h
    simp only [Memory.insert]
    split
    · rename_i hac
      refine List.pairwise_cons.2 ⟨fun e he => ?_, h⟩
      rcases List.mem_cons.1 he with rfl | he
      · exact hac
      · exact lt_trans hac (h1 e he)
    · split
      · rename_i _ hac
        subst hac
        exact List.pairwise_cons.2 ⟨h1, h2⟩
      · refine List.pairwise_cons.2 ⟨fun e he => ?_, ih h2⟩
        rcases Memory.mem_insert he with rfl | he
        · show c < a
          omega
        · exact h1 e he

/-- A write keeps the canonical form. -/
theorem Memory.write_wf {m : Memory} (a : Nat) (v : Cell) (h : Memory.wf m) : Memory.wf (m.write a v) := by
  unfold Memory.write
  split
  · exact ⟨h.1.filter _, fun e he => h.2 e (List.mem_filter.1 he).1⟩
  · rename_i hv
    refine ⟨Memory.insert_pairwise h.1, fun e he => ?_⟩
    rcases Memory.mem_insert he with rfl | he
    · exact hv
    · exact h.2 e he

/-- The host's load keeps the canonical form. -/
theorem Memory.load_wf {m : Memory} (a : Cell) (vs : List Cell) (h : Memory.wf m) :
    Memory.wf (m.load a vs) := by
  induction vs generalizing m a with
  | nil => exact h
  | cons v vs ih => exact ih (a + 1) (Memory.write_wf a.toNat v h)

theorem Cell.add_succ (a : Cell) (k : Nat) : a + BitVec.ofNat 32 (k + 1) = a + 1 + BitVec.ofNat 32 k := by
  rw [Nat.add_comm, BitVec.ofNat_add, ← BitVec.add_assoc]
  rfl

/-- A load leaves every address outside its words as it was. -/
theorem Memory.read_load_of_ne {b : Nat} (m : Memory) (a : Cell) (vs : List Cell)
    (h : ∀ k < vs.length, b ≠ (a + BitVec.ofNat 32 k).toNat) : (m.load a vs).read b = m.read b := by
  induction vs generalizing m a with
  | nil => rfl
  | cons v vs ih =>
    rw [Memory.load, ih]
    · rw [Memory.read_write, if_neg (by simpa using h 0 (by simp))]
    · intro k hk
      have := h (k + 1) (by simpa using hk)
      rwa [Cell.add_succ] at this

/-- A load of at most `2^32` words puts each at its own address. -/
theorem Memory.read_load {k : Nat} (m : Memory) (a : Cell) (vs : List Cell) (hlen : vs.length ≤ 2 ^ 32)
    (hk : k < vs.length) : (m.load a vs).read (a + BitVec.ofNat 32 k).toNat = vs[k] := by
  induction vs generalizing m a k with
  | nil => simp at hk
  | cons v vs ih =>
    simp only [List.length_cons] at hlen hk
    cases k with
    | zero =>
      rw [Memory.load, Memory.read_load_of_ne]
      · simp [Memory.read_write]
      · intro j hj
        have h1 : (1 : Cell).toNat = 1 := rfl
        simp only [BitVec.toNat_add, BitVec.toNat_ofNat, h1]
        omega
    | succ k =>
      rw [Memory.load, Cell.add_succ]
      exact ih (m.write a.toNat v) (a + 1) (by omega) (by omega)

/-- The machine right after reset has a memory in canonical form. -/
theorem State.reset_mem_wf : Memory.wf State.reset.mem := by
  simp [State.reset, Memory.wf]

/-- Two canonical memories that read alike are equal as data. -/
theorem Memory.eq_of_read_eq {m n : Memory} (hm : Memory.wf m) (hn : Memory.wf n)
    (h : ∀ a, m.read a = n.read a) : m = n := by
  have absent : ∀ {k : Memory} {a : Nat}, (∀ e ∈ k, a < e.1) → k.read a = unwritten := by
    intro k a
    induction k with
    | nil => intro _; rfl
    | cons e k ih =>
      intro hk
      have h1 := hk e List.mem_cons_self
      have h2 := ih (fun f hf => hk f (List.mem_cons_of_mem _ hf))
      obtain ⟨c, w⟩ := e
      simp only [Memory.read]
      rw [if_neg (by simp only at h1; omega), h2]
  induction m generalizing n with
  | nil =>
    cases n with
    | nil => rfl
    | cons f n =>
      exfalso
      have hf := h f.1
      simp only [Memory.read, if_true] at hf
      exact hn.2 f List.mem_cons_self hf.symm
  | cons e m ih =>
    obtain ⟨c, w⟩ := e
    obtain ⟨hm1, hm2⟩ := List.pairwise_cons.1 hm.1
    cases n with
    | nil =>
      exfalso
      have hf := h c
      simp only [Memory.read, if_true] at hf
      exact hm.2 (c, w) List.mem_cons_self hf
    | cons f n =>
      obtain ⟨d, u⟩ := f
      obtain ⟨hn1, hn2⟩ := List.pairwise_cons.1 hn.1
      have hcd : c = d := by
        rcases lt_trichotomy c d with hlt | heq | hgt
        · exfalso
          have hf := h c
          simp only [Memory.read, if_true] at hf
          rw [if_neg (by omega), absent (fun g hg => lt_trans hlt (hn1 g hg))] at hf
          exact hm.2 (c, w) List.mem_cons_self hf
        · exact heq
        · exfalso
          have hf := h d
          simp only [Memory.read, if_true] at hf
          rw [if_neg (by omega), absent (fun g hg => lt_trans hgt (hm1 g hg))] at hf
          exact hn.2 (d, u) List.mem_cons_self hf.symm
      subst hcd
      have hw : w = u := by
        have hf := h c
        simpa only [Memory.read, if_true] using hf
      subst hw
      have hmn : m = n := by
        refine ih ⟨hm2, fun e he => hm.2 e (List.mem_cons_of_mem _ he)⟩
          ⟨hn2, fun e he => hn.2 e (List.mem_cons_of_mem _ he)⟩ (fun a => ?_)
        by_cases hac : a = c
        · subst hac
          rw [absent (fun g hg => hm1 g hg), absent (fun g hg => hn1 g hg)]
        · have hf := h a
          simpa only [Memory.read, if_neg hac] using hf
      rw [hmn]

/-! ## The Data Provider -/

/-- `getValue` looks at the parameters and the memory alone. -/
theorem State.getValue_congr {s t : State} (a : Cell) (hp : t.params = s.params) (hm : t.mem = s.mem) :
    t.getValue a = s.getValue a := by
  simp [State.getValue, hp, hm]

/-- All that a successful `setValue` does: the address is backed and not refused; RAM holds the value, every other
cell and read-only storage are as before. -/
theorem State.setValue_eq_some {s : State} {a v : Cell} {m : Memory} (h : s.setValue a v = some m) :
    a.toNat < s.params.memSize ∧ Params.romAt s.params a.toNat ≠ some .fails ∧
      (∀ b, m.read b = if b = a.toNat ∧ Params.romAt s.params a.toNat = none then v else s.mem.read b) ∧
      (m = s.mem ∨ m = s.mem.write a.toNat v) := by
  unfold State.setValue at h
  split at h
  · rename_i hlt
    split at h <;> rename_i hr
    · cases h
      exact ⟨hlt, by simp [hr], fun b => by simp [Memory.read_write, hr], .inr rfl⟩
    · cases h
      exact ⟨hlt, by simp [hr], fun b => by simp [hr], .inl rfl⟩
    · cases h
  · cases h

/-- When `setValue` succeeds. -/
theorem State.setValue_isSome_iff (s : State) (a v : Cell) :
    (∃ m, s.setValue a v = some m) ↔
      a.toNat < s.params.memSize ∧ Params.romAt s.params a.toNat ≠ some .fails := by
  unfold State.setValue
  by_cases hlt : a.toNat < s.params.memSize
  · rcases hr : Params.romAt s.params a.toNat with _ | (_ | _) <;> simp [hlt]
  · simp [hlt]

/-- When `getValue` fails. -/
theorem State.getValue_eq_none_iff (s : State) (a : Cell) :
    s.getValue a = none ↔ s.params.memSize ≤ a.toNat := by
  unfold State.getValue
  by_cases h : a.toNat < s.params.memSize
  · simp [h]
  · simp [h, Nat.not_lt.1 h]

/-- What `MemWrite` answers: the memory of `setValue`, or the segmentation fault at the address. -/
theorem State.memWrite_eq_ok {s : State} {a v : Cell} {m : Memory} :
    s.memWrite a v = .ok m ↔ s.setValue a v = some m := by
  unfold State.memWrite
  cases s.setValue a v <;> simp

theorem State.memRead_eq_ok {s : State} {a v : Cell} :
    s.memRead a = .ok v ↔ s.getValue a = some v := by
  unfold State.memRead
  cases s.getValue a <;> simp

/-- `MemRead` raises exactly where the address is not backed. -/
theorem State.memRead_eq_error {s : State} {a : Cell} {e : ErrorEvent} :
    s.memRead a = .error e ↔ s.params.memSize ≤ a.toNat ∧ e = ⟨.segmentationFault, a⟩ := by
  unfold State.memRead State.getValue
  by_cases h : a.toNat < s.params.memSize
  · simp [h, Nat.not_le.2 h]
  · simp [h, Nat.not_lt.1 h, eq_comm]

/-- A memory write leaves every listed address within the backed space. -/
theorem State.setValue_bounded {s : State} {a v : Cell} {m : Memory} (h : s.setValue a v = some m)
    (hb : ∀ e ∈ s.mem, e.1 < s.params.memSize) : ∀ e ∈ m, e.1 < s.params.memSize := by
  obtain ⟨hlt, _, _, rfl | rfl⟩ := State.setValue_eq_some h
  · exact hb
  · intro e he
    rcases Memory.mem_write he with rfl | he
    · exact hlt
    · exact hb e he

/-- A memory write keeps the canonical form. -/
theorem State.setValue_wf {s : State} {a v : Cell} {m : Memory} (h : s.setValue a v = some m)
    (hw : Memory.wf s.mem) : Memory.wf m := by
  obtain ⟨_, _, _, rfl | rfl⟩ := State.setValue_eq_some h
  · exact hw
  · exact Memory.write_wf _ _ hw

end Sys2Proof.Machine
end

