-- ==== Sys2Proof/Laws/Phases.lean ====
section
/-! SUPPORT. Sequencing of an instruction's phases: the first fault met is the one reported
(spec/40_execution_cycle.md R71). -/

namespace Sys2Proof.Machine

/-- A phase that succeeds hands its value on. -/
@[simp] theorem phase_ok {α β : Type} (a : α) (f : α → Except ErrorEvent β) :
    (Except.ok a >>= f) = f a := rfl

/-- A phase that raises ends the instruction. -/
@[simp] theorem phase_error {α β : Type} (e : ErrorEvent) (f : α → Except ErrorEvent β) :
    (Except.error e >>= f) = Except.error e := rfl

@[simp] theorem phase_pure {α : Type} (a : α) : (pure a : Except ErrorEvent α) = .ok a := rfl

/-- Two phases succeed exactly when the first does and the second does on its value. -/
theorem phase_eq_ok {α β : Type} {x : Except ErrorEvent α} {f : α → Except ErrorEvent β} {b : β} :
    (x >>= f) = .ok b ↔ ∃ a, x = .ok a ∧ f a = .ok b := by
  cases x <;> simp

/-- Two phases raise exactly when the first does, or the second does on its value. -/
theorem phase_eq_error {α β : Type} {x : Except ErrorEvent α} {f : α → Except ErrorEvent β}
    {e : ErrorEvent} :
    (x >>= f) = .error e ↔ x = .error e ∨ ∃ a, x = .ok a ∧ f a = .error e := by
  cases x <;> simp

@[simp] theorem State.settle_ok (s t : State) : s.settle (.ok t) = t := rfl

@[simp] theorem State.settle_error (s : State) (e : ErrorEvent) : s.settle (.error e) = s.raise e := rfl

/-- All that settling can answer: the committed state, or the fault. -/
theorem State.settle_cases (s : State) (r : Except ErrorEvent State) :
    (∃ t, r = .ok t ∧ s.settle r = t) ∨ (∃ e, r = .error e ∧ s.settle r = s.raise e) := by
  cases r
  · exact .inr ⟨_, rfl, rfl⟩
  · exact .inl ⟨_, rfl, rfl⟩

end Sys2Proof.Machine
end

