-- ==== Sys2Proof/Laws/Cycle.lean ====
section
/-! SUPPORT. Fetch, `Step()`, the loop of `Tick` and the step of the machine: what each can do, said once
(spec/30_encoding.md R63, 40_execution_cycle.md R66, R67, R72). -/

namespace Sys2Proof.Machine

/-- The state with the host's next answer of the debug hook used up. -/
def State.asked (s : State) : State := { s with pauseAnswers := s.pauseAnswers.tail }

/-! ## Fetch -/

/-- Argument words are fetched exactly when each of their cells can be read. -/
theorem State.fetchArgs_eq_ok {s : State} {a : Cell} {n : Nat} {vs : List Cell} :
    s.fetchArgs a n = .ok vs ↔
      vs.length = n ∧ ∀ k (h : k < vs.length), s.getValue (a + BitVec.ofNat 32 k) = some vs[k] := by
  induction n generalizing a vs with
  | zero =>
    simp only [State.fetchArgs, Except.ok.injEq]
    constructor
    · rintro rfl
      simp
    · rintro ⟨h, _⟩
      exact (List.length_eq_zero_iff.1 h).symm
  | succ n ih =>
    have step : ∀ k : Nat, a + 1 + BitVec.ofNat 32 k = a + BitVec.ofNat 32 (k + 1) := by
      intro k
      apply BitVec.eq_of_toNat_eq
      simp
      omega
    simp only [State.fetchArgs, phase_eq_ok, phase_pure, Except.ok.injEq, State.memRead_eq_ok]
    constructor
    · rintro ⟨v, hv, rest, hrest, rfl⟩
      obtain ⟨hlen, hall⟩ := ih.1 hrest
      refine ⟨by simp [hlen], fun k hk => ?_⟩
      cases k with
      | zero => simpa using hv
      | succ k =>
        have := hall k (by simpa using hk)
        rw [step] at this
        simpa using this
    · rintro ⟨hlen, hall⟩
      cases vs with
      | nil => simp at hlen
      | cons v rest =>
        have h0 := hall 0 (by simp)
        rw [List.getElem_cons_zero] at h0
        refine ⟨v, by simpa using h0, rest, ih.2 ⟨by simpa using hlen, fun k hk => ?_⟩, rfl⟩
        have hk1 := hall (k + 1) (by simpa using hk)
        rw [List.getElem_cons_succ] at hk1
        rw [step, hk1]

/-- The first argument word that cannot be read is the one reported. -/
theorem State.fetchArgs_error {s : State} {a : Cell} {n : Nat} {e : ErrorEvent}
    (h : s.fetchArgs a n = .error e) :
    ∃ k < n, e = ⟨.segmentationFault, a + BitVec.ofNat 32 k⟩ ∧ s.getValue (a + BitVec.ofNat 32 k) = none ∧
      ∀ j < k, (s.getValue (a + BitVec.ofNat 32 j)).isSome := by
  induction n generalizing a with
  | zero => cases h
  | succ n ih =>
    have step : ∀ k : Nat, a + 1 + BitVec.ofNat 32 k = a + BitVec.ofNat 32 (k + 1) := by
      intro k
      apply BitVec.eq_of_toNat_eq
      simp
      omega
    simp only [State.fetchArgs, phase_eq_error, phase_pure] at h
    rcases h with h | ⟨v, hv, h | ⟨rest, _, h⟩⟩
    · obtain ⟨hle, rfl⟩ := State.memRead_eq_error.1 h
      refine ⟨0, by omega, by simp, ?_, fun j hj => absurd hj (Nat.not_lt_zero j)⟩
      simp [State.getValue, Nat.not_lt.2 hle]
    · obtain ⟨k, hk, he, hnone, hbefore⟩ := ih h
      rw [step] at he hnone
      refine ⟨k + 1, by omega, he, hnone, fun j hj => ?_⟩
      cases j with
      | zero => simp [State.memRead_eq_ok.1 hv]
      | succ j =>
        have := hbefore j (by omega)
        rwa [step] at this
    · cases h

/-- A successful fetch has read the instruction cell and as many argument words as its opcode has. -/
theorem State.fetch_eq_ok {s : State} {cells : List Cell} :
    s.fetch = .ok cells ↔
      ∃ w n rest, cells = w :: rest ∧ s.getValue s.pc = some w ∧ argc (opField w) = some n ∧
        s.fetchArgs (s.pc + 1) n = .ok rest := by
  simp only [State.fetch, phase_eq_ok, State.memRead_eq_ok]
  constructor
  · rintro ⟨w, hw, h⟩
    split at h
    · cases h
    · rename_i n hn
      simp only [phase_eq_ok, phase_pure, Except.ok.injEq] at h
      obtain ⟨rest, hrest, rfl⟩ := h
      exact ⟨w, n, rest, rfl, hw, hn, hrest⟩
  · rintro ⟨w, n, rest, rfl, hw, hn, hrest⟩
    refine ⟨w, hw, ?_⟩
    simp only [hn]
    rw [hrest]
    rfl

/-- A fetch that fails met, in this order: an unreadable instruction cell, an illegal opcode, an unreadable
argument word. -/
theorem State.fetch_error {s : State} {e : ErrorEvent} (h : s.fetch = .error e) :
    (s.getValue s.pc = none ∧ e = ⟨.segmentationFault, s.pc⟩) ∨
      (∃ w, s.getValue s.pc = some w ∧
        ((argc (opField w) = none ∧ e = ⟨.illegalInstruction, s.pc⟩) ∨
          ∃ n, argc (opField w) = some n ∧ s.fetchArgs (s.pc + 1) n = .error e)) := by
  simp only [State.fetch, phase_eq_error, State.memRead_eq_ok] at h
  rcases h with h | ⟨w, hw, h⟩
  · obtain ⟨hle, rfl⟩ := State.memRead_eq_error.1 h
    exact .inl ⟨by simp [State.getValue, Nat.not_lt.2 hle], rfl⟩
  · refine .inr ⟨w, hw, ?_⟩
    split at h
    · rename_i hn
      exact .inl ⟨hn, (Except.error.inj h).symm⟩
    · rename_i n hn
      simp only [phase_eq_error, phase_pure] at h
      rcases h with h | ⟨_, _, h⟩
      · exact .inr ⟨n, hn, h⟩
      · cases h

/-- What a decoded list of cells starts with: as many cells as the instruction has. -/
theorem decode_eq_ok {cells rest : List Cell} {i : Instr} :
    decode cells = .ok (i, rest) ↔
      ∃ w args n, cells = w :: args ∧ argc (opField w) = some n ∧ n ≤ args.length ∧ rest = args.drop n ∧
        decodeCell w (args.getD 0 0) (args.getD 1 0) (args.getD 2 0) = .ok i := by
  cases cells with
  | nil => simp [decode]
  | cons w args =>
    simp only [decode, List.cons.injEq]
    constructor
    · intro h
      split at h
      · cases h
      · rename_i n hn
        split at h
        · cases h
        · rename_i hlen
          split at h
          · rename_i j hj
            simp only [Except.ok.injEq, Prod.mk.injEq] at h
            obtain ⟨rfl, rfl⟩ := h
            exact ⟨w, args, n, ⟨rfl, rfl⟩, hn, Nat.not_lt.1 hlen, rfl, hj⟩
          · cases h
    · rintro ⟨w', args', n, ⟨rfl, rfl⟩, hn, hle, rfl, hd⟩
      simp only [hn, Nat.not_lt.2 hle, if_false]
      rw [hd]

/-- Fetch looks at IP, memory and the parameters only. -/
theorem State.fetchArgs_congr {s t : State} (hp : t.params = s.params) (hm : t.mem = s.mem) (a : Cell) (n : Nat) :
    t.fetchArgs a n = s.fetchArgs a n := by
  induction n generalizing a with
  | zero => rfl
  | succ n ih => simp only [State.fetchArgs, State.memRead, State.getValue_congr a hp hm, ih]

theorem State.fetch_congr {s t : State} (hr : t.regs = s.regs) (hp : t.params = s.params) (hm : t.mem = s.mem) :
    t.fetch = s.fetch := by
  simp only [State.fetch, State.memRead, State.pc, hr, State.getValue_congr _ hp hm,
    State.fetchArgs_congr hp hm]

/-! ## Step -/

/-- All that `Step()` can do: the fetch faults; or the host pauses; or the cells are decoded and dispatched. -/
theorem stepInstr_cases (s : State) :
    (∃ e, s.fetch = .error e ∧ stepInstr s = .next (s.raise e)) ∨
      ∃ cells, s.fetch = .ok cells ∧
        ((s.pauseAnswers.head? = some true ∧ stepInstr s = .next s.asked.pause) ∨
          (s.pauseAnswers.head? ≠ some true ∧ stepInstr s = s.asked.dispatch cells)) := by
  unfold stepInstr State.asked
  rcases hf : s.fetch with e | cells
  · exact .inl ⟨e, rfl, rfl⟩
  · refine .inr ⟨cells, rfl, ?_⟩
    rcases hp : s.pauseAnswers with _ | ⟨b, rest⟩
    · refine .inr ⟨by simp, ?_⟩
      simp only [List.tail_nil]
      rw [← hp]
    · cases b
      · exact .inr ⟨by simp, rfl⟩
      · exact .inl ⟨by simp, rfl⟩

/-- All that decoding and dispatching can do. -/
theorem State.dispatch_cases (s : State) (cells : List Cell) :
    (∃ i rest, decode cells = .ok (i, rest) ∧ s.dispatch cells = exec i s) ∨
      (∃ r, decode cells = .error r ∧ s.dispatch cells = .next (s.raise ⟨rejectFault r, s.pc⟩)) := by
  unfold State.dispatch
  rcases h : decode cells with r | ⟨i, rest⟩
  · exact .inr ⟨r, rfl, rfl⟩
  · exact .inl ⟨i, rest, rfl, rfl⟩

/-- A Halted core does nothing. -/
theorem step_of_halted {s : State} (h : s.run = .halted) : step s = .next s := by
  simp [step, h]

/-- A core that is not Halted starts one instruction. -/
theorem step_of_not_halted {s : State} (h : s.run ≠ .halted) : step s = stepInstr s.resume := by
  unfold step
  split
  · rename_i hh
    exact absurd hh h
  · rfl

end Sys2Proof.Machine
end

