-- ==== Sys2Proof/Laws/Encoding.lean ====
section
/-! SUPPORT. Encoding and decoding, field by field: the decoder's fields of an encoded instruction cell and of an
encoded argument word. -/

namespace Sys2Proof

/-- The byte fields of a packed argument word. -/
theorem aregField_pack (r sh : Byte) (off : Half) : aregField (off ++ sh ++ r : Cell) = r := by
  simp only [aregField]
  ext i hi
  have h0 : 0 + i < 8 := by omega
  simp only [BitVec.getElem_extractLsb', BitVec.getLsbD_append, h0, if_true]
  simp [hi]

theorem ashiftField_pack (r sh : Byte) (off : Half) : ashiftField (off ++ sh ++ r : Cell) = sh := by
  simp only [ashiftField]
  ext i hi
  have h1 : ¬ 8 + i < 8 := by omega
  have h2 : 8 + i - 8 < 8 := by omega
  simp only [BitVec.getElem_extractLsb', BitVec.getLsbD_append, h1, h2, if_true, if_false]
  simp [hi]

theorem aoffField_pack (r sh : Byte) (off : Half) : aoffField (off ++ sh ++ r : Cell) = off := by
  simp only [aoffField]
  ext i hi
  have h1 : ¬ 16 + i < 8 := by omega
  have h2 : ¬ 16 + i - 8 < 8 := by omega
  have h3 : 16 + i - 8 - 8 = i := by omega
  simp only [BitVec.getElem_extractLsb', BitVec.getLsbD_append, h1, h2, h3, if_false]
  simp [hi]

theorem aregField_setWidth (r : Byte) : aregField (r.setWidth 32) = r := by
  simp only [aregField]
  ext i hi
  have h1 : i < 32 := by omega
  simp [hi, h1]

/-- Reading an operand's own argument word under its own tag gives the operand back. -/
@[simp] theorem operandOf_tag_word (o : Operand) : operandOf o.tag o.word = o := by
  cases o with
  | imm v => rfl
  | reg r => simp [operandOf, Operand.tag, Operand.word, aregField_setWidth]
  | sta r sh off =>
    simp [operandOf, Operand.tag, Operand.word, aregField_pack, ashiftField_pack, aoffField_pack]
  | ind r sh off =>
    simp [operandOf, Operand.tag, Operand.word, aregField_pack, ashiftField_pack, aoffField_pack]

/-- The instruction cell of an encoding. -/
def headCell (op sub : Byte) (t2 t1 t0 : BitVec 2) : Cell :=
  (0 : Byte) ++ sub ++ (0 : BitVec 2) ++ t2 ++ t1 ++ t0 ++ op

theorem instrCells_eq (op sub : Byte) (args : List Operand) :
    instrCells op sub args =
      headCell op sub (tagAt args 2) (tagAt args 1) (tagAt args 0) :: args.map Operand.word := rfl

@[simp] theorem opField_headCell (op sub : Byte) (t2 t1 t0 : BitVec 2) :
    opField (headCell op sub t2 t1 t0) = op := by
  simp only [opField, headCell]
  ext i hi
  have h0 : 0 + i < 8 := by omega
  simp only [BitVec.getElem_extractLsb', BitVec.getLsbD_append, h0, if_true]
  simp [hi]

@[simp] theorem tagField_headCell_zero (op sub : Byte) (t2 t1 t0 : BitVec 2) :
    tagField (headCell op sub t2 t1 t0) 0 = t0 := by
  simp only [tagField, headCell]
  ext i hi
  have h1 : ¬ 8 + 2 * 0 + i < 8 := by omega
  have h2 : 8 + 2 * 0 + i - 8 = i := by omega
  simp only [BitVec.getElem_extractLsb', BitVec.getLsbD_append, h1, h2, if_false, hi, if_true]
  simp [hi]

@[simp] theorem tagField_headCell_one (op sub : Byte) (t2 t1 t0 : BitVec 2) :
    tagField (headCell op sub t2 t1 t0) 1 = t1 := by
  simp only [tagField, headCell]
  ext i hi
  have h1 : ¬ 8 + 2 * 1 + i < 8 := by omega
  have h2 : ¬ 8 + 2 * 1 + i - 8 < 2 := by omega
  have h3 : 8 + 2 * 1 + i - 8 - 2 = i := by omega
  simp only [BitVec.getElem_extractLsb', BitVec.getLsbD_append, h1, h2, h3, if_false, hi, if_true]
  simp [hi]

@[simp] theorem tagField_headCell_two (op sub : Byte) (t2 t1 t0 : BitVec 2) :
    tagField (headCell op sub t2 t1 t0) 2 = t2 := by
  simp only [tagField, headCell]
  ext i hi
  have h1 : ¬ 8 + 2 * 2 + i < 8 := by omega
  have h2 : ¬ 8 + 2 * 2 + i - 8 < 2 := by omega
  have h3 : ¬ 8 + 2 * 2 + i - 8 - 2 < 2 := by omega
  have h4 : 8 + 2 * 2 + i - 8 - 2 - 2 = i := by omega
  simp only [BitVec.getElem_extractLsb', BitVec.getLsbD_append, h1, h2, h3, h4, if_false, hi, if_true]
  simp [hi]

@[simp] theorem subField_headCell (op sub : Byte) (t2 t1 t0 : BitVec 2) :
    subField (headCell op sub t2 t1 t0) = sub := by
  simp only [subField, headCell]
  ext i hi
  have h1 : ¬ 16 + i < 8 := by omega
  have h2 : ¬ 16 + i - 8 < 2 := by omega
  have h3 : ¬ 16 + i - 8 - 2 < 2 := by omega
  have h4 : ¬ 16 + i - 8 - 2 - 2 < 2 := by omega
  have h5 : ¬ 16 + i - 8 - 2 - 2 - 2 < 2 := by omega
  have h6 : 16 + i - 8 - 2 - 2 - 2 - 2 = i := by omega
  simp only [BitVec.getElem_extractLsb', BitVec.getLsbD_append, h1, h2, h3, h4, h5, h6, if_false, hi, if_true]
  simp [hi]

end Sys2Proof
end

