-- ==== Sys2Proof/Laws/Registers.lean ====
section
/-! SUPPORT. The laws of the register file. -/

namespace Sys2Proof.Machine

/-- Reading a register after a write gives the value written, or what the register held. -/
theorem Regs.get_set (x : Regs) (r r' : RegId) (v : Cell) :
    (x.set r v).get r' = if r' = r then v else x.get r' := by
  cases r <;> cases r' <;> rfl

@[simp] theorem Regs.get_set_self (x : Regs) (r : RegId) (v : Cell) : (x.set r v).get r = v := by
  simp [Regs.get_set]

theorem Regs.get_set_of_ne (x : Regs) {r r' : RegId} (v : Cell) (h : r' ≠ r) :
    (x.set r v).get r' = x.get r' := by
  simp [Regs.get_set, h]

/-- Two register files with the same values are the same. -/
theorem Regs.ext_get {x y : Regs} (h : ∀ r, x.get r = y.get r) : x = y := by
  cases x; cases y
  simp only [Regs.mk.injEq]
  exact ⟨h .r0, h .r1, h .r2, h .r3, h .ip, h .sp, h .fp, h .sb, h .ss, h .src, h .dst, h .flags⟩

/-- After fetch only IP has moved. -/
theorem State.fetched_eq (s : State) (n : Nat) :
    s.fetched n = { s.regs with ip := s.pc + BitVec.ofNat 32 (1 + n) } := rfl

@[simp] theorem State.fetched_ip (s : State) (n : Nat) :
    (s.fetched n).ip = s.pc + BitVec.ofNat 32 (1 + n) := rfl

@[simp] theorem State.fetched_sp (s : State) (n : Nat) : (s.fetched n).sp = s.regs.sp := rfl

@[simp] theorem State.fetched_fp (s : State) (n : Nat) : (s.fetched n).fp = s.regs.fp := rfl

@[simp] theorem State.fetched_sb (s : State) (n : Nat) : (s.fetched n).sb = s.regs.sb := rfl

@[simp] theorem State.fetched_ss (s : State) (n : Nat) : (s.fetched n).ss = s.regs.ss := rfl

@[simp] theorem State.fetched_flags (s : State) (n : Nat) : (s.fetched n).flags = s.regs.flags := rfl

theorem State.fetched_get (s : State) (n : Nat) (r : RegId) :
    (s.fetched n).get r = if r = .ip then s.pc + BitVec.ofNat 32 (1 + n) else s.regs.get r :=
  Regs.get_set _ _ _ _

/-- The explicit destination write, register by register. -/
theorem Regs.setTo_get (x : Regs) (v : Cell) (L : Dest) (r : RegId) :
    (x.setTo v L).get r = if L = .reg r then v else x.get r := by
  cases L with
  | reg r' =>
    by_cases h : r = r'
    · simp [Regs.setTo, h]
    · simp [Regs.setTo, Regs.get_set, h, Ne.symm h]
  | mem ea => simp [Regs.setTo]

/-- The register number of each register is its own (10_state.md R11). -/
theorem regOf_eq_none_iff (b : Byte) : regOf b = none ↔ 12 ≤ b.toNat := by
  revert b; decide

end Sys2Proof.Machine
end

