-- ==== Sys2Proof/Laws/Operands.lean ====
section
/-! SUPPORT. What operand location, operand reads and operand writes can do, one lemma each. -/

namespace Sys2Proof.Machine

@[simp] theorem srcLoc_imm (x : Regs) (pc v : Cell) : srcLoc x pc (.imm v) = .ok (.imm v) := rfl

@[simp] theorem dstLoc_imm (x : Regs) (pc v : Cell) :
    dstLoc x pc (.imm v) = .error ⟨.invalidType, pc⟩ := rfl

/-- Resolving a destination raises only InvalidType or IllegalRegister, at the instruction's own address. -/
theorem dstLoc_error {x : Regs} {pc : Cell} {o : Operand} {e : ErrorEvent}
    (h : dstLoc x pc o = .error e) : e = ⟨.invalidType, pc⟩ ∨ e = ⟨.illegalRegister, pc⟩ := by
  cases o <;>
    simp only [dstLoc, registerOf, staticAddress, indirectAddress, indexValue, baseValue, shiftCheck,
      phase_eq_error] at h <;>
    (repeat' split at h) <;> simp_all

/-- Resolving a source raises only InvalidType or IllegalRegister, at the instruction's own address. -/
theorem srcLoc_error {x : Regs} {pc : Cell} {o : Operand} {e : ErrorEvent}
    (h : srcLoc x pc o = .error e) : e = ⟨.invalidType, pc⟩ ∨ e = ⟨.illegalRegister, pc⟩ := by
  cases o <;>
    simp only [srcLoc, registerOf, staticAddress, indirectAddress, indexValue, baseValue, shiftCheck,
      phase_eq_error] at h <;>
    (repeat' split at h) <;> simp_all

/-- Reading a location raises only the segmentation fault of its cell. -/
theorem State.readLoc_error {s : State} {x : Regs} {L : Loc} {e : ErrorEvent}
    (h : s.readLoc x L = .error e) : ∃ ea, L = .mem ea ∧ e = ⟨.segmentationFault, ea⟩ := by
  cases L with
  | imm v => cases h
  | reg r => cases h
  | mem ea => exact ⟨ea, rfl, (State.memRead_eq_error.1 h).2⟩

/-- Storing to a destination raises only the segmentation fault of its cell. -/
theorem State.storeTo_error {s : State} {v : Cell} {L : Dest} {e : ErrorEvent}
    (h : s.storeTo v L = .error e) : ∃ ea, L = .mem ea ∧ e = ⟨.segmentationFault, ea⟩ := by
  cases L with
  | reg r => cases h
  | mem ea =>
    refine ⟨ea, rfl, ?_⟩
    simp only [State.storeTo, State.memWrite] at h
    split at h
    · cases h
    · exact (Except.error.inj h).symm

/-- All that a destination write can do when it succeeds. -/
theorem State.storeTo_ok {s : State} {v : Cell} {L : Dest} {m : Memory} (h : s.storeTo v L = .ok m) :
    (∃ r, L = .reg r ∧ m = s.mem) ∨ (∃ ea, L = .mem ea ∧ s.setValue ea v = some m) := by
  cases L with
  | reg r => exact .inl ⟨r, rfl, (Except.ok.inj h).symm⟩
  | mem ea => exact .inr ⟨ea, rfl, State.memWrite_eq_ok.1 h⟩

/-- `commitTo` succeeds exactly when its store does, and then it is one `commit`. -/
theorem State.commitTo_eq_ok {s t : State} {x : Regs} {L : Dest} {v : Cell} {c : Nat} :
    s.commitTo x L v c = .ok t ↔ ∃ m, s.storeTo v L = .ok m ∧ t = s.commit (x.setTo v L) m c := by
  simp only [State.commitTo, phase_eq_ok, phase_pure, Except.ok.injEq]
  constructor <;> rintro ⟨m, h, rfl⟩ <;> exact ⟨m, h, rfl⟩

theorem State.commitTo_eq_error {s : State} {x : Regs} {L : Dest} {v : Cell} {c : Nat} {e : ErrorEvent} :
    s.commitTo x L v c = .error e ↔ s.storeTo v L = .error e := by
  simp [State.commitTo, phase_eq_error]

end Sys2Proof.Machine
end

