-- ==== Sys2Proof/Laws/Ports.lean ====
section
/-! SUPPORT. What a port transaction can do, said once (spec/20_memory.md R38, R39). -/

namespace Sys2Proof.Machine

/-- A `PortRead` uses at most one answer or one free draw; a delivered cell is appended to the history. -/
theorem State.portRead_shape (s : State) (p : Nat) :
    ∃ ra d, (s.portRead p).2 =
      { s with
        readAnswers := ra
        drawn := d
        portHistory := s.portHistory ++ ((s.portRead p).1.map (PortEvent.input p)).toList } := by
  unfold State.portRead
  split
  · exact ⟨s.readAnswers, s.drawn, by simp⟩
  · rcases s.readAnswers with _ | ⟨a, rest⟩
    · rcases Config.readAnswer s.drawn p with _ | v
      · exact ⟨[], s.drawn + 1, by simp⟩
      · exact ⟨[], s.drawn + 1, by simp⟩
    · rcases a with _ | v
      · exact ⟨rest, s.drawn, by simp⟩
      · exact ⟨rest, s.drawn, by simp⟩

/-- A `PortWrite` uses at most one answer or one free draw; an accepted cell is appended to the history. -/
theorem State.portWrite_shape (s : State) (p : Nat) (v : Cell) :
    ∃ wa d, (s.portWrite p v).2 =
      { s with
        writeAnswers := wa
        drawn := d
        portHistory := s.portHistory ++ (if (s.portWrite p v).1 then [PortEvent.output p v] else []) } := by
  unfold State.portWrite
  split
  · exact ⟨s.writeAnswers, s.drawn, by simp⟩
  · rcases s.writeAnswers with _ | ⟨a, rest⟩
    · cases Config.writeAnswer s.drawn p v
      · exact ⟨[], s.drawn + 1, by simp⟩
      · exact ⟨[], s.drawn + 1, by simp⟩
    · cases a
      · exact ⟨rest, s.drawn, by simp⟩
      · exact ⟨rest, s.drawn, by simp⟩

/-- Port 1 never answers. -/
@[simp] theorem State.portRead_disk (s : State) : s.portRead diskPort = (none, s) := by
  simp [State.portRead]

@[simp] theorem State.portWrite_disk (s : State) (v : Cell) : s.portWrite diskPort v = (false, s) := by
  simp [State.portWrite]

end Sys2Proof.Machine
end

