-- ==== Sys2Proof/Laws/Exec.lean ====
section
/-! SUPPORT. What an instruction can do, said once: every meaning answers a next state of one of the shapes of
`ExecShape`. Statements about all instructions are derived from it. -/

namespace Sys2Proof.Machine

/-- The memory after at most one accepted write. -/
def State.oneWrite (s : State) (m : Memory) : Prop :=
  m = s.mem ∨ ∃ a v, s.setValue a v = some m

/-- Segmentation faults report a cell the provider refuses, all others the instruction's own address
(60_exceptions.md R136). -/
def State.ownAddress (s : State) (e : ErrorEvent) : Prop :=
  (e.kind = .segmentationFault → ¬ s.acceptsAt e.addr) ∧ (e.kind ≠ .segmentationFault → e.addr = s.pc)

theorem State.ownAddress_pc (s : State) {k : FaultKind} (h : k ≠ .segmentationFault) :
    s.ownAddress ⟨k, s.pc⟩ :=
  ⟨fun hk => absurd hk h, fun _ => rfl⟩

/-- A cell that cannot be read cannot be written either. -/
theorem State.ownAddress_cell {s : State} {a : Cell} (h : s.params.memSize ≤ a.toNat) :
    s.ownAddress ⟨.segmentationFault, a⟩ :=
  ⟨fun _ ha => absurd ha.1 (Nat.not_lt.2 h), fun hk => absurd rfl hk⟩

/-- The shapes of the state after an instruction executed in `s`. -/
inductive ExecShape (i : Instr) (s : State) : State → Prop
  /-- It completed: registers, at most one memory write, its cost. -/
  | completes (x : Regs) (m : Memory) (hm : s.oneWrite m) (hi : i ≠ .halt ∧ i ≠ .sect) :
      ExecShape i s (s.commit x m (i.cost s.params))
  /-- It is HALT. -/
  | halts (hi : i = .halt) : ExecShape i s (s.commitHalt (s.fetched 0) (i.cost s.params))
  /-- It raised a fault. -/
  | raises (e : ErrorEvent) (he : s.ownAddress e) (hi : i ≠ .halt) : ExecShape i s (s.raise e)
  /-- It is IN and the host was not ready. -/
  | inWaits (a0 a1 : Operand) (p : Nat) (hi : i = .inPort a0 a1) (h : (s.portRead p).1 = none) :
      ExecShape i s (s.portRead p).2.wait
  /-- It is IN and the cell reached its destination. -/
  | inputs (a0 a1 : Operand) (p : Nat) (v : Cell) (x : Regs) (m : Memory) (hi : i = .inPort a0 a1)
      (h : (s.portRead p).1 = some v) (hm : s.oneWrite m) :
      ExecShape i s ((s.portRead p).2.commit x m (i.cost s.params))
  /-- It is IN and the cell was lost to the fault of its memory destination. -/
  | loses (a0 a1 : Operand) (p : Nat) (v ea : Cell) (hi : i = .inPort a0 a1)
      (hd : s.locates 2 a0 (.mem ea)) (ha : ¬ s.acceptsAt ea) (h : (s.portRead p).1 = some v) :
      ExecShape i s ((s.portRead p).2.raise ⟨.segmentationFault, ea⟩)
  /-- It is OUT and the host was not ready. -/
  | outWaits (a0 a1 : Operand) (p : Nat) (v : Cell) (hi : i = .outPort a0 a1)
      (h : (s.portWrite p v).1 = false) : ExecShape i s (s.portWrite p v).2.wait
  /-- It is OUT and the host accepted the cell. -/
  | outputs (a0 a1 : Operand) (p : Nat) (v : Cell) (hi : i = .outPort a0 a1)
      (h : (s.portWrite p v).1 = true) :
      ExecShape i s ((s.portWrite p v).2.commit (s.fetched 2) s.mem (i.cost s.params))

/-! ## The phases raise only faults at their own addresses -/

theorem State.ownAddress_src {s : State} {x : Regs} {o : Operand} {e : ErrorEvent}
    (h : srcLoc x s.pc o = .error e) : s.ownAddress e := by
  rcases srcLoc_error h with rfl | rfl <;> exact s.ownAddress_pc (by decide)

theorem State.ownAddress_dst {s : State} {x : Regs} {o : Operand} {e : ErrorEvent}
    (h : dstLoc x s.pc o = .error e) : s.ownAddress e := by
  rcases dstLoc_error h with rfl | rfl <;> exact s.ownAddress_pc (by decide)

theorem State.ownAddress_read {s : State} {x : Regs} {L : Loc} {e : ErrorEvent}
    (h : s.readLoc x L = .error e) : s.ownAddress e := by
  obtain ⟨ea, rfl, rfl⟩ := State.readLoc_error h
  exact State.ownAddress_cell (State.memRead_eq_error.1 h).1

theorem State.ownAddress_store {s : State} {v : Cell} {L : Dest} {e : ErrorEvent}
    (h : s.storeTo v L = .error e) : s.ownAddress e := by
  obtain ⟨ea, rfl, rfl⟩ := State.storeTo_error h
  refine ⟨fun _ ha => ?_, fun hk => absurd rfl hk⟩
  obtain ⟨m, hm⟩ := (State.setValue_isSome_iff s ea v).2 ha
  simp only [State.storeTo, State.memWrite] at h
  split at h
  · cases h
  · rename_i hn
    rw [hn] at hm
    cases hm

theorem State.ownAddress_memRead {s : State} {a : Cell} {e : ErrorEvent}
    (h : s.memRead a = .error e) : s.ownAddress e := by
  obtain ⟨hle, rfl⟩ := State.memRead_eq_error.1 h
  exact State.ownAddress_cell hle

theorem State.ownAddress_memWrite {s : State} {a v : Cell} {e : ErrorEvent}
    (h : s.memWrite a v = .error e) : s.ownAddress e :=
  State.ownAddress_store (L := .mem a) h

theorem State.ownAddress_overflow {s : State} {x : Regs} {k : Nat} {e : ErrorEvent}
    (h : overflowCheck x s.pc k = .error e) : s.ownAddress e := by
  unfold overflowCheck at h
  split at h
  · cases h; exact s.ownAddress_pc (by decide)
  · cases h

theorem State.ownAddress_underflow {s : State} {x : Regs} {top : Cell} {k : Nat} {e : ErrorEvent}
    (h : underflowCheck x s.pc top k = .error e) : s.ownAddress e := by
  unfold underflowCheck at h
  split at h
  · cases h; exact s.ownAddress_pc (by decide)
  · cases h

theorem State.oneWrite_storeTo {s : State} {v : Cell} {L : Dest} {m : Memory} (h : s.storeTo v L = .ok m) :
    s.oneWrite m := by
  rcases State.storeTo_ok h with ⟨_, _, h⟩ | ⟨ea, _, h⟩
  · exact .inl h
  · exact .inr ⟨ea, v, h⟩

theorem State.oneWrite_memWrite {s : State} {a v : Cell} {m : Memory} (h : s.memWrite a v = .ok m) :
    s.oneWrite m :=
  .inr ⟨a, v, State.memWrite_eq_ok.1 h⟩

/-- An instruction that settles its phases completes or raises, if every success is a commit at its cost and every
error is at its own address. -/
theorem ExecShape.of_settle {i : Instr} {s : State} {r : Except ErrorEvent State} (hi : i ≠ .halt ∧ i ≠ .sect)
    (hok : ∀ t, r = .ok t → ∃ x m, s.oneWrite m ∧ t = s.commit x m (i.cost s.params))
    (herr : ∀ e, r = .error e → s.ownAddress e) : ExecShape i s (s.settle r) := by
  cases r with
  | ok t =>
    obtain ⟨x, m, hm, rfl⟩ := hok t rfl
    exact .completes x m hm hi
  | error e => exact .raises e (herr e rfl) hi.1

/-! ## The shared bodies -/

theorem State.binaryWith_shape {i : Instr} {s : State} {f : Cell → Cell → Except ErrorEvent Cell}
    (a0 a1 a2 : Operand) (hi : i ≠ .halt ∧ i ≠ .sect) (hf : ∀ p q e, f p q = .error e → s.ownAddress e) :
    ExecShape i s (s.binaryWith (i.cost s.params) f a0 a1 a2) := by
  refine ExecShape.of_settle hi (fun t h => ?_) (fun e h => ?_)
  · simp only [phase_eq_ok, State.commitTo_eq_ok] at h
    obtain ⟨l0, _, l1, _, l2, _, p, _, q, _, r, _, m, hm, rfl⟩ := h
    exact ⟨_, m, State.oneWrite_storeTo hm, rfl⟩
  · simp only [phase_eq_error, State.commitTo_eq_error] at h
    rcases h with h | ⟨l0, _, h | ⟨l1, _, h | ⟨l2, _, h | ⟨p, _, h | ⟨q, _, h | ⟨r, _, h⟩⟩⟩⟩⟩⟩
    · exact State.ownAddress_dst h
    · exact State.ownAddress_src h
    · exact State.ownAddress_src h
    · exact State.ownAddress_read h
    · exact State.ownAddress_read h
    · exact hf _ _ _ h
    · exact State.ownAddress_store h

theorem State.binary_shape {i : Instr} {s : State} {f : Cell → Cell → Cell} (a0 a1 a2 : Operand)
    (hi : i ≠ .halt ∧ i ≠ .sect) : ExecShape i s (s.binary (i.cost s.params) f a0 a1 a2) :=
  State.binaryWith_shape a0 a1 a2 hi (fun _ _ _ h => by cases h)

theorem State.division_shape {i : Instr} {s : State} {f : Cell → Cell → Cell} (a0 a1 a2 : Operand)
    (hi : i ≠ .halt ∧ i ≠ .sect) : ExecShape i s (s.division (i.cost s.params) f a0 a1 a2) := by
  refine State.binaryWith_shape a0 a1 a2 hi (fun p q e h => ?_)
  split at h
  · cases h; exact s.ownAddress_pc (by decide)
  · cases h

theorem State.unary_shape {i : Instr} {s : State} {f : Cell → Cell} (a0 a1 : Operand)
    (hi : i ≠ .halt ∧ i ≠ .sect) : ExecShape i s (s.unary (i.cost s.params) f a0 a1) := by
  refine ExecShape.of_settle hi (fun t h => ?_) (fun e h => ?_)
  · simp only [phase_eq_ok, State.commitTo_eq_ok] at h
    obtain ⟨l0, _, l1, _, p, _, m, hm, rfl⟩ := h
    exact ⟨_, m, State.oneWrite_storeTo hm, rfl⟩
  · simp only [phase_eq_error, State.commitTo_eq_error] at h
    rcases h with h | ⟨l0, _, h | ⟨l1, _, h | ⟨p, _, h⟩⟩⟩
    · exact State.ownAddress_dst h
    · exact State.ownAddress_src h
    · exact State.ownAddress_read h
    · exact State.ownAddress_store h

theorem State.compare_shape {i : Instr} {s : State} {f : Cell → Cell → Cell} (a0 a1 : Operand)
    (hi : i ≠ .halt ∧ i ≠ .sect) (hc : i.cost s.params = 1) : ExecShape i s (s.compare f a0 a1) := by
  refine ExecShape.of_settle hi (fun t h => ?_) (fun e h => ?_)
  · simp only [phase_eq_ok, phase_pure, Except.ok.injEq] at h
    obtain ⟨l0, _, l1, _, p, _, q, _, rfl⟩ := h
    exact ⟨_, s.mem, .inl rfl, by rw [hc]⟩
  · simp only [phase_eq_error, phase_pure] at h
    rcases h with h | ⟨l0, _, h | ⟨l1, _, h | ⟨p, _, h | ⟨q, _, h⟩⟩⟩⟩
    · exact State.ownAddress_src h
    · exact State.ownAddress_src h
    · exact State.ownAddress_read h
    · exact State.ownAddress_read h
    · cases h

theorem State.jumpIf_shape {i : Instr} {s : State} (c : Condition) (a0 : Operand)
    (hi : i ≠ .halt ∧ i ≠ .sect) (hc : i.cost s.params = 1) : ExecShape i s (s.jumpIf c a0) := by
  refine ExecShape.of_settle hi (fun t h => ?_) (fun e h => ?_)
  · simp only [phase_eq_ok, phase_pure, Except.ok.injEq] at h
    obtain ⟨l0, _, v, _, rfl⟩ := h
    exact ⟨_, s.mem, .inl rfl, by rw [hc]⟩
  · simp only [phase_eq_error, phase_pure] at h
    rcases h with h | ⟨l0, _, h | ⟨v, _, h⟩⟩
    · exact State.ownAddress_src h
    · exact State.ownAddress_read h
    · cases h

/-! ## The instructions with a body of their own -/

theorem execPush_shape (a0 : Operand) (s : State) :
    ∃ t, execPush a0 s = .next t ∧ ExecShape (.push a0) s t := by
  refine ⟨_, rfl, ExecShape.of_settle (by simp) (fun t h => ?_) (fun e h => ?_)⟩
  · simp only [phase_eq_ok, phase_pure, Except.ok.injEq] at h
    obtain ⟨l0, _, v, _, _, _, m, hm, rfl⟩ := h
    exact ⟨_, m, State.oneWrite_memWrite hm, rfl⟩
  · simp only [phase_eq_error, phase_pure] at h
    rcases h with h | ⟨l0, _, h | ⟨v, _, h | ⟨_, _, h | ⟨m, _, h⟩⟩⟩⟩
    · exact State.ownAddress_src h
    · exact State.ownAddress_read h
    · exact State.ownAddress_overflow h
    · exact State.ownAddress_memWrite h
    · cases h

theorem execPop_shape (a0 : Operand) (s : State) :
    ∃ t, execPop a0 s = .next t ∧ ExecShape (.pop a0) s t := by
  refine ⟨_, rfl, ExecShape.of_settle (by simp) (fun t h => ?_) (fun e h => ?_)⟩
  · simp only [phase_eq_ok, State.commitTo_eq_ok] at h
    obtain ⟨l0, _, _, _, v, _, m, hm, rfl⟩ := h
    exact ⟨_, m, State.oneWrite_storeTo hm, rfl⟩
  · simp only [phase_eq_error, State.commitTo_eq_error] at h
    rcases h with h | ⟨l0, _, h | ⟨_, _, h | ⟨v, _, h⟩⟩⟩
    · exact State.ownAddress_dst h
    · exact State.ownAddress_underflow h
    · exact State.ownAddress_memRead h
    · exact State.ownAddress_store h

theorem execJmp_shape (a0 : Operand) (s : State) :
    ∃ t, execJmp a0 s = .next t ∧ ExecShape (.jmp a0) s t := by
  refine ⟨_, rfl, ExecShape.of_settle (by simp) (fun t h => ?_) (fun e h => ?_)⟩
  · simp only [phase_eq_ok, phase_pure, Except.ok.injEq] at h
    obtain ⟨l0, _, v, _, rfl⟩ := h
    exact ⟨_, s.mem, .inl rfl, rfl⟩
  · simp only [phase_eq_error, phase_pure] at h
    rcases h with h | ⟨l0, _, h | ⟨v, _, h⟩⟩
    · exact State.ownAddress_src h
    · exact State.ownAddress_read h
    · cases h

theorem execCall_shape (a0 : Operand) (s : State) :
    ∃ t, execCall a0 s = .next t ∧ ExecShape (.call a0) s t := by
  refine ⟨_, rfl, ExecShape.of_settle (by simp) (fun t h => ?_) (fun e h => ?_)⟩
  · simp only [phase_eq_ok, phase_pure, Except.ok.injEq] at h
    obtain ⟨l0, _, v, _, _, _, m, hm, rfl⟩ := h
    exact ⟨_, m, State.oneWrite_memWrite hm, rfl⟩
  · simp only [phase_eq_error, phase_pure] at h
    rcases h with h | ⟨l0, _, h | ⟨v, _, h | ⟨_, _, h | ⟨m, _, h⟩⟩⟩⟩
    · exact State.ownAddress_src h
    · exact State.ownAddress_read h
    · exact State.ownAddress_overflow h
    · exact State.ownAddress_memWrite h
    · cases h

theorem execRet_shape (a0 a1 : Operand) (s : State) :
    ∃ t, execRet a0 a1 s = .next t ∧ ExecShape (.ret a0 a1) s t := by
  refine ⟨_, rfl, ExecShape.of_settle (by simp) (fun t h => ?_) (fun e h => ?_)⟩
  · simp only [phase_eq_ok, phase_pure, Except.ok.injEq] at h
    obtain ⟨l0, _, l1, _, b, _, k, _, _, _, ra, _, rfl⟩ := h
    exact ⟨_, s.mem, .inl rfl, rfl⟩
  · simp only [phase_eq_error, phase_pure] at h
    rcases h with h | ⟨l0, _, h | ⟨l1, _, h | ⟨b, _, h | ⟨k, _, h | ⟨_, _, h | ⟨ra, _, h⟩⟩⟩⟩⟩⟩
    · exact State.ownAddress_src h
    · exact State.ownAddress_src h
    · exact State.ownAddress_read h
    · exact State.ownAddress_read h
    · exact State.ownAddress_underflow h
    · exact State.ownAddress_memRead h
    · cases h

theorem execEnter_shape (a0 : Operand) (s : State) :
    ∃ t, execEnter a0 s = .next t ∧ ExecShape (.enter a0) s t := by
  refine ⟨_, rfl, ExecShape.of_settle (by simp) (fun t h => ?_) (fun e h => ?_)⟩
  · simp only [phase_eq_ok, phase_pure, Except.ok.injEq] at h
    obtain ⟨l0, _, k, _, _, _, m, hm, rfl⟩ := h
    exact ⟨_, m, State.oneWrite_memWrite hm, rfl⟩
  · simp only [phase_eq_error, phase_pure] at h
    rcases h with h | ⟨l0, _, h | ⟨k, _, h | ⟨_, _, h | ⟨m, _, h⟩⟩⟩⟩
    · exact State.ownAddress_src h
    · exact State.ownAddress_read h
    · exact State.ownAddress_overflow h
    · exact State.ownAddress_memWrite h
    · cases h

theorem execLeave_shape (s : State) : ∃ t, execLeave s = .next t ∧ ExecShape .leave s t := by
  refine ⟨_, rfl, ExecShape.of_settle (by simp) (fun t h => ?_) (fun e h => ?_)⟩
  · simp only [phase_eq_ok, phase_pure, Except.ok.injEq] at h
    obtain ⟨_, _, v, _, rfl⟩ := h
    exact ⟨_, s.mem, .inl rfl, rfl⟩
  · simp only [phase_eq_error, phase_pure] at h
    rcases h with h | ⟨_, _, h | ⟨v, _, h⟩⟩
    · exact State.ownAddress_underflow h
    · exact State.ownAddress_memRead h
    · cases h

theorem execMov_shape (a0 a1 : Operand) (s : State) :
    ∃ t, execMov a0 a1 s = .next t ∧ ExecShape (.mov a0 a1) s t := by
  refine ⟨_, rfl, ExecShape.of_settle (by simp) (fun t h => ?_) (fun e h => ?_)⟩
  · simp only [phase_eq_ok, State.commitTo_eq_ok] at h
    obtain ⟨l0, _, l1, _, v, _, m, hm, rfl⟩ := h
    exact ⟨_, m, State.oneWrite_storeTo hm, rfl⟩
  · simp only [phase_eq_error, State.commitTo_eq_error] at h
    rcases h with h | ⟨l0, _, h | ⟨l1, _, h | ⟨v, _, h⟩⟩⟩
    · exact State.ownAddress_dst h
    · exact State.ownAddress_src h
    · exact State.ownAddress_read h
    · exact State.ownAddress_store h

theorem State.portCheck_error {s : State} {p : Cell} {e : ErrorEvent} (h : s.portCheck p = .error e) :
    e = ⟨.invalidPort, s.pc⟩ := by
  unfold State.portCheck at h
  split at h
  · cases h
  · exact (Except.error.inj h).symm

/-- A port transaction changes neither registers, memory nor parameters. -/
theorem State.portRead_core (s : State) (p : Nat) :
    (s.portRead p).2.regs = s.regs ∧ (s.portRead p).2.mem = s.mem ∧ (s.portRead p).2.params = s.params := by
  obtain ⟨ra, d, h⟩ := State.portRead_shape s p
  rw [h]
  exact ⟨rfl, rfl, rfl⟩

theorem State.portWrite_core (s : State) (p : Nat) (v : Cell) :
    (s.portWrite p v).2.regs = s.regs ∧ (s.portWrite p v).2.mem = s.mem ∧
      (s.portWrite p v).2.params = s.params := by
  obtain ⟨wa, d, h⟩ := State.portWrite_shape s p v
  rw [h]
  exact ⟨rfl, rfl, rfl⟩

theorem State.fetched_congr {s t : State} (n : Nat) (h : t.regs = s.regs) : t.fetched n = s.fetched n := by
  simp [State.fetched, State.pc, h]

theorem State.setValue_congr {s t : State} (a v : Cell) (hp : t.params = s.params) (hm : t.mem = s.mem) :
    t.setValue a v = s.setValue a v := by
  simp [State.setValue, hp, hm]

theorem State.storeTo_congr {s t : State} (v : Cell) (L : Dest) (hp : t.params = s.params)
    (hm : t.mem = s.mem) : t.storeTo v L = s.storeTo v L := by
  cases L <;> simp [State.storeTo, State.memWrite, State.setValue_congr _ _ hp hm, hm]

theorem execInPort_shape (a0 a1 : Operand) (s : State) :
    ∃ t, execInPort a0 a1 s = .next t ∧ ExecShape (.inPort a0 a1) s t := by
  refine ⟨_, rfl, ?_⟩
  rcases hph : s.inPhases a0 a1 with e | ⟨l0, p⟩
  · refine .raises e ?_ (by simp)
    simp only [State.inPhases, phase_eq_error, phase_pure] at hph
    rcases hph with h | ⟨_, _, h | ⟨_, _, h | ⟨_, _, h | ⟨_, _, h⟩⟩⟩⟩
    · exact State.ownAddress_dst h
    · exact State.ownAddress_src h
    · exact State.ownAddress_read h
    · rw [State.portCheck_error h]
      exact s.ownAddress_pc (by decide)
    · cases h
  · obtain ⟨hregs, hmem, hparams⟩ := State.portRead_core s p
    simp only
    rcases hans : (s.portRead p).1 with _ | v
    · exact .inWaits a0 a1 p rfl hans
    · simp only [State.finishIn]
      rcases State.settle_cases (s.portRead p).2
          ((s.portRead p).2.commitTo ((s.portRead p).2.fetched 2) l0 v 1) with ⟨t, h, ht⟩ | ⟨e, h, ht⟩
      · rw [ht]
        obtain ⟨m, hm, rfl⟩ := State.commitTo_eq_ok.1 h
        rw [State.storeTo_congr v l0 hparams hmem] at hm
        exact .inputs a0 a1 p v _ m rfl hans (State.oneWrite_storeTo hm)
      · rw [ht]
        obtain ⟨ea, rfl, rfl⟩ := State.storeTo_error (State.commitTo_eq_error.1 h)
        simp only [State.inPhases, phase_eq_ok, phase_pure, Except.ok.injEq, Prod.mk.injEq] at hph
        obtain ⟨l0, hl0, _, _, _, _, _, _, rfl, _⟩ := hph
        have herr := State.commitTo_eq_error.1 h
        rw [State.storeTo_congr v (.mem ea) hparams hmem] at herr
        exact .loses a0 a1 p v ea rfl hl0 ((State.ownAddress_store herr).1 rfl) hans

theorem execOutPort_shape (a0 a1 : Operand) (s : State) :
    ∃ t, execOutPort a0 a1 s = .next t ∧ ExecShape (.outPort a0 a1) s t := by
  refine ⟨_, rfl, ?_⟩
  rcases hph : s.outPhases a0 a1 with e | ⟨p, v⟩
  · refine .raises e ?_ (by simp)
    simp only [State.outPhases, phase_eq_error, phase_pure] at hph
    rcases hph with h | ⟨_, _, h | ⟨_, _, h | ⟨_, _, h | ⟨_, _, h | ⟨_, _, h⟩⟩⟩⟩⟩
    · exact State.ownAddress_src h
    · exact State.ownAddress_src h
    · exact State.ownAddress_read h
    · exact State.ownAddress_read h
    · rw [State.portCheck_error h]
      exact s.ownAddress_pc (by decide)
    · cases h
  · obtain ⟨hregs, hmem, hparams⟩ := State.portWrite_core s p v
    simp only
    rcases hans : (s.portWrite p v).1
    · exact .outWaits a0 a1 p v rfl hans
    · simp only [State.finishOut, hmem, State.fetched_congr 2 hregs]
      exact .outputs a0 a1 p v rfl hans

/-- EVERY instruction answers a next state of one of the shapes. -/
theorem exec_shape (i : Instr) (s : State) : ∃ t, exec i s = .next t ∧ ExecShape i s t := by
  cases i with
  | nop => exact ⟨_, rfl, .completes (i := .nop) _ _ (.inl rfl) (by simp)⟩
  | halt => exact ⟨_, rfl, .halts (i := .halt) rfl⟩
  | sect => exact ⟨_, rfl, .raises _ (s.ownAddress_pc (by decide)) (by simp)⟩
  | push a0 => exact execPush_shape a0 s
  | pop a0 => exact execPop_shape a0 s
  | jmp a0 => exact execJmp_shape a0 s
  | call a0 => exact execCall_shape a0 s
  | ret a0 a1 => exact execRet_shape a0 a1 s
  | enter a0 => exact execEnter_shape a0 s
  | leave => exact execLeave_shape s
  | mov a0 a1 => exact execMov_shape a0 a1 s
  | inPort a0 a1 => exact execInPort_shape a0 a1 s
  | outPort a0 a1 => exact execOutPort_shape a0 a1 s
  | jmpcEq a0 => exact ⟨_, rfl, State.jumpIf_shape _ a0 (by simp) rfl⟩
  | jmpcNe a0 => exact ⟨_, rfl, State.jumpIf_shape _ a0 (by simp) rfl⟩
  | jmpcGt a0 => exact ⟨_, rfl, State.jumpIf_shape _ a0 (by simp) rfl⟩
  | jmpcLt a0 => exact ⟨_, rfl, State.jumpIf_shape _ a0 (by simp) rfl⟩
  | jmpcGe a0 => exact ⟨_, rfl, State.jumpIf_shape _ a0 (by simp) rfl⟩
  | jmpcLe a0 => exact ⟨_, rfl, State.jumpIf_shape _ a0 (by simp) rfl⟩
  | div a0 a1 a2 => exact ⟨_, rfl, State.division_shape (i := .div a0 a1 a2) a0 a1 a2 (by simp)⟩
  | mod a0 a1 a2 => exact ⟨_, rfl, State.division_shape (i := .mod a0 a1 a2) a0 a1 a2 (by simp)⟩
  | udiv a0 a1 a2 => exact ⟨_, rfl, State.division_shape (i := .udiv a0 a1 a2) a0 a1 a2 (by simp)⟩
  | umod a0 a1 a2 => exact ⟨_, rfl, State.division_shape (i := .umod a0 a1 a2) a0 a1 a2 (by simp)⟩
  | add a0 a1 a2 => exact ⟨_, rfl, State.binary_shape (i := .add a0 a1 a2) a0 a1 a2 (by simp)⟩
  | sub a0 a1 a2 => exact ⟨_, rfl, State.binary_shape (i := .sub a0 a1 a2) a0 a1 a2 (by simp)⟩
  | mul a0 a1 a2 => exact ⟨_, rfl, State.binary_shape (i := .mul a0 a1 a2) a0 a1 a2 (by simp)⟩
  | and a0 a1 a2 => exact ⟨_, rfl, State.binary_shape (i := .and a0 a1 a2) a0 a1 a2 (by simp)⟩
  | or a0 a1 a2 => exact ⟨_, rfl, State.binary_shape (i := .or a0 a1 a2) a0 a1 a2 (by simp)⟩
  | xor a0 a1 a2 => exact ⟨_, rfl, State.binary_shape (i := .xor a0 a1 a2) a0 a1 a2 (by simp)⟩
  | shl a0 a1 a2 => exact ⟨_, rfl, State.binary_shape (i := .shl a0 a1 a2) a0 a1 a2 (by simp)⟩
  | shr a0 a1 a2 => exact ⟨_, rfl, State.binary_shape (i := .shr a0 a1 a2) a0 a1 a2 (by simp)⟩
  | sar a0 a1 a2 => exact ⟨_, rfl, State.binary_shape (i := .sar a0 a1 a2) a0 a1 a2 (by simp)⟩
  | fadd a0 a1 a2 => exact ⟨_, rfl, State.binary_shape (i := .fadd a0 a1 a2) a0 a1 a2 (by simp)⟩
  | fsub a0 a1 a2 => exact ⟨_, rfl, State.binary_shape (i := .fsub a0 a1 a2) a0 a1 a2 (by simp)⟩
  | fmul a0 a1 a2 => exact ⟨_, rfl, State.binary_shape (i := .fmul a0 a1 a2) a0 a1 a2 (by simp)⟩
  | fdiv a0 a1 a2 => exact ⟨_, rfl, State.binary_shape (i := .fdiv a0 a1 a2) a0 a1 a2 (by simp)⟩
  | neg a0 a1 => exact ⟨_, rfl, State.unary_shape (i := .neg a0 a1) a0 a1 (by simp)⟩
  | not a0 a1 => exact ⟨_, rfl, State.unary_shape (i := .not a0 a1) a0 a1 (by simp)⟩
  | fneg a0 a1 => exact ⟨_, rfl, State.unary_shape (i := .fneg a0 a1) a0 a1 (by simp)⟩
  | fabs a0 a1 => exact ⟨_, rfl, State.unary_shape (i := .fabs a0 a1) a0 a1 (by simp)⟩
  | fsqrt a0 a1 => exact ⟨_, rfl, State.unary_shape (i := .fsqrt a0 a1) a0 a1 (by simp)⟩
  | fsin a0 a1 => exact ⟨_, rfl, State.unary_shape (i := .fsin a0 a1) a0 a1 (by simp)⟩
  | fcos a0 a1 => exact ⟨_, rfl, State.unary_shape (i := .fcos a0 a1) a0 a1 (by simp)⟩
  | itof a0 a1 => exact ⟨_, rfl, State.unary_shape (i := .itof a0 a1) a0 a1 (by simp)⟩
  | ftoi a0 a1 => exact ⟨_, rfl, State.unary_shape (i := .ftoi a0 a1) a0 a1 (by simp)⟩
  | cmpI32 a0 a1 => exact ⟨_, rfl, State.compare_shape a0 a1 (by simp) rfl⟩
  | cmpI16 a0 a1 => exact ⟨_, rfl, State.compare_shape a0 a1 (by simp) rfl⟩
  | cmpI8 a0 a1 => exact ⟨_, rfl, State.compare_shape a0 a1 (by simp) rfl⟩
  | cmpU32 a0 a1 => exact ⟨_, rfl, State.compare_shape a0 a1 (by simp) rfl⟩
  | cmpU16 a0 a1 => exact ⟨_, rfl, State.compare_shape a0 a1 (by simp) rfl⟩
  | cmpU8 a0 a1 => exact ⟨_, rfl, State.compare_shape a0 a1 (by simp) rfl⟩
  | cmpF32 a0 a1 => exact ⟨_, rfl, State.compare_shape a0 a1 (by simp) rfl⟩

end Sys2Proof.Machine
end

