-- ==== Sys2Proof/Laws/Float.lean ====
section
/-! SUPPORT. Binary32 encodings as naturals, the decomposition behind `roundBits`, and the floor of a square root:
the lemmas from which correct rounding is derived (spec/44_binary_ops.md R95, 93_implementation_defined.md G1, G2). -/

namespace Sys2Proof.Machine

/-! ## Magnitudes by encoding -/

/-- The magnitude of the float whose bits below the sign are `b`, in units of `2^-149`. -/
def magBits (b : Nat) : Nat :=
  if b / 2 ^ 23 = 0 then b % 2 ^ 23 else (2 ^ 23 + b % 2 ^ 23) * 2 ^ (b / 2 ^ 23 - 1)

theorem expField_eq (v : Cell) : expField v = v.toNat % 2 ^ 31 / 2 ^ 23 := by
  simp only [expField, BitVec.extractLsb'_toNat, Nat.shiftRight_eq_div_pow]
  omega

theorem fracField_eq (v : Cell) : fracField v = v.toNat % 2 ^ 31 % 2 ^ 23 := by
  simp only [fracField, BitVec.extractLsb'_toNat, Nat.shiftRight_zero]
  omega

theorem floatMag_eq (v : Cell) : floatMag v = magBits (v.toNat % 2 ^ 31) := by
  simp only [floatMag, magBits, expField_eq, fracField_eq]

/-- A step count `q` at scale `k` is the magnitude of the encoding `k * 2^23 + q`, for subnormals, normals and a
carry into the exponent alike. -/
theorem magBits_scaled {k q : Nat} (hk : k = 0 ∨ 2 ^ 23 ≤ q) (hq : q ≤ 2 ^ 24) :
    magBits (k * 2 ^ 23 + q) = q * 2 ^ k := by
  unfold magBits
  rcases Nat.lt_or_ge q (2 ^ 23) with h | h
  · obtain rfl : k = 0 := by omega
    have h1 : (0 * 2 ^ 23 + q) / 2 ^ 23 = 0 := by omega
    rw [if_pos h1]
    simp
    omega
  · rcases Nat.lt_or_ge q (2 ^ 24) with h' | h'
    · have h1 : (k * 2 ^ 23 + q) / 2 ^ 23 = k + 1 := by omega
      have h2 : (k * 2 ^ 23 + q) % 2 ^ 23 = q - 2 ^ 23 := by omega
      rw [if_neg (by omega), h1, h2]
      have h3 : 2 ^ 23 + (q - 2 ^ 23) = q := by omega
      rw [h3, Nat.add_sub_cancel]
    · obtain rfl : q = 2 ^ 24 := by omega
      have h1 : (k * 2 ^ 23 + 2 ^ 24) / 2 ^ 23 = k + 2 := by omega
      have h2 : (k * 2 ^ 23 + 2 ^ 24) % 2 ^ 23 = 0 := by omega
      rw [if_neg (by omega), h1, h2]
      have h3 : k + 2 - 1 = k + 1 := by omega
      rw [h3, pow_succ]
      ring

/-- Every encoding is a step count at some scale. -/
theorem exists_scaled (b : Nat) :
    ∃ k q, b = k * 2 ^ 23 + q ∧ (k = 0 ∨ 2 ^ 23 ≤ q) ∧ q < 2 ^ 24 := by
  rcases Nat.eq_zero_or_pos (b / 2 ^ 23) with h | h
  · exact ⟨0, b, by omega, .inl rfl, by omega⟩
  · exact ⟨b / 2 ^ 23 - 1, 2 ^ 23 + b % 2 ^ 23, by omega, .inr (by omega), by omega⟩

/-- Neighbouring encodings are neighbouring magnitudes. -/
theorem magBits_lt_succ (b : Nat) : magBits b < magBits (b + 1) := by
  obtain ⟨k, q, rfl, hk, hq⟩ := exists_scaled b
  rw [magBits_scaled hk (le_of_lt hq), add_assoc, magBits_scaled (hk.imp id (by omega)) hq]
  exact Nat.mul_lt_mul_of_pos_right (Nat.lt_succ_self q) (by positivity)

theorem magBits_strictMono : StrictMono magBits := strictMono_nat_of_lt_succ magBits_lt_succ

/-! ## Packing -/

theorem packFloat_toNat (s : Bool) (b : Nat) :
    (packFloat s b).toNat = (if s then 2 ^ 31 else 0) + min b infBits := by
  have h : min b infBits ≤ 0x7F800000 := Nat.min_le_right _ _
  simp only [packFloat, BitVec.toNat_ofNat]
  split <;> omega

theorem packFloat_mod (s : Bool) (b : Nat) : (packFloat s b).toNat % 2 ^ 31 = min b infBits := by
  have h : min b infBits ≤ 0x7F800000 := Nat.min_le_right _ _
  rw [packFloat_toNat]
  split <;> omega

/-- The sign of a packed float is the one given. -/
@[simp] theorem signBit_packFloat (s : Bool) (b : Nat) : signBit (packFloat s b) = s := by
  have h : min b infBits ≤ 0x7F800000 := Nat.min_le_right _ _
  have hm : signBit (packFloat s b) = (packFloat s b).msb := rfl
  rw [hm, BitVec.msb_eq_decide, packFloat_toNat]
  cases s
  · simp
    omega
  · simp

theorem floatMag_packFloat {s : Bool} {b : Nat} (h : b ≤ infBits) :
    floatMag (packFloat s b) = magBits b := by
  rw [floatMag_eq, packFloat_mod, Nat.min_eq_left h]

theorem expField_packFloat {s : Bool} {b : Nat} (h : b < infBits) : expField (packFloat s b) ≠ 255 := by
  have hb : b < 0x7F800000 := h
  rw [expField_eq, packFloat_mod, Nat.min_eq_left (le_of_lt h)]
  omega

/-- From the encoding of infinity on, a packed float is infinite. -/
theorem isInf_packFloat {s : Bool} {b : Nat} (h : infBits ≤ b) : isInf (packFloat s b) = true := by
  rw [isInf, expField_eq, fracField_eq, packFloat_mod, Nat.min_eq_right h]
  decide

theorem lowBit_packFloat {s : Bool} {b : Nat} (h : b ≤ infBits) :
    (packFloat s b).getLsbD 0 = decide (b % 2 = 1) := by
  rw [BitVec.getLsbD, packFloat_toNat, Nat.min_eq_left h, Nat.testBit_zero]
  cases s <;> simp
  omega

/-- A finite float's encoding is below that of infinity. -/
theorem bits_lt_of_finite {c : Cell} (h : expField c ≠ 255) : c.toNat % 2 ^ 31 < infBits := by
  rw [expField_eq] at h
  show _ < 0x7F800000
  omega

/-! ## Correct rounding -/

/-- Rounding `x` between `q` and `q + 1` steps of `2^k`, up past the middle and on it to the even count, gives the
nearest float. -/
theorem nearestFloat_of_steps {x : ℝ} {k q : Nat} {up : Prop} [Decidable up] (s : Bool)
    (hk : k = 0 ∨ 2 ^ 23 ≤ q) (hq : q < 2 ^ 24) (hlo : (q * 2 ^ k : ℝ) ≤ x) (hhi : x < ((q + 1) * 2 ^ k : ℝ))
    (hup : up ↔ ((q * 2 ^ k : ℝ) + 2 ^ k / 2 < x ∨ (x = (q * 2 ^ k : ℝ) + 2 ^ k / 2 ∧ q % 2 = 1))) :
    nearestFloat x (packFloat s (k * 2 ^ 23 + q + (if up then 1 else 0))) := by
  set b0 := k * 2 ^ 23 + q with hb0
  have hstep : (0 : ℝ) < 2 ^ k := by positivity
  have hm0 : (magBits b0 : ℝ) = q * 2 ^ k := by
    rw [hb0, magBits_scaled hk (le_of_lt hq)]
    push_cast
    ring
  have hm1 : (magBits (b0 + 1) : ℝ) = (q + 1) * 2 ^ k := by
    rw [hb0, add_assoc, magBits_scaled (hk.imp id (by omega)) hq]
    push_cast
    ring
  -- the greatest finite encoding and the threshold
  have hmax : magBits (infBits - 1) = (2 ^ 24 - 1) * 2 ^ 253 := by
    have : infBits - 1 = 253 * 2 ^ 23 + (2 ^ 24 - 1) := by decide
    rw [this, magBits_scaled (.inr (by norm_num)) (by norm_num)]
  have hmaxR : (magBits (infBits - 1) : ℝ) = (2 ^ 24 - 1) * 2 ^ 253 := by
    rw [hmax]
    norm_num
  have hinf : magBits infBits = 2 ^ 277 := by
    have : infBits = 253 * 2 ^ 23 + 2 ^ 24 := by decide
    rw [this, magBits_scaled (.inr (by norm_num)) (by norm_num), ← pow_add]
  have hinfR : (magBits infBits : ℝ) = 2 ^ 277 := by
    rw [hinf, Nat.cast_pow, Nat.cast_ofNat]
  have hpow : (2 : ℝ) ^ 253 = 2 * 2 ^ 252 := by rw [pow_succ, mul_comm]
  have hpow' : (2 : ℝ) ^ 277 = 2 ^ 25 * 2 ^ 252 := by rw [← pow_add]
  have hT : (0 : ℝ) < 2 ^ 252 := by positivity
  have hqcast : ((2 ^ 24 - 1 : ℕ) : ℝ) = 2 ^ 24 - 1 := by norm_num
  -- at the greatest finite encoding the scale is known
  have htop : b0 = infBits - 1 → k = 253 ∧ q = 2 ^ 24 - 1 := by
    intro h
    have : infBits - 1 = 253 * 2 ^ 23 + (2 ^ 24 - 1) := by decide
    rw [this, hb0] at h
    omega
  have hparity : b0 % 2 = q % 2 := by omega
  refine ⟨fun hx => isInf_packFloat ?_, fun hx => ?_⟩
  · rcases Nat.lt_or_ge b0 (infBits - 1) with h | h
    · exfalso
      have hle : magBits (b0 + 1) ≤ magBits (infBits - 1) :=
        magBits_strictMono.monotone (by omega)
      have hle' : (magBits (b0 + 1) : ℝ) ≤ magBits (infBits - 1) := by exact_mod_cast hle
      rw [hm1, hmaxR, hpow] at hle'
      nlinarith
    · rcases Nat.eq_or_lt_of_le h with h | h
      · obtain ⟨rfl, rfl⟩ := htop h.symm
        have : up := by
          rw [hup]
          rw [hqcast, hpow]
          generalize (2 : ℝ) ^ 252 = T at hx hT
          rcases lt_or_eq_of_le hx with h' | h'
          · exact .inl (by linarith)
          · exact .inr ⟨by linarith, by norm_num⟩
        rw [if_pos this]
        omega
      · have : infBits ≤ b0 := by omega
        exact Nat.le_add_right_of_le this
  · have hfin : b0 + (if up then 1 else 0) < infBits := by
      have hb : b0 < infBits := by
        by_contra hcon
        have hle : magBits infBits ≤ magBits b0 := magBits_strictMono.monotone (by omega)
        have hle' : (magBits infBits : ℝ) ≤ magBits b0 := by exact_mod_cast hle
        rw [hinfR, hm0, hpow'] at hle'
        nlinarith
      by_cases hu : up
      · rw [if_pos hu]
        by_contra hcon
        obtain ⟨rfl, rfl⟩ := htop (by omega)
        rw [hup] at hu
        rw [hqcast, hpow] at hu
        generalize (2 : ℝ) ^ 252 = T at hx hT hu
        rcases hu with hu | ⟨hu, _⟩ <;> linarith
      · rw [if_neg hu]
        simpa using hb
    refine ⟨expField_packFloat hfin, fun c hc => ?_⟩
    rw [floatMag_packFloat (le_of_lt hfin), lowBit_packFloat (le_of_lt hfin), floatMag_eq c]
    set c' := c.toNat % 2 ^ 31
    -- every other float lies at or below the lower neighbour, or at or above the upper one
    have hsplit : (magBits c' : ℝ) ≤ q * 2 ^ k ∨ ((q + 1) * 2 ^ k : ℝ) ≤ magBits c' := by
      rcases Nat.lt_or_ge b0 c' with h | h
      · right
        rw [← hm1]
        exact_mod_cast magBits_strictMono.monotone h
      · left
        rw [← hm0]
        exact_mod_cast magBits_strictMono.monotone h
    by_cases hu : up
    · simp only [if_pos hu, hm1]
      have hu' := hup.1 hu
      have habs : |((q : ℝ) + 1) * 2 ^ k - x| = (q + 1) * 2 ^ k - x := abs_of_pos (by linarith)
      rw [habs]
      have hhalf : ((q : ℝ) + 1) * 2 ^ k - x ≤ 2 ^ k / 2 := by
        rcases hu' with h | ⟨h, _⟩ <;> linarith
      rcases hsplit with h | h
      · rw [abs_of_nonpos (by linarith)]
        refine ⟨by linarith, fun heq hne => ?_⟩
        rcases hu' with h' | ⟨_, hodd⟩
        · exfalso
          linarith
        · exact decide_eq_false (by rw [Nat.add_mod, hparity, hodd]; decide)
      · rw [abs_of_nonneg (by linarith)]
        refine ⟨by linarith, fun heq hne => ?_⟩
        exfalso
        apply hne
        have : (magBits c' : ℝ) = magBits (b0 + 1) := by
          rw [hm1]
          linarith
        exact_mod_cast this
    · simp only [if_neg hu, add_zero, hm0]
      have hu' : ¬ _ := fun h => hu (hup.2 h)
      push Not at hu'
      obtain ⟨hle, htie⟩ := hu'
      have habs : |(q : ℝ) * 2 ^ k - x| = x - q * 2 ^ k := by
        rw [abs_of_nonpos (by linarith)]
        ring
      rw [habs]
      rcases hsplit with h | h
      · rw [abs_of_nonpos (by linarith)]
        refine ⟨by linarith, fun heq hne => ?_⟩
        exfalso
        apply hne
        have : (magBits c' : ℝ) = magBits b0 := by
          rw [hm0]
          linarith
        exact_mod_cast this
      · rw [abs_of_pos (by linarith)]
        refine ⟨by linarith, fun heq hne => ?_⟩
        have hx2 : x = (q : ℝ) * 2 ^ k + 2 ^ k / 2 := by linarith
        exact decide_eq_false (fun hodd => htie hx2 (hparity ▸ hodd))

/-- The decomposition `roundBits` makes of a quotient: a scale, a count of steps within it, and the remainder. -/
theorem roundBits_steps (n d : Nat) :
    ∃ k q, roundBits n d = k * 2 ^ 23 + q +
        (if d * 2 ^ k < 2 * (n % (d * 2 ^ k)) ∨ (2 * (n % (d * 2 ^ k)) = d * 2 ^ k ∧ q % 2 = 1) then 1 else 0) ∧
      q = n / (d * 2 ^ k) ∧ (k = 0 ∨ 2 ^ 23 ≤ q) ∧ q < 2 ^ 24 ∧ k = (n / d).log2 - 23 := by
  refine ⟨(n / d).log2 - 23, n / (d * 2 ^ ((n / d).log2 - 23)), rfl, rfl, ?_, ?_, rfl⟩
  · rcases Nat.lt_or_ge (n / d) (2 ^ 24) with h | h
    · left
      rcases Nat.eq_zero_or_pos (n / d) with h0 | h0
      · rw [h0]
        rfl
      · have : (n / d).log2 < 24 := (Nat.log2_lt (by omega)).2 h
        omega
    · right
      have h1 : 24 ≤ (n / d).log2 := (Nat.le_log2 (by omega)).2 h
      have h2 : 2 ^ (n / d).log2 ≤ n / d := Nat.log2_self_le (by omega)
      rw [← Nat.div_div_eq_div_mul, Nat.le_div_iff_mul_le (by positivity), ← pow_add]
      have h3 : 23 + ((n / d).log2 - 23) = (n / d).log2 := by omega
      rwa [h3]
  · rw [← Nat.div_div_eq_div_mul, Nat.div_lt_iff_lt_mul (by positivity), ← pow_add]
    rcases Nat.eq_zero_or_pos (n / d) with h0 | h0
    · rw [h0]
      positivity
    · have h1 : n / d < 2 ^ ((n / d).log2 + 1) := Nat.lt_log2_self
      exact lt_of_lt_of_le h1 (Nat.pow_le_pow_right (by norm_num) (by omega))

/-- `roundBits n d` is the correct rounding of `n / d` units. -/
theorem nearestFloat_roundBits (s : Bool) (n : Nat) {d : Nat} (hd : 0 < d) :
    nearestFloat ((n : ℝ) / d) (packFloat s (roundBits n d)) := by
  obtain ⟨k, q, hb, hq, hk, hlt, -⟩ := roundBits_steps n d
  rw [hb]
  have hdR : (0 : ℝ) < d := by exact_mod_cast hd
  have hdiv : d * 2 ^ k * q + n % (d * 2 ^ k) = n := by
    rw [hq]
    exact Nat.div_add_mod n (d * 2 ^ k)
  have hmod : n % (d * 2 ^ k) < d * 2 ^ k := Nat.mod_lt _ (by positivity)
  set r := n % (d * 2 ^ k)
  have hdivR : (n : ℝ) = d * 2 ^ k * q + r := by exact_mod_cast hdiv.symm
  have hx : (n : ℝ) / d = q * 2 ^ k + r / d := by
    rw [hdivR]
    field_simp
  have hrR : (r : ℝ) / d < 2 ^ k := by
    rw [div_lt_iff₀ hdR]
    have : (r : ℝ) < d * 2 ^ k := by exact_mod_cast hmod
    linarith
  have hr0 : (0 : ℝ) ≤ (r : ℝ) / d := by positivity
  refine nearestFloat_of_steps s hk hlt (by rw [hx]; linarith) (by rw [hx]; linarith) ?_
  rw [hx]
  have e1 : d * 2 ^ k < 2 * r ↔ (q * 2 ^ k : ℝ) + 2 ^ k / 2 < q * 2 ^ k + r / d := by
    rw [add_lt_add_iff_left, div_lt_div_iff₀ (by norm_num) hdR]
    constructor
    · intro h
      have : ((d * 2 ^ k : ℕ) : ℝ) < ((2 * r : ℕ) : ℝ) := by exact_mod_cast h
      push_cast at this
      linarith
    · intro h
      have : ((d * 2 ^ k : ℕ) : ℝ) < ((2 * r : ℕ) : ℝ) := by
        push_cast
        linarith
      exact_mod_cast this
  have e2 : 2 * r = d * 2 ^ k ↔ (q * 2 ^ k + r / d : ℝ) = q * 2 ^ k + 2 ^ k / 2 := by
    rw [add_right_inj, div_eq_div_iff hdR.ne' (by norm_num)]
    constructor
    · intro h
      have : ((2 * r : ℕ) : ℝ) = ((d * 2 ^ k : ℕ) : ℝ) := by exact_mod_cast h
      push_cast at this
      linarith
    · intro h
      have : ((2 * r : ℕ) : ℝ) = ((d * 2 ^ k : ℕ) : ℝ) := by
        push_cast
        linarith
      exact_mod_cast this
  rw [e1, e2]

/-! ## The square root rounded down -/

theorem sqrtBits_spec (n : Nat) (b acc : Nat) (hlo : acc * acc ≤ n) (hhi : n < (acc + 2 ^ b) * (acc + 2 ^ b)) :
    sqrtBits n b acc * sqrtBits n b acc ≤ n ∧ n < (sqrtBits n b acc + 1) * (sqrtBits n b acc + 1) := by
  induction b generalizing acc with
  | zero =>
    rw [pow_zero] at hhi
    exact ⟨hlo, hhi⟩
  | succ b ih =>
    simp only [sqrtBits]
    split
    · rename_i h
      refine ih _ h ?_
      have : acc + 2 ^ b + 2 ^ b = acc + 2 ^ (b + 1) := by ring
      rwa [this]
    · rename_i h
      exact ih _ hlo (Nat.not_le.1 h)

/-- `floorSqrt` is the square root rounded down, of every number an operand of FSQRT can give. -/
theorem floorSqrt_spec {n : Nat} (h : n < 2 ^ 432) :
    floorSqrt n * floorSqrt n ≤ n ∧ n < (floorSqrt n + 1) * (floorSqrt n + 1) := by
  refine sqrtBits_spec n 216 0 (Nat.zero_le n) ?_
  have : (0 + 2 ^ 216) * (0 + 2 ^ 216) = (2 : ℕ) ^ 432 := by
    rw [Nat.zero_add, ← pow_add]
  rw [this]
  exact h

/-- The magnitude of a float is below `2^278`. -/
theorem floatMag_lt (v : Cell) : floatMag v < 2 ^ 278 := by
  have hlt : v.toNat % 2 ^ 31 < 254 * 2 ^ 23 + 2 ^ 24 := by omega
  have h := magBits_strictMono hlt
  rw [magBits_scaled (.inr (by norm_num)) (le_refl _)] at h
  rw [floatMag_eq]
  calc _ < 2 ^ 24 * 2 ^ 254 := h
    _ = 2 ^ 278 := by rw [← pow_add]

end Sys2Proof.Machine
end

