-- ==== Sys2Proof/Laws/PerInstr.lean ====
section
/-! SUPPORT. What is said of every instruction as syntax, one lemma per constructor. -/

namespace Sys2Proof.Laws

/-- The encoding of an instruction has the length its opcode announces, and decoding its instruction cell with its
argument words gives the opcode, subtype and operands it was made from: the opcode map read on them is the
instruction (30_encoding.md R45, R49). -/
def EncodedForm.Statement (i : Instr) : Prop :=
  ∃ op sub args, encode i = instrCells op sub args ∧ argc op = some args.length ∧
    ∀ o0 o1 o2, (∀ k < args.length, [o0, o1, o2].getD k (.imm 0) = args.getD k (.imm 0)) →
      instrOf op sub o0 o1 o2 = .ok i

theorem EncodedForm.nop : EncodedForm.Statement .nop := by
  refine ⟨_, _, _, rfl, rfl, fun o0 o1 o2 h => ?_⟩
  rfl

theorem EncodedForm.halt : EncodedForm.Statement .halt := by
  refine ⟨_, _, _, rfl, rfl, fun o0 o1 o2 h => ?_⟩
  rfl

theorem EncodedForm.push (a0 : Operand) : EncodedForm.Statement (.push a0) := by
  refine ⟨_, _, _, rfl, rfl, fun o0 o1 o2 h => ?_⟩
  obtain rfl : o0 = a0 := h 0 (by simp)
  rfl

theorem EncodedForm.pop (a0 : Operand) : EncodedForm.Statement (.pop a0) := by
  refine ⟨_, _, _, rfl, rfl, fun o0 o1 o2 h => ?_⟩
  obtain rfl : o0 = a0 := h 0 (by simp)
  rfl

theorem EncodedForm.jmp (a0 : Operand) : EncodedForm.Statement (.jmp a0) := by
  refine ⟨_, _, _, rfl, rfl, fun o0 o1 o2 h => ?_⟩
  obtain rfl : o0 = a0 := h 0 (by simp)
  rfl

theorem EncodedForm.jmpcEq (a0 : Operand) : EncodedForm.Statement (.jmpcEq a0) := by
  refine ⟨_, _, _, rfl, rfl, fun o0 o1 o2 h => ?_⟩
  obtain rfl : o0 = a0 := h 0 (by simp)
  rfl

theorem EncodedForm.jmpcNe (a0 : Operand) : EncodedForm.Statement (.jmpcNe a0) := by
  refine ⟨_, _, _, rfl, rfl, fun o0 o1 o2 h => ?_⟩
  obtain rfl : o0 = a0 := h 0 (by simp)
  rfl

theorem EncodedForm.jmpcGt (a0 : Operand) : EncodedForm.Statement (.jmpcGt a0) := by
  refine ⟨_, _, _, rfl, rfl, fun o0 o1 o2 h => ?_⟩
  obtain rfl : o0 = a0 := h 0 (by simp)
  rfl

theorem EncodedForm.jmpcLt (a0 : Operand) : EncodedForm.Statement (.jmpcLt a0) := by
  refine ⟨_, _, _, rfl, rfl, fun o0 o1 o2 h => ?_⟩
  obtain rfl : o0 = a0 := h 0 (by simp)
  rfl

theorem EncodedForm.jmpcGe (a0 : Operand) : EncodedForm.Statement (.jmpcGe a0) := by
  refine ⟨_, _, _, rfl, rfl, fun o0 o1 o2 h => ?_⟩
  obtain rfl : o0 = a0 := h 0 (by simp)
  rfl

theorem EncodedForm.jmpcLe (a0 : Operand) : EncodedForm.Statement (.jmpcLe a0) := by
  refine ⟨_, _, _, rfl, rfl, fun o0 o1 o2 h => ?_⟩
  obtain rfl : o0 = a0 := h 0 (by simp)
  rfl

theorem EncodedForm.call (a0 : Operand) : EncodedForm.Statement (.call a0) := by
  refine ⟨_, _, _, rfl, rfl, fun o0 o1 o2 h => ?_⟩
  obtain rfl : o0 = a0 := h 0 (by simp)
  rfl

theorem EncodedForm.ret (a0 a1 : Operand) : EncodedForm.Statement (.ret a0 a1) := by
  refine ⟨_, _, _, rfl, rfl, fun o0 o1 o2 h => ?_⟩
  obtain rfl : o0 = a0 := h 0 (by simp)
  obtain rfl : o1 = a1 := h 1 (by simp)
  rfl

theorem EncodedForm.enter (a0 : Operand) : EncodedForm.Statement (.enter a0) := by
  refine ⟨_, _, _, rfl, rfl, fun o0 o1 o2 h => ?_⟩
  obtain rfl : o0 = a0 := h 0 (by simp)
  rfl

theorem EncodedForm.leave : EncodedForm.Statement .leave := by
  refine ⟨_, _, _, rfl, rfl, fun o0 o1 o2 h => ?_⟩
  rfl

theorem EncodedForm.add (a0 a1 a2 : Operand) : EncodedForm.Statement (.add a0 a1 a2) := by
  refine ⟨_, _, _, rfl, rfl, fun o0 o1 o2 h => ?_⟩
  obtain rfl : o0 = a0 := h 0 (by simp)
  obtain rfl : o1 = a1 := h 1 (by simp)
  obtain rfl : o2 = a2 := h 2 (by simp)
  rfl

theorem EncodedForm.sub (a0 a1 a2 : Operand) : EncodedForm.Statement (.sub a0 a1 a2) := by
  refine ⟨_, _, _, rfl, rfl, fun o0 o1 o2 h => ?_⟩
  obtain rfl : o0 = a0 := h 0 (by simp)
  obtain rfl : o1 = a1 := h 1 (by simp)
  obtain rfl : o2 = a2 := h 2 (by simp)
  rfl

theorem EncodedForm.mul (a0 a1 a2 : Operand) : EncodedForm.Statement (.mul a0 a1 a2) := by
  refine ⟨_, _, _, rfl, rfl, fun o0 o1 o2 h => ?_⟩
  obtain rfl : o0 = a0 := h 0 (by simp)
  obtain rfl : o1 = a1 := h 1 (by simp)
  obtain rfl : o2 = a2 := h 2 (by simp)
  rfl

theorem EncodedForm.div (a0 a1 a2 : Operand) : EncodedForm.Statement (.div a0 a1 a2) := by
  refine ⟨_, _, _, rfl, rfl, fun o0 o1 o2 h => ?_⟩
  obtain rfl : o0 = a0 := h 0 (by simp)
  obtain rfl : o1 = a1 := h 1 (by simp)
  obtain rfl : o2 = a2 := h 2 (by simp)
  rfl

theorem EncodedForm.mod (a0 a1 a2 : Operand) : EncodedForm.Statement (.mod a0 a1 a2) := by
  refine ⟨_, _, _, rfl, rfl, fun o0 o1 o2 h => ?_⟩
  obtain rfl : o0 = a0 := h 0 (by simp)
  obtain rfl : o1 = a1 := h 1 (by simp)
  obtain rfl : o2 = a2 := h 2 (by simp)
  rfl

theorem EncodedForm.udiv (a0 a1 a2 : Operand) : EncodedForm.Statement (.udiv a0 a1 a2) := by
  refine ⟨_, _, _, rfl, rfl, fun o0 o1 o2 h => ?_⟩
  obtain rfl : o0 = a0 := h 0 (by simp)
  obtain rfl : o1 = a1 := h 1 (by simp)
  obtain rfl : o2 = a2 := h 2 (by simp)
  rfl

theorem EncodedForm.umod (a0 a1 a2 : Operand) : EncodedForm.Statement (.umod a0 a1 a2) := by
  refine ⟨_, _, _, rfl, rfl, fun o0 o1 o2 h => ?_⟩
  obtain rfl : o0 = a0 := h 0 (by simp)
  obtain rfl : o1 = a1 := h 1 (by simp)
  obtain rfl : o2 = a2 := h 2 (by simp)
  rfl

theorem EncodedForm.and (a0 a1 a2 : Operand) : EncodedForm.Statement (.and a0 a1 a2) := by
  refine ⟨_, _, _, rfl, rfl, fun o0 o1 o2 h => ?_⟩
  obtain rfl : o0 = a0 := h 0 (by simp)
  obtain rfl : o1 = a1 := h 1 (by simp)
  obtain rfl : o2 = a2 := h 2 (by simp)
  rfl

theorem EncodedForm.or (a0 a1 a2 : Operand) : EncodedForm.Statement (.or a0 a1 a2) := by
  refine ⟨_, _, _, rfl, rfl, fun o0 o1 o2 h => ?_⟩
  obtain rfl : o0 = a0 := h 0 (by simp)
  obtain rfl : o1 = a1 := h 1 (by simp)
  obtain rfl : o2 = a2 := h 2 (by simp)
  rfl

theorem EncodedForm.xor (a0 a1 a2 : Operand) : EncodedForm.Statement (.xor a0 a1 a2) := by
  refine ⟨_, _, _, rfl, rfl, fun o0 o1 o2 h => ?_⟩
  obtain rfl : o0 = a0 := h 0 (by simp)
  obtain rfl : o1 = a1 := h 1 (by simp)
  obtain rfl : o2 = a2 := h 2 (by simp)
  rfl

theorem EncodedForm.shl (a0 a1 a2 : Operand) : EncodedForm.Statement (.shl a0 a1 a2) := by
  refine ⟨_, _, _, rfl, rfl, fun o0 o1 o2 h => ?_⟩
  obtain rfl : o0 = a0 := h 0 (by simp)
  obtain rfl : o1 = a1 := h 1 (by simp)
  obtain rfl : o2 = a2 := h 2 (by simp)
  rfl

theorem EncodedForm.shr (a0 a1 a2 : Operand) : EncodedForm.Statement (.shr a0 a1 a2) := by
  refine ⟨_, _, _, rfl, rfl, fun o0 o1 o2 h => ?_⟩
  obtain rfl : o0 = a0 := h 0 (by simp)
  obtain rfl : o1 = a1 := h 1 (by simp)
  obtain rfl : o2 = a2 := h 2 (by simp)
  rfl

theorem EncodedForm.sar (a0 a1 a2 : Operand) : EncodedForm.Statement (.sar a0 a1 a2) := by
  refine ⟨_, _, _, rfl, rfl, fun o0 o1 o2 h => ?_⟩
  obtain rfl : o0 = a0 := h 0 (by simp)
  obtain rfl : o1 = a1 := h 1 (by simp)
  obtain rfl : o2 = a2 := h 2 (by simp)
  rfl

theorem EncodedForm.fadd (a0 a1 a2 : Operand) : EncodedForm.Statement (.fadd a0 a1 a2) := by
  refine ⟨_, _, _, rfl, rfl, fun o0 o1 o2 h => ?_⟩
  obtain rfl : o0 = a0 := h 0 (by simp)
  obtain rfl : o1 = a1 := h 1 (by simp)
  obtain rfl : o2 = a2 := h 2 (by simp)
  rfl

theorem EncodedForm.fsub (a0 a1 a2 : Operand) : EncodedForm.Statement (.fsub a0 a1 a2) := by
  refine ⟨_, _, _, rfl, rfl, fun o0 o1 o2 h => ?_⟩
  obtain rfl : o0 = a0 := h 0 (by simp)
  obtain rfl : o1 = a1 := h 1 (by simp)
  obtain rfl : o2 = a2 := h 2 (by simp)
  rfl

theorem EncodedForm.fmul (a0 a1 a2 : Operand) : EncodedForm.Statement (.fmul a0 a1 a2) := by
  refine ⟨_, _, _, rfl, rfl, fun o0 o1 o2 h => ?_⟩
  obtain rfl : o0 = a0 := h 0 (by simp)
  obtain rfl : o1 = a1 := h 1 (by simp)
  obtain rfl : o2 = a2 := h 2 (by simp)
  rfl

theorem EncodedForm.fdiv (a0 a1 a2 : Operand) : EncodedForm.Statement (.fdiv a0 a1 a2) := by
  refine ⟨_, _, _, rfl, rfl, fun o0 o1 o2 h => ?_⟩
  obtain rfl : o0 = a0 := h 0 (by simp)
  obtain rfl : o1 = a1 := h 1 (by simp)
  obtain rfl : o2 = a2 := h 2 (by simp)
  rfl

theorem EncodedForm.neg (a0 a1 : Operand) : EncodedForm.Statement (.neg a0 a1) := by
  refine ⟨_, _, _, rfl, rfl, fun o0 o1 o2 h => ?_⟩
  obtain rfl : o0 = a0 := h 0 (by simp)
  obtain rfl : o1 = a1 := h 1 (by simp)
  rfl

theorem EncodedForm.not (a0 a1 : Operand) : EncodedForm.Statement (.not a0 a1) := by
  refine ⟨_, _, _, rfl, rfl, fun o0 o1 o2 h => ?_⟩
  obtain rfl : o0 = a0 := h 0 (by simp)
  obtain rfl : o1 = a1 := h 1 (by simp)
  rfl

theorem EncodedForm.fneg (a0 a1 : Operand) : EncodedForm.Statement (.fneg a0 a1) := by
  refine ⟨_, _, _, rfl, rfl, fun o0 o1 o2 h => ?_⟩
  obtain rfl : o0 = a0 := h 0 (by simp)
  obtain rfl : o1 = a1 := h 1 (by simp)
  rfl

theorem EncodedForm.fabs (a0 a1 : Operand) : EncodedForm.Statement (.fabs a0 a1) := by
  refine ⟨_, _, _, rfl, rfl, fun o0 o1 o2 h => ?_⟩
  obtain rfl : o0 = a0 := h 0 (by simp)
  obtain rfl : o1 = a1 := h 1 (by simp)
  rfl

theorem EncodedForm.fsqrt (a0 a1 : Operand) : EncodedForm.Statement (.fsqrt a0 a1) := by
  refine ⟨_, _, _, rfl, rfl, fun o0 o1 o2 h => ?_⟩
  obtain rfl : o0 = a0 := h 0 (by simp)
  obtain rfl : o1 = a1 := h 1 (by simp)
  rfl

theorem EncodedForm.fsin (a0 a1 : Operand) : EncodedForm.Statement (.fsin a0 a1) := by
  refine ⟨_, _, _, rfl, rfl, fun o0 o1 o2 h => ?_⟩
  obtain rfl : o0 = a0 := h 0 (by simp)
  obtain rfl : o1 = a1 := h 1 (by simp)
  rfl

theorem EncodedForm.fcos (a0 a1 : Operand) : EncodedForm.Statement (.fcos a0 a1) := by
  refine ⟨_, _, _, rfl, rfl, fun o0 o1 o2 h => ?_⟩
  obtain rfl : o0 = a0 := h 0 (by simp)
  obtain rfl : o1 = a1 := h 1 (by simp)
  rfl

theorem EncodedForm.itof (a0 a1 : Operand) : EncodedForm.Statement (.itof a0 a1) := by
  refine ⟨_, _, _, rfl, rfl, fun o0 o1 o2 h => ?_⟩
  obtain rfl : o0 = a0 := h 0 (by simp)
  obtain rfl : o1 = a1 := h 1 (by simp)
  rfl

theorem EncodedForm.ftoi (a0 a1 : Operand) : EncodedForm.Statement (.ftoi a0 a1) := by
  refine ⟨_, _, _, rfl, rfl, fun o0 o1 o2 h => ?_⟩
  obtain rfl : o0 = a0 := h 0 (by simp)
  obtain rfl : o1 = a1 := h 1 (by simp)
  rfl

theorem EncodedForm.inPort (a0 a1 : Operand) : EncodedForm.Statement (.inPort a0 a1) := by
  refine ⟨_, _, _, rfl, rfl, fun o0 o1 o2 h => ?_⟩
  obtain rfl : o0 = a0 := h 0 (by simp)
  obtain rfl : o1 = a1 := h 1 (by simp)
  rfl

theorem EncodedForm.outPort (a0 a1 : Operand) : EncodedForm.Statement (.outPort a0 a1) := by
  refine ⟨_, _, _, rfl, rfl, fun o0 o1 o2 h => ?_⟩
  obtain rfl : o0 = a0 := h 0 (by simp)
  obtain rfl : o1 = a1 := h 1 (by simp)
  rfl

theorem EncodedForm.cmpI32 (a0 a1 : Operand) : EncodedForm.Statement (.cmpI32 a0 a1) := by
  refine ⟨_, _, _, rfl, rfl, fun o0 o1 o2 h => ?_⟩
  obtain rfl : o0 = a0 := h 0 (by simp)
  obtain rfl : o1 = a1 := h 1 (by simp)
  rfl

theorem EncodedForm.cmpI16 (a0 a1 : Operand) : EncodedForm.Statement (.cmpI16 a0 a1) := by
  refine ⟨_, _, _, rfl, rfl, fun o0 o1 o2 h => ?_⟩
  obtain rfl : o0 = a0 := h 0 (by simp)
  obtain rfl : o1 = a1 := h 1 (by simp)
  rfl

theorem EncodedForm.cmpI8 (a0 a1 : Operand) : EncodedForm.Statement (.cmpI8 a0 a1) := by
  refine ⟨_, _, _, rfl, rfl, fun o0 o1 o2 h => ?_⟩
  obtain rfl : o0 = a0 := h 0 (by simp)
  obtain rfl : o1 = a1 := h 1 (by simp)
  rfl

theorem EncodedForm.cmpU32 (a0 a1 : Operand) : EncodedForm.Statement (.cmpU32 a0 a1) := by
  refine ⟨_, _, _, rfl, rfl, fun o0 o1 o2 h => ?_⟩
  obtain rfl : o0 = a0 := h 0 (by simp)
  obtain rfl : o1 = a1 := h 1 (by simp)
  rfl

theorem EncodedForm.cmpU16 (a0 a1 : Operand) : EncodedForm.Statement (.cmpU16 a0 a1) := by
  refine ⟨_, _, _, rfl, rfl, fun o0 o1 o2 h => ?_⟩
  obtain rfl : o0 = a0 := h 0 (by simp)
  obtain rfl : o1 = a1 := h 1 (by simp)
  rfl

theorem EncodedForm.cmpU8 (a0 a1 : Operand) : EncodedForm.Statement (.cmpU8 a0 a1) := by
  refine ⟨_, _, _, rfl, rfl, fun o0 o1 o2 h => ?_⟩
  obtain rfl : o0 = a0 := h 0 (by simp)
  obtain rfl : o1 = a1 := h 1 (by simp)
  rfl

theorem EncodedForm.cmpF32 (a0 a1 : Operand) : EncodedForm.Statement (.cmpF32 a0 a1) := by
  refine ⟨_, _, _, rfl, rfl, fun o0 o1 o2 h => ?_⟩
  obtain rfl : o0 = a0 := h 0 (by simp)
  obtain rfl : o1 = a1 := h 1 (by simp)
  rfl

theorem EncodedForm.mov (a0 a1 : Operand) : EncodedForm.Statement (.mov a0 a1) := by
  refine ⟨_, _, _, rfl, rfl, fun o0 o1 o2 h => ?_⟩
  obtain rfl : o0 = a0 := h 0 (by simp)
  obtain rfl : o1 = a1 := h 1 (by simp)
  rfl

theorem EncodedForm.sect : EncodedForm.Statement .sect := by
  refine ⟨_, _, _, rfl, rfl, fun o0 o1 o2 h => ?_⟩
  rfl

end Sys2Proof.Laws
end

