-- ==== Sys2Proof/Laws/Results.lean ====
section
/-! SUPPORT. From the state an instruction commits to what it does: the terms of Sys2Proof/Safety.lean
(`setsOnly`, `setsAndStores`, `yields`), one lemma each. -/

namespace Sys2Proof.Machine

/-! ## Register writes in order -/

@[simp] theorem Regs.setAll_nil (x : Regs) : x.setAll [] = x := rfl

@[simp] theorem Regs.setAll_cons (x : Regs) (w : RegId × Cell) (ws : List (RegId × Cell)) :
    x.setAll (w :: ws) = (x.set w.1 w.2).setAll ws := rfl

theorem Regs.setAll_append (x : Regs) (ws : List (RegId × Cell)) (r : RegId) (v : Cell) :
    x.setAll (ws ++ [(r, v)]) = (x.setAll ws).set r v := by
  simp [Regs.setAll]

/-! ## The committed state -/

/-- A commit changes nothing but registers and memory. -/
theorem State.commit_completes (s : State) (x : Regs) (m : Memory) (c : Nat) :
    s.completes (s.commit x m c) c :=
  ⟨rfl, rfl, rfl, rfl, rfl, rfl, rfl, rfl, rfl, rfl⟩

theorem State.commit_setsRegs (s : State) (n : Nat) (ws : List (RegId × Cell)) (m : Memory) (c : Nat) :
    s.setsRegs (s.commit ((s.fetched n).setAll ws) m c) n ws := fun _ => rfl

theorem State.commit_keepsMemory (s : State) (x : Regs) (c : Nat) : s.keepsMemory (s.commit x s.mem c) :=
  fun _ => rfl

/-- A write that succeeded is read back, and no other cell has changed. -/
theorem State.stores_of_setValue {s t : State} {a v : Cell} {m : Memory} (h : s.setValue a v = some m)
    (hp : t.params = s.params) (hm : t.mem = m) : s.stores t a v := by
  obtain ⟨hlt, _, hread, _⟩ := State.setValue_eq_some h
  intro b
  simp only [State.getValue, hp, hm, hread, BitVec.toNat_inj]
  by_cases hb : b = a
  · subst hb
    by_cases hr : Params.romAt s.params b.toNat = none <;> simp [hlt, hr]
  · simp [hb]

theorem State.setValue_of_acceptsAt {s : State} {a : Cell} (v : Cell) (h : s.acceptsAt a) :
    ∃ m, s.setValue a v = some m := (State.setValue_isSome_iff s a v).2 h

theorem State.memWrite_of_not_acceptsAt {s : State} {a : Cell} (v : Cell) (h : ¬ s.acceptsAt a) :
    s.memWrite a v = .error ⟨.segmentationFault, a⟩ := by
  unfold State.memWrite
  rcases hs : s.setValue a v with _ | m
  · rfl
  · exact absurd ((State.setValue_isSome_iff s a v).1 ⟨m, hs⟩) h

/-! ## The stack-limit checks -/

theorem overflowCheck_of_le {x : Regs} {k : Nat} (pc : Cell) (h : x.sp.toNat + k ≤ x.sb.toNat + x.ss.toNat) :
    overflowCheck x pc k = .ok () := if_neg (Nat.not_lt.2 h)

theorem overflowCheck_of_lt {x : Regs} {k : Nat} (pc : Cell) (h : x.sb.toNat + x.ss.toNat < x.sp.toNat + k) :
    overflowCheck x pc k = .error ⟨.stackOverflow, pc⟩ := if_pos h

theorem underflowCheck_of_le {x : Regs} {top : Cell} {k : Nat} (pc : Cell) (h : x.sb.toNat + k ≤ top.toNat) :
    underflowCheck x pc top k = .ok () := if_neg (Nat.not_lt.2 h)

theorem underflowCheck_of_lt {x : Regs} {top : Cell} {k : Nat} (pc : Cell) (h : top.toNat < x.sb.toNat + k) :
    underflowCheck x pc top k = .error ⟨.stackUnderflow, pc⟩ := if_pos h

/-! ## What an instruction does -/

/-- An instruction that commits registers and leaves memory alone. -/
theorem State.setsOnly_of_commit {s : State} {i : Instr} {n c : Nat} {ws : List (RegId × Cell)}
    (h : exec i s = .next (s.commit ((s.fetched n).setAll ws) s.mem c)) : s.setsOnly i n c ws :=
  ⟨_, h, s.commit_completes _ _ c, s.commit_setsRegs n ws _ c, s.commit_keepsMemory _ c⟩

/-- An instruction that ends in a store at `addr` followed by the commit of registers. -/
theorem State.setsAndStores_of_settle {s : State} {i : Instr} {n c : Nat} {ws : List (RegId × Cell)}
    {addr v : Cell}
    (h : exec i s = .next (s.settle (do
      let m ← s.memWrite addr v
      pure (s.commit ((s.fetched n).setAll ws) m c)))) : s.setsAndStores i n c ws addr v := by
  constructor
  · intro ha
    obtain ⟨m, hm⟩ := State.setValue_of_acceptsAt v ha
    refine ⟨s.commit ((s.fetched n).setAll ws) m c, ?_, s.commit_completes _ _ c, s.commit_setsRegs n ws _ c,
      State.stores_of_setValue hm rfl rfl⟩
    rw [h, State.memWrite_eq_ok.2 hm]
    rfl
  · intro ha
    rw [State.raises, h, State.memWrite_of_not_acceptsAt v ha]
    rfl

/-- An instruction that ends in the write of its explicit destination. -/
theorem State.yields_of_settle {s : State} {i : Instr} {n c : Nat} {ws : List (RegId × Cell)} {L : Dest}
    {v : Cell} (h : exec i s = .next (s.settle (s.commitTo ((s.fetched n).setAll ws) L v c))) :
    s.yields i n c ws L v := by
  cases L with
  | reg r =>
    refine ⟨fun _ => ⟨s.commit (((s.fetched n).setAll ws).set r v) s.mem c, h, s.commit_completes _ _ c,
      fun r' => ?_, s.commit_keepsMemory _ c⟩, fun ea hea => by cases hea⟩
    rw [Regs.setAll_append]
    rfl
  | mem ea =>
    refine ⟨fun ha => ?_, fun ea' hea ha => ?_⟩
    · obtain ⟨m, hm⟩ := State.setValue_of_acceptsAt v ha
      refine ⟨s.commit ((s.fetched n).setAll ws) m c, ?_, s.commit_completes _ _ c, s.commit_setsRegs n ws _ c,
        State.stores_of_setValue hm rfl rfl⟩
      rw [h, State.commitTo, State.storeTo, State.memWrite_eq_ok.2 hm]
      rfl
    · cases hea
      rw [State.raises, h, State.commitTo, State.storeTo, State.memWrite_of_not_acceptsAt v ha]
      rfl

end Sys2Proof.Machine
end

