-- ==== Sys2Proof/Tests/Slice0.lean ====
section
/-! SUPPORT. The model's own tests: well-formedness, decoding of words written out from spec/30_encoding.md, single
instructions with the values of the spec's examples, and for every statement with hypotheses a state that meets
them. -/

namespace Sys2Proof.Tests

open Sys2Proof.Machine

/-! ## Helpers -/

/-- The spec's test machine T right after `reset(0x10)` (spec/95_test_vectors.md section 0), registers changed. -/
def atT (f : Regs → Regs) : State := { State.reset with regs := f { State.reset.regs with ip := 0x10 } }

/-- T with two source registers set. -/
def src12 (r1 r2 : Cell) : State := atT fun x => { x with r1 := r1, r2 := r2 }

/-- What a next state shows. -/
def got {α : Type} (o : Host.Outcome State Fault Refusal) (f : State → α) : Option α :=
  match o with
  | .next t => some (f t)
  | .fault _ => none
  | .refused _ => none

/-- `R0` after `name r0, r1, r2`. -/
def bin (i : Operand → Operand → Operand → Instr) (p q : Cell) : Option Cell :=
  got (exec (i (.reg 0) (.reg 1) (.reg 2)) (src12 p q)) (·.regs.r0)

/-- `R0` after `name r0, r1`. -/
def un (i : Operand → Operand → Instr) (p : Cell) : Option Cell :=
  got (exec (i (.reg 0) (.reg 1)) (src12 p 0)) (·.regs.r0)

/-- `FLAGS` after `name r1, r2`. -/
def cmp (i : Operand → Operand → Instr) (p q : Cell) : Option Cell :=
  got (exec (i (.reg 1) (.reg 2)) (src12 p q)) (·.regs.flags)

/-- `IP` after `name 0x30`, for the flag values 0 to 3. -/
def jumps (i : Operand → Instr) : List (Option Cell) :=
  [0, 1, 2, 3].map fun f => got (exec (i (.imm 0x30)) (atT fun x => { x with flags := f })) (·.regs.ip)

/-! ## Well-formedness: one ill-formed term for each check (30_encoding.md R54, R58 d, e, f) -/

theorem test_wellFormed_immediate_destination :
    (Instr.pop (.imm 0)).wellFormed = false ∧ (Instr.push (.imm 0)).wellFormed = true := by decide

theorem test_wellFormed_register_number :
    (Instr.push (.reg 12)).wellFormed = false ∧ (Instr.push (.reg 11)).wellFormed = true ∧
      (Instr.push (.reg 0xFF)).wellFormed = false := by decide

theorem test_wellFormed_index_register :
    (Instr.pop (.sta 12 0 0)).wellFormed = false ∧ (Instr.pop (.sta 0xFF 0 0)).wellFormed = true := by decide

theorem test_wellFormed_base_register :
    (Instr.pop (.ind 0xFF 0 0)).wellFormed = false ∧ (Instr.pop (.ind 11 0 0)).wellFormed = true := by decide

theorem test_wellFormed_shift :
    (Instr.pop (.sta 0xFF 32 0)).wellFormed = false ∧ (Instr.pop (.ind 0 32 0)).wellFormed = false ∧
      (Instr.pop (.ind 0 31 0)).wellFormed = true := by decide

theorem test_wellFormed_every_argument :
    (Instr.add (.reg 0) (.imm 1) (.reg 12)).wellFormed = false ∧
      (Instr.mov (.reg 0) (.ind 12 0 0)).wellFormed = false ∧
      (Instr.outPort (.reg 12) (.imm 0)).wellFormed = false := by decide

/-! ## Decoding, from the tables of 30_encoding.md R46 to R53 and R57 -/

theorem test_decode_no_arguments :
    decode [0x00000000] = .ok (.nop, []) ∧ decode [0x00000001] = .ok (.halt, []) ∧
      decode [0x00000009] = .ok (.leave, []) ∧ decode [0x00000010] = .ok (.sect, []) :=
  ⟨rfl, rfl, rfl, rfl⟩

theorem test_decode_one_argument :
    decode [0x00000002, 7] = .ok (.push (.imm 7), []) ∧
      decode [0x00000103, 1] = .ok (.pop (.reg 1), []) ∧
      decode [0x00000204, 0x001A00FF] = .ok (.jmp (.sta 0xFF 0 0x1A), []) ∧
      decode [0x00000306, 0x00010201] = .ok (.call (.ind 1 2 1), []) ∧
      decode [0x00000008, 2] = .ok (.enter (.imm 2), []) :=
  ⟨rfl, rfl, rfl, rfl, rfl⟩

theorem test_decode_jmpc :
    decode [0x00000005, 0x30] = .ok (.jmpcEq (.imm 0x30), []) ∧
      decode [0x00010005, 0x30] = .ok (.jmpcNe (.imm 0x30), []) ∧
      decode [0x00020005, 0x30] = .ok (.jmpcGt (.imm 0x30), []) ∧
      decode [0x00030005, 0x30] = .ok (.jmpcLt (.imm 0x30), []) ∧
      decode [0x00040005, 0x30] = .ok (.jmpcGe (.imm 0x30), []) ∧
      decode [0x00050005, 0x30] = .ok (.jmpcLe (.imm 0x30), []) :=
  ⟨rfl, rfl, rfl, rfl, rfl, rfl⟩

theorem test_decode_two_arguments :
    decode [0x00000407, 0, 1] = .ok (.ret (.imm 0) (.reg 1), []) ∧
      decode [0x0000010C, 0, 0] = .ok (.inPort (.reg 0) (.imm 0), []) ∧
      decode [0x0000040D, 0, 0] = .ok (.outPort (.imm 0) (.reg 0), []) ∧
      decode [0x0000090F, 0, 0x00160000] = .ok (.mov (.reg 0) (.sta 0 0 0x16), []) :=
  ⟨rfl, rfl, rfl, rfl⟩

theorem test_decode_binop_integer :
    decode [0x0000150A, 0, 1, 2] = .ok (.add (.reg 0) (.reg 1) (.reg 2), []) ∧
      decode [0x0001150A, 0, 1, 2] = .ok (.sub (.reg 0) (.reg 1) (.reg 2), []) ∧
      decode [0x0002150A, 0, 1, 2] = .ok (.mul (.reg 0) (.reg 1) (.reg 2), []) ∧
      decode [0x0003150A, 0, 1, 2] = .ok (.div (.reg 0) (.reg 1) (.reg 2), []) ∧
      decode [0x0004150A, 0, 1, 2] = .ok (.mod (.reg 0) (.reg 1) (.reg 2), []) ∧
      decode [0x0005150A, 0, 1, 2] = .ok (.udiv (.reg 0) (.reg 1) (.reg 2), []) ∧
      decode [0x0006150A, 0, 1, 2] = .ok (.umod (.reg 0) (.reg 1) (.reg 2), []) :=
  ⟨rfl, rfl, rfl, rfl, rfl, rfl, rfl⟩

theorem test_decode_binop_bitwise :
    decode [0x0007150A, 0, 1, 2] = .ok (.and (.reg 0) (.reg 1) (.reg 2), []) ∧
      decode [0x0008150A, 0, 1, 2] = .ok (.or (.reg 0) (.reg 1) (.reg 2), []) ∧
      decode [0x0009150A, 0, 1, 2] = .ok (.xor (.reg 0) (.reg 1) (.reg 2), []) ∧
      decode [0x000A150A, 0, 1, 2] = .ok (.shl (.reg 0) (.reg 1) (.reg 2), []) ∧
      decode [0x000B150A, 0, 1, 2] = .ok (.shr (.reg 0) (.reg 1) (.reg 2), []) ∧
      decode [0x000C150A, 0, 1, 2] = .ok (.sar (.reg 0) (.reg 1) (.reg 2), []) :=
  ⟨rfl, rfl, rfl, rfl, rfl, rfl⟩

theorem test_decode_binop_float :
    decode [0x000D150A, 0, 1, 2] = .ok (.fadd (.reg 0) (.reg 1) (.reg 2), []) ∧
      decode [0x000E150A, 0, 1, 2] = .ok (.fsub (.reg 0) (.reg 1) (.reg 2), []) ∧
      decode [0x000F150A, 0, 1, 2] = .ok (.fmul (.reg 0) (.reg 1) (.reg 2), []) ∧
      decode [0x0010150A, 0, 1, 2] = .ok (.fdiv (.reg 0) (.reg 1) (.reg 2), []) :=
  ⟨rfl, rfl, rfl, rfl⟩

theorem test_decode_unop :
    decode [0x0000050B, 0, 1] = .ok (.neg (.reg 0) (.reg 1), []) ∧
      decode [0x0001050B, 0, 1] = .ok (.not (.reg 0) (.reg 1), []) ∧
      decode [0x0002050B, 0, 1] = .ok (.fneg (.reg 0) (.reg 1), []) ∧
      decode [0x0003050B, 0, 1] = .ok (.fabs (.reg 0) (.reg 1), []) ∧
      decode [0x0004050B, 0, 1] = .ok (.fsqrt (.reg 0) (.reg 1), []) ∧
      decode [0x0005050B, 0, 1] = .ok (.fsin (.reg 0) (.reg 1), []) ∧
      decode [0x0006050B, 0, 1] = .ok (.fcos (.reg 0) (.reg 1), []) ∧
      decode [0x0007050B, 0, 1] = .ok (.itof (.reg 0) (.reg 1), []) ∧
      decode [0x0008050B, 0, 1] = .ok (.ftoi (.reg 0) (.reg 1), []) :=
  ⟨rfl, rfl, rfl, rfl, rfl, rfl, rfl, rfl, rfl⟩

theorem test_decode_cmp :
    decode [0x0000050E, 0, 1] = .ok (.cmpI32 (.reg 0) (.reg 1), []) ∧
      decode [0x0001050E, 0, 1] = .ok (.cmpI16 (.reg 0) (.reg 1), []) ∧
      decode [0x0002050E, 0, 1] = .ok (.cmpI8 (.reg 0) (.reg 1), []) ∧
      decode [0x0004050E, 0, 1] = .ok (.cmpU32 (.reg 0) (.reg 1), []) ∧
      decode [0x0005050E, 0, 1] = .ok (.cmpU16 (.reg 0) (.reg 1), []) ∧
      decode [0x0006050E, 0, 1] = .ok (.cmpU8 (.reg 0) (.reg 1), []) ∧
      decode [0x0008050E, 0, 1] = .ok (.cmpF32 (.reg 0) (.reg 1), []) :=
  ⟨rfl, rfl, rfl, rfl, rfl, rfl, rfl⟩

/-- Modes of every argument, and the ignored bits (30_encoding.md R59). -/
theorem test_decode_modes_and_ignored_bits :
    decode [0xAB00FF0A, 0xFFFD0006, 0x00010201, 5] =
        .ok (.add (.ind 6 0 0xFFFD) (.ind 1 2 1) (.ind 5 0 0), []) ∧
      decode [0xFFFFFD02, 0xABCDEF03, 9] = .ok (.push (.reg 3), [9]) :=
  ⟨rfl, rfl⟩

/-- Reserved encodings do not fall through to a neighbour (30_encoding.md R57, R58 a, c). -/
theorem test_decode_rejects :
    decode [0x00000011] = .error .illegalOpcode ∧ decode [0x000000FF] = .error .illegalOpcode ∧
      decode [0x00060005, 0] = .error .invalidSubtype ∧
      decode [0x0011150A, 0, 1, 2] = .error .invalidSubtype ∧
      decode [0x0009050B, 0, 1] = .error .invalidSubtype ∧
      decode [0x0003050E, 0, 1] = .error .invalidSubtype ∧
      decode [0x0007050E, 0, 1] = .error .invalidSubtype ∧
      decode [0x0009050E, 0, 1] = .error .invalidSubtype ∧
      decode [0x00000002] = .error .truncated :=
  ⟨rfl, rfl, rfl, rfl, rfl, rfl, rfl, rfl, rfl⟩

theorem test_decodeTableWord :
    decodeTableWord 128 (0x0002150A + 0 * 2 ^ 32 + 1 * 2 ^ 64 + 2 * 2 ^ 96) =
        some (.mul (.reg 0) (.reg 1) (.reg 2)) ∧
      decodeTableWord 32 0x0002000A = some (.mul (.imm 0) (.imm 0) (.imm 0)) := by decide

/-! ## Operands (30_encoding.md R52, R53, R55) -/

/-- The address examples of the test vectors' decode table: `Mem[FP - 3]`, `Mem[(R1 << 2) + 1]`, `Mem[0x1A]`. -/
theorem test_operand_addresses :
    let x := { State.reset.regs with r1 := 5, fp := 0x104 }
    srcLoc x 0 (operandOf 3 0xFFFD0006) = .ok (.mem 0x101) ∧
      srcLoc x 0 (operandOf 3 0x00010201) = .ok (.mem 0x15) ∧
      srcLoc x 0 (operandOf 2 0x001A00FF) = .ok (.mem 0x1A) := ⟨rfl, rfl, rfl⟩

/-- A register fault comes before a shift fault in one argument (60_exceptions.md R138 6). -/
theorem test_operand_check_order :
    dstLoc State.reset.regs 0x10 (.ind 12 32 0) = .error ⟨.illegalRegister, 0x10⟩ ∧
      dstLoc State.reset.regs 0x10 (.ind 11 32 0) = .error ⟨.invalidType, 0x10⟩ ∧
      dstLoc State.reset.regs 0x10 (.imm 0) = .error ⟨.invalidType, 0x10⟩ := ⟨rfl, rfl, rfl⟩

/-! ## Single instructions, with the values of the spec's examples -/

/-- 41_nop_halt_sect.md R75. -/
theorem test_nop : got (exec .nop (atT id)) (fun t => (t.regs.ip, t.last)) = some (0x11, some (.completed 1)) := by
  decide

/-- 41_nop_halt_sect.md R76. -/
theorem test_halt :
    got (exec .halt (atT id)) (fun t => (t.regs.ip, t.run)) = some (0x11, .halted) := by decide

/-- 41_nop_halt_sect.md R77. -/
theorem test_sect :
    got (exec .sect (atT id)) (fun t => (t.regs.ip, t.run, t.events)) =
      some (0x10, .halted, [⟨.sectionBoundary, 0x10⟩]) := by decide

/-- 42_stack.md R78. -/
theorem test_push :
    got (exec (.push (.imm 7)) (atT id)) (fun t => (t.regs.sp, t.mem)) = some (0x101, [(0x100, 7)]) := by
  decide

/-- 42_stack.md R78: `PUSH ip` pushes `pc0 + 2`, `PUSH sp` the old SP. -/
theorem test_push_ip_sp :
    got (exec (.push (.reg 4)) (atT id)) (·.mem) = some [(0x100, 0x12)] ∧
      got (exec (.push (.reg 5)) (atT id)) (·.mem) = some [(0x100, 0x100)] := by decide

/-- 42_stack.md R79. -/
theorem test_pop :
    got (exec (.pop (.reg 1)) { atT (fun x => { x with sp := 0x101 }) with mem := [(0x100, 7)] })
      (fun t => (t.regs.r1, t.regs.sp)) = some (7, 0x100) := by decide

/-- 42_stack.md R79: `POP sp` ends with the popped value; `SP = SB` underflows. -/
theorem test_pop_sp :
    got (exec (.pop (.reg 5)) { atT (fun x => { x with sp := 0x101 }) with mem := [(0x100, 7)] }) (·.regs.sp) =
        some 7 ∧
      got (exec (.pop (.reg 5)) (atT id)) (·.events) = some [⟨.stackUnderflow, 0x10⟩] := by decide

/-- 43_control_transfer.md R80. -/
theorem test_jmp :
    got (exec (.jmp (.imm 0x40)) (atT id)) (·.regs.ip) = some 0x40 ∧
      got (exec (.jmp (.reg 4)) (atT id)) (·.regs.ip) = some 0x12 := by decide

/-- 43_control_transfer.md R81, the table of the four flag states. -/
theorem test_jmpc :
    jumps .jmpcEq = [some 0x12, some 0x30, some 0x12, some 0x30] ∧
      jumps .jmpcNe = [some 0x30, some 0x12, some 0x30, some 0x12] ∧
      jumps .jmpcGt = [some 0x12, some 0x12, some 0x30, some 0x30] ∧
      jumps .jmpcLt = [some 0x30, some 0x12, some 0x12, some 0x12] ∧
      jumps .jmpcGe = [some 0x12, some 0x30, some 0x30, some 0x30] ∧
      jumps .jmpcLe = [some 0x30, some 0x30, some 0x12, some 0x12] := by decide

/-- 43_control_transfer.md R81: the target is read even when the jump is not taken. -/
theorem test_jmpc_reads_target :
    got (exec (.jmpcEq (.sta 0xFF 0 0x200)) (atT id)) (·.events) = some [⟨.segmentationFault, 0x200⟩] := by
  decide

/-- 43_control_transfer.md R90. -/
theorem test_call :
    got (exec (.call (.imm 0x40)) (atT id)) (fun t => (t.mem, t.regs.sp, t.regs.ip)) =
      some ([(0x100, 0x12)], 0x101, 0x40) := by decide

/-- 43_control_transfer.md R91. -/
theorem test_ret :
    let s := { atT (fun x => { x with sp := 0x103 }) with mem := [(0x102, 0x12)] }
    got (exec (.ret (.imm 0) (.imm 2)) s) (fun t => (t.regs.sp, t.regs.ip)) = some (0x100, 0x12) ∧
      got (exec (.ret (.imm 0) (.imm 3)) s) (·.events) = some [⟨.stackUnderflow, 0x10⟩] := by decide

/-- 43_control_transfer.md R88. -/
theorem test_enter :
    got (exec (.enter (.imm 2)) (atT fun x => { x with sp := 0x103, fp := 0x55 }))
      (fun t => (t.mem, t.regs.fp, t.regs.sp)) = some ([(0x103, 0x55)], 0x104, 0x106) := by decide

/-- 43_control_transfer.md R89. -/
theorem test_leave :
    got (exec .leave { atT (fun x => { x with sp := 0x106, fp := 0x104 }) with mem := [(0x103, 0x55)] })
      (fun t => (t.regs.sp, t.regs.fp)) = some (0x103, 0x55) := by decide

/-- 44_binary_ops.md R96 to R98. -/
theorem test_add_sub_mul :
    bin .add 2 3 = some 5 ∧ bin .add 0xFFFFFFFF 1 = some 0 ∧ bin .sub 2 3 = some 0xFFFFFFFF ∧
      bin .mul 5 25 = some 125 ∧ bin .mul 0x10000 0x10000 = some 0 := by decide

/-- 44_binary_ops.md R94, the table. -/
theorem test_divisions :
    bin .div 0xFFFFFFF9 2 = some 0xFFFFFFFD ∧ bin .div 0x80000000 0xFFFFFFFF = some 0x80000000 ∧
      bin .mod 0xFFFFFFF9 2 = some 0xFFFFFFFF ∧ bin .mod 7 0xFFFFFFFE = some 1 ∧
      bin .udiv 0xFFFFFFF9 2 = some 0x7FFFFFFC ∧ bin .umod 0xFFFFFFF9 2 = some 1 := by decide

/-- 44_binary_ops.md R93: a division by zero faults and writes nothing. -/
theorem test_division_by_zero :
    got (exec (.umod (.reg 0) (.reg 1) (.reg 2)) (src12 7 0)) (fun t => (t.events, t.regs.ip)) =
      some ([⟨.divisionByZero, 0x10⟩], 0x10) := by decide

/-- 44_binary_ops.md R103 to R105. -/
theorem test_bitwise :
    bin .and 0x0F0F00FF 0x00FFFF00 = some 0x000F0000 ∧ bin .or 0x0F0F00FF 0x00FFFF00 = some 0x0FFFFFFF ∧
      bin .xor 0x0F0F00FF 0x00FFFF00 = some 0x0FF0FFFF := by decide

/-- 44_binary_ops.md R106 to R108. -/
theorem test_shifts :
    bin .shl 0x80000001 4 = some 0x10 ∧ bin .shl 1 32 = some 1 ∧ bin .shl 1 0xFFFFFFFF = some 0x80000000 ∧
      bin .shr 0x80000010 4 = some 0x08000001 ∧ bin .sar 0x80000010 4 = some 0xF8000001 ∧
      bin .sar 0x80000000 31 = some 0xFFFFFFFF := by decide

/-- 44_binary_ops.md R109, R110: the examples, a tie to even, and `x - x`. -/
theorem test_float_sums :
    bin .fadd 0x3FC00000 0x40100000 = some 0x40700000 ∧ bin .fadd 0x3F800000 0x33800000 = some 0x3F800000 ∧
      bin .fadd 0x3F800000 0x33C00000 = some 0x3F800001 ∧
      bin .fsub 0x3FC00000 0x40100000 = some 0xBF400000 ∧ bin .fsub 0x3FC00000 0x3FC00000 = some 0 := by
  decide

/-- 44_binary_ops.md R111, R112: the examples and division by a zero. -/
theorem test_float_products :
    bin .fmul 0x3FC00000 0x40100000 = some 0x40580000 ∧ bin .fdiv 0x3FC00000 0x40100000 = some 0x3F2AAAAB ∧
      bin .fdiv 0x3F800000 0x80000000 = some 0xFF800000 := by decide

/-- 45_unary_ops.md R114 to R117. -/
theorem test_unary_bits :
    un .neg 5 = some 0xFFFFFFFB ∧ un .neg 0x80000000 = some 0x80000000 ∧ un .not 0x0F0F00FF = some 0xF0F0FF00 ∧
      un .fneg 0 = some 0x80000000 ∧ un .fabs 0xBFC00000 = some 0x3FC00000 := by decide

/-- 45_unary_ops.md R118. -/
theorem test_fsqrt :
    un .fsqrt 0x40100000 = some 0x3FC00000 ∧ un .fsqrt 0x40000000 = some 0x3FB504F3 ∧
      un .fsqrt 0x80000000 = some 0x80000000 := by decide +kernel

/-- 45_unary_ops.md R119, R120: the values the spec fixes. -/
theorem test_fsin_fcos :
    un .fsin 0 = some 0 ∧ un .fsin 0x80000000 = some 0x80000000 ∧ un .fcos 0 = some 0x3F800000 := by decide

/-- 45_unary_ops.md R121. -/
theorem test_itof :
    un .itof 125 = some 0x42FA0000 ∧ un .itof 0x7FFFFFFF = some 0x4F000000 ∧
      un .itof 0x01000001 = some 0x4B800000 ∧ un .itof 0x80000000 = some 0xCF000000 := by decide

/-- 45_unary_ops.md R122. -/
theorem test_ftoi :
    un .ftoi 0x40700000 = some 3 ∧ un .ftoi 0xC0700000 = some 0xFFFFFFFD ∧ un .ftoi 0x7FC00000 = some 0 ∧
      un .ftoi 0x4F000000 = some 0x7FFFFFFF ∧ un .ftoi 0xCF000000 = some 0x80000000 := by decide

/-- 46_io.md R123: `Ready`, `NotReady`, and a cell lost to a refused memory destination. -/
theorem test_in :
    got (exec (.inPort (.reg 0) (.imm 0)) { atT id with readAnswers := [some 0x63] })
        (fun t => (t.regs.r0, t.regs.ip, t.portHistory)) = some (0x63, 0x13, [.input 0 0x63]) ∧
      got (exec (.inPort (.reg 0) (.imm 0)) { atT id with readAnswers := [none] })
        (fun t => (t.regs, t.run, t.portHistory)) = some ((atT id).regs, .waiting, []) := by decide

theorem test_in_lost_cell :
    got (exec (.inPort (.sta 0xFF 0 0x200) (.imm 0)) { atT id with readAnswers := [some 0x63] })
      (fun t => (t.events, t.portHistory)) = some ([⟨.segmentationFault, 0x200⟩], [.input 0 0x63]) := by
  decide

/-- 46_io.md R124. -/
theorem test_out :
    got (exec (.outPort (.imm 0) (.reg 1)) { src12 0x68 0 with writeAnswers := [true] })
        (fun t => (t.regs.ip, t.portHistory)) = some (0x13, [.output 0 0x68]) ∧
      got (exec (.outPort (.imm 1) (.reg 1)) (src12 0x68 0)) (fun t => (t.regs.ip, t.run)) =
        some (0x10, .waiting) := by decide

/-- 46_io.md R123, R124: port numbers are signed. -/
theorem test_invalid_port :
    got (exec (.inPort (.reg 0) (.imm 16)) (atT id)) (·.events) = some [⟨.invalidPort, 0x10⟩] ∧
      got (exec (.outPort (.imm 0xFFFFFFFF) (.imm 0)) (atT id)) (·.events) = some [⟨.invalidPort, 0x10⟩] := by
  decide

/-- 47_cmp_mov.md R126 to R128. -/
theorem test_cmp_signed :
    cmp .cmpI32 0xFFFFFFFF 1 = some 0 ∧ cmp .cmpI32 0x7FFFFFFF 0x80000000 = some 2 ∧
      cmp .cmpI16 0x12348000 1 = some 0 ∧ cmp .cmpI16 0xABCD0007 0x12340007 = some 1 ∧
      cmp .cmpI8 0x000000FF 0 = some 0 ∧ cmp .cmpI8 0x00000141 0x40 = some 2 := by decide

/-- 47_cmp_mov.md R129 to R131. -/
theorem test_cmp_unsigned :
    cmp .cmpU32 0xFFFFFFFF 1 = some 2 ∧ cmp .cmpU16 0x12348000 1 = some 2 ∧ cmp .cmpU8 0x000000FF 0 = some 2 ∧
      cmp .cmpU8 0x00000100 0 = some 1 := by decide

/-- 47_cmp_mov.md R132. -/
theorem test_cmp_float :
    cmp .cmpF32 0x3FC00000 0x40100000 = some 0 ∧ cmp .cmpF32 0 0x80000000 = some 1 ∧
      cmp .cmpF32 0x7FC00000 0x7FC00000 = some 0 ∧ cmp .cmpF32 0xBF800000 0xC0000000 = some 2 := by decide

/-- 47_cmp_mov.md R133: register to memory, memory to register, and a jump. -/
theorem test_mov :
    got (exec (.mov (.ind 6 0 0xFFFD) (.reg 2)) (atT fun x => { x with r2 := 9, fp := 0x104 })) (·.mem) =
        some [(0x101, 9)] ∧
      got (exec (.mov (.reg 4) (.imm 0x40)) (atT id)) (·.regs.ip) = some 0x40 := by decide

/-! ## Memory, faults, steps and ticks -/

/-- The canonical form: a zero written back is unlisted, an entry keeps its place. -/
theorem test_memory_canonical :
    Memory.write [(1, 5), (3, 7)] 2 6 = [(1, 5), (2, 6), (3, 7)] ∧ Memory.write [(1, 5), (3, 7)] 3 0 = [(1, 5)] ∧
      Memory.write [(1, 5)] 1 6 = [(1, 6)] := by decide

/-- Read-only storage: one bank refuses a write, one discards it (93_implementation_defined.md U6). -/
theorem test_read_only :
    let s := { atT id with params := { platform with banks := [⟨0x20, 1, .fails⟩, ⟨0x21, 1, .discards⟩] } }
    got (exec (.mov (.sta 0xFF 0 0x20) (.imm 1)) s) (·.events) = some [⟨.segmentationFault, 0x20⟩] ∧
      got (exec (.mov (.sta 0xFF 0 0x21) (.imm 1)) s) (fun t => (t.mem, t.regs.ip)) = some ([], 0x13) := by
  decide

/-- 60_exceptions.md R139: a host that advances IP and resumes. -/
theorem test_recover :
    got (exec .sect { atT id with recoveries := [⟨[(.ip, 0x11)], [], true⟩] }) (fun t => (t.regs.ip, t.run)) =
      some (0x11, .running) := by decide

/-- A step fetches and runs the instruction placed at IP. -/
theorem test_step_withFetchWord :
    got (step ((src12 5 25).withFetchWord 128 (0x0002150A + 1 * 2 ^ 64 + 2 * 2 ^ 96)))
      (fun t => (t.regs.r0, t.regs.ip)) = some (125, 0x14) := by decide

/-- 40_execution_cycle.md R66: zero memory is NOPs, one tick each; HALT ends the Tick. -/
theorem test_tick :
    got (tick 5 State.reset) (·.regs.ip) = some 5 ∧
      got (tick 5 { State.reset with mem := [(2, 1)] }) (fun t => (t.regs.ip, t.run)) = some (3, .halted) := by
  decide

/-! ## Witnesses: for every statement with hypotheses, values that meet them, clause by clause -/

/-- T with one cell of memory set. -/
def withCell (s : State) (a : Nat) (v : Cell) : State := { s with mem := [(a, v)] }

/-- T with a bank at 0x20 that refuses writes and one at 0x21 that discards them. -/
def withRom (s : State) : State :=
  { s with params := { platform with banks := [⟨0x20, 1, .fails⟩, ⟨0x21, 1, .discards⟩] } }

/-- A subtype opcode and one without, every ignored bit different. -/
theorem witness_IgnoredBitsDecideNothing :
    (let w : Cell := 0x0002150A; let w' : Cell := 0xAB02D50A
     opField w' = opField w ∧ argc (opField w) = some 3 ∧ subField w' = subField w ∧
      (∀ k < 3, tagField w' k = tagField w k ∧
        aregField (([0xFFFFFF00, 1, 0x100 + 2] : List Cell).getD k 0) = aregField (([0, 1, 2] : List Cell).getD k 0))) ∧
    (let w : Cell := 0x00000002; let w' : Cell := 0xFFFFFC02
     opField w' = opField w ∧ argc (opField w) = some 1 ∧ opField w ∉ ([0x05, 0x0A, 0x0B, 0x0E] : List Byte) ∧
      tagField w' 0 = tagField w 0 ∧ tagField w 0 ≠ 1) := by decide

/-- The greatest legal and the least illegal opcode; with three argument words, the same for each subtype space. -/
theorem witness_DecodeRejectsExactlyTheIllegal :
    (¬ 0x10 < (opField 0x10).toNat ∧ 0x10 < (opField 0x11).toNat ∧ 3 ≤ ([0, 0, 0] : List Cell).length) ∧
    (opField 0x00060005 = 0x05 ∧ 0x05 < (subField 0x00060005).toNat ∧ ¬ 0x05 < (subField 0x00050005).toNat) ∧
    (opField 0x0011000A = 0x0A ∧ 0x10 < (subField 0x0011000A).toNat ∧ ¬ 0x10 < (subField 0x0010000A).toNat) ∧
    (opField 0x0009000B = 0x0B ∧ 0x08 < (subField 0x0009000B).toNat ∧ ¬ 0x08 < (subField 0x0008000B).toNat) ∧
    (opField 0x0003000E = 0x0E ∧ (subField 0x0003000E).toNat ∉ [0x00, 0x01, 0x02, 0x04, 0x05, 0x06, 0x08] ∧
      (subField 0x0008000E).toNat ∈ [0x00, 0x01, 0x02, 0x04, 0x05, 0x06, 0x08]) := by decide

theorem witness_ReencodingKeepsEveryReadBit :
    decode [0xFFFFFD02, 0xABCDEF03, 9] = .ok (.push (.reg 3), [9]) := rfl

/-- Without answers of the hook, and Waiting with one that does not pause. -/
theorem witness_StepRunsTheDecodedInstruction :
    let s := { atT id with mem := [(0x10, 4), (0x11, 0x30)] }
    (s.run ≠ .halted ∧ s.pauseAnswers.head? ≠ some true ∧ s.getValue s.pc = some 4 ∧
      ∀ k < 1, s.getValue (s.pc + 1 + BitVec.ofNat 32 k) = ([0x30] : List Cell)[k]?) ∧
    (let t := { s with run := .waiting, pauseAnswers := [false] }
     t.run ≠ .halted ∧ t.pauseAnswers.head? ≠ some true) ∧
    decode [4, 0x30] = .ok (.jmp (.imm 0x30), []) :=
  ⟨by decide, by decide, rfl⟩

/-- The first cell outside memory; the least illegal opcode; argument words that run out at the end of memory, at
the first and at the second word; an invalid subtype. -/
theorem witness_FetchAndDecodeFaultsInOrder :
    (let s := atT fun x => { x with ip := 0x200 }
     s.run ≠ .halted ∧ s.getValue s.pc = none) ∧
    (let s := withCell (atT id) 0x10 0x11
     s.getValue s.pc = some 0x11 ∧ 0x10 < (opField 0x11).toNat) ∧
    (let s := withCell (atT fun x => { x with ip := 0x1FF }) 0x1FF 2
     s.getValue s.pc = some 2 ∧ argc (opField 2) = some 1 ∧ s.getValue (s.pc + 1 + BitVec.ofNat 32 0) = none) ∧
    (let s := withCell (atT fun x => { x with ip := 0x1FE }) 0x1FE 0x0A
     s.getValue s.pc = some 0x0A ∧ argc (opField 0x0A) = some 3 ∧
      (∀ j < 1, s.getValue (s.pc + 1 + BitVec.ofNat 32 j) ≠ none) ∧
      s.getValue (s.pc + 1 + BitVec.ofNat 32 1) = none) ∧
    (let s := withCell (atT id) 0x10 0x00060005
     s.getValue s.pc = some 0x00060005 ∧ argc (opField 0x00060005) = some ([0] : List Cell).length ∧
      (∀ k < 1, s.getValue (s.pc + 1 + BitVec.ofNat 32 k) = ([0] : List Cell)[k]?) ∧
      s.pauseAnswers.head? ≠ some true) ∧
    decode [0x00060005, 0] = .error .invalidSubtype :=
  ⟨by decide, by decide, by decide, by decide, by decide, rfl⟩

theorem witness_PausedStepOnlyWaits :
    let s := { withCell (atT id) 0x10 2 with pauseAnswers := [true] }
    s.run ≠ .halted ∧ s.getValue s.pc = some 2 ∧ argc (opField 2) = some ([0] : List Cell).length ∧
      (∀ k < 1, s.getValue (s.pc + 1 + BitVec.ofNat 32 k) = ([0] : List Cell)[k]?) ∧
      s.pauseAnswers.head? = some true := by decide

/-- A Halted core; budgets above, at and below the cost of the instruction; a step that does not complete. -/
theorem witness_TickChargesUntilItEnds :
    ({ atT id with run := .halted } : State).run = .halted ∧
    ((atT id).params.wf ∧ (atT id).run ≠ .halted ∧
      got (step (atT id)) (·.last) = some (some (.completed 1)) ∧ 1 < 2 ∧ ¬ 1 < 1) ∧
    (got (step (withCell (atT id) 0x10 0x000F010A)) (·.last) = some (some (.completed 2)) ∧ ¬ 2 < 1) ∧
    got (step (withCell (atT id) 0x10 1)) (·.last) = some (some (.haltedByInstruction 1)) := by decide

/-- A step with each of the five outcomes, of cores that are not Halted. -/
theorem witness_StepHasOneOfFiveOutcomes :
    got (step (atT id)) (·.last) = some (some (.completed 1)) ∧
    got (step (withCell (atT id) 0x10 1)) (·.last) = some (some (.haltedByInstruction 1)) ∧
    got (step { atT id with mem := [(0x10, 0x0D), (0x11, 1)] }) (·.last) = some (some .waited) ∧
    got (step { atT id with pauseAnswers := [true] }) (·.last) = some (some .paused) ∧
    got (step (withCell (atT id) 0x10 0x10)) (·.last) = some (some (.faulted .sectionBoundary 0x10)) ∧
    (atT id).run ≠ .halted ∧ (atT id).recoveries = [] := by decide

/-- Two waits on port 1. -/
theorem witness_WaitsLeaveNoTraceAndRetryAlike :
    let s := { atT id with mem := [(0x10, 0x0D), (0x11, 1)] }
    s.run ≠ .halted ∧ step s = .next s.wait ∧ step s.wait = .next s.wait ∧ s.wait.last = some .waited :=
  ⟨by decide, rfl, rfl, rfl⟩

theorem witness_EveryStepKeepsInv :
    State.Inv (withCell (atT id) 0x30 5) ∧ ∃ t, step (withCell (atT id) 0x30 5) = .next t :=
  ⟨by decide, _, rfl⟩

/-- A step that delivers an event, and one that makes a port transfer. -/
theorem witness_HistoriesGrowByAtMostOne :
    got (step (withCell (atT id) 0x10 0x10)) (·.events) = some [⟨.sectionBoundary, 0x10⟩] ∧
    got (step { withCell (atT id) 0x10 0x0D with writeAnswers := [true] }) (·.portHistory) =
      some [.output 0 0] := by decide

theorem witness_TakingAFaultHaltsAndTellsTheHost :
    ({ platform with errorCallback := false } : Params).errorCallback = false ∧
    ((atT id).params.errorCallback = true ∧ (atT id).recoveries = []) ∧
    (let s := { atT id with recoveries := [⟨[(.ip, 0x11)], [(0x30, 1)], true⟩, ⟨[], [], false⟩] }
     s.params.errorCallback = true ∧ s.recoveries = ⟨[(.ip, 0x11)], [(0x30, 1)], true⟩ :: [⟨[], [], false⟩]) := by
  decide

/-- A precise fault, and the IN whose memory destination is refused. -/
theorem witness_FaultsArePrecise :
    (let s := withCell (atT id) 0x10 0x10
     s.run ≠ .halted ∧ s.recoveries = [] ∧
      got (step s) (·.last) = some (some (.faulted .sectionBoundary 0x10))) ∧
    (let s := { withRom (atT id) with mem := [(0x10, 0x20C), (0x11, 0x2000FF)], readAnswers := [some 7] }
     s.run ≠ .halted ∧ s.recoveries = [] ∧
      got (step s) (fun t => (t.last, t.portHistory)) =
        some (some (.faulted .segmentationFault 0x20), [.input 0 7])) := by decide

/-- A segmentation fault at the first cell outside memory, and a fault of another kind. -/
theorem witness_FaultAddressIsRefusedCellOrPc :
    got (step { atT id with mem := [(0x10, 0x204), (0x11, 0x020000FF)] }) (·.last) =
      some (some (.faulted .segmentationFault 0x200)) ∧
    got (step (withCell (atT id) 0x10 0x10)) (·.last) = some (some (.faulted .sectionBoundary 0x10)) ∧
    (atT id).run ≠ .halted := by decide

/-- One instruction for each kind that execution can raise. -/
theorem witness_FaultKindsByInstruction :
    let kind := fun (i : Instr) (s : State) => got (exec i s) (·.events.map ErrorEvent.kind)
    kind (.jmp (.sta 0xFF 0 0x200)) (atT id) = some [.segmentationFault] ∧
    kind (.push (.imm 0)) (atT fun x => { x with sp := 0x140 }) = some [.stackOverflow] ∧
    kind .leave (atT id) = some [.stackUnderflow] ∧
    kind (.div (.reg 0) (.imm 1) (.imm 0)) (atT id) = some [.divisionByZero] ∧
    kind (.pop (.imm 0)) (atT id) = some [.invalidType] ∧
    kind (.inPort (.reg 0) (.imm 16)) (atT id) = some [.invalidPort] ∧
    kind (.push (.reg 12)) (atT id) = some [.illegalRegister] ∧
    kind .sect (atT id) = some [.sectionBoundary] := by decide

/-- The hypotheses of FirstOperandFaultIsReported (and of `OperandFaults` in the rules of BINOPs): the second argument
bad after a good first one, with a bad third one after it. -/
theorem witness_FirstOperandFaultIsReported :
    (Instr.add (.reg 0) (.reg 12) (.ind 0 32 0)).args =
      [(Role.dst, .reg 0)] ++ (Role.src, .reg 12) :: [(Role.src, .ind 0 32 0)] ∧
    (∀ e, ¬ (atT id).badArg 3 (Role.dst, .reg 0) e) ∧
    (atT id).badArg 3 (Role.src, .reg 12) ⟨.illegalRegister, 0x10⟩ :=
  ⟨rfl, fun _ h => (by cases h), rfl⟩

/-- The second source unreadable after a readable first one. -/
theorem witness_FirstOperandFaultIsReported_read :
    (Instr.add (.reg 0) (.reg 1) (.sta 0xFF 0 0x200)).args =
      [(Role.dst, .reg 0), (Role.src, .reg 1)] ++ (Role.src, .sta 0xFF 0 0x200) :: [] ∧
    (∀ b ∈ (Instr.add (.reg 0) (.reg 1) (.sta 0xFF 0 0x200)).args, ∀ e, ¬ (atT id).badArg 3 b e) ∧
    (atT id).reads 3 (.reg 1) 0 ∧
    srcLoc ((atT id).fetched 3) (atT id).pc (.sta 0xFF 0 0x200) = .ok (.mem 0x200) ∧
    (atT id).getValue 0x200 = none := by
  refine ⟨rfl, ?_, ⟨_, rfl, rfl⟩, rfl, rfl⟩
  intro b hb e h
  simp only [Instr.args, List.mem_cons, List.not_mem_nil, or_false] at hb
  rcases hb with rfl | rfl | rfl <;> cases h

/-- `OperandFaults` in the other rules: one source, one destination, two sources, a destination and a source. -/
theorem witness_OperandFaults :
    ((Instr.push (.reg 12)).args = [] ++ (Role.src, .reg 12) :: [] ∧
      (atT id).badArg 1 (Role.src, .reg 12) ⟨.illegalRegister, 0x10⟩) ∧
    ((Instr.pop (.imm 0)).args = [] ++ (Role.dst, .imm 0) :: [] ∧
      (atT id).badArg 1 (Role.dst, .imm 0) ⟨.invalidType, 0x10⟩) ∧
    ((Instr.cmpU8 (.imm 0) (.ind 11 32 0)).args = [(Role.src, .imm 0)] ++ (Role.src, .ind 11 32 0) :: [] ∧
      (∀ e, ¬ (atT id).badArg 2 (Role.src, .imm 0) e) ∧
      (atT id).badArg 2 (Role.src, .ind 11 32 0) ⟨.invalidType, 0x10⟩) ∧
    ((Instr.mov (.imm 0) (.reg 12)).args = [] ++ (Role.dst, .imm 0) :: [(Role.src, .reg 12)] ∧
      (atT id).badArg 2 (Role.dst, .imm 0) ⟨.invalidType, 0x10⟩) :=
  ⟨⟨rfl, rfl⟩, ⟨rfl, rfl⟩, ⟨rfl, fun _ h => (by cases h), rfl⟩, rfl, rfl⟩

/-- The unreadable source of an instruction with one argument, and of one with a destination before it. -/
theorem witness_OperandFaults_read :
    (∀ b ∈ (Instr.jmp (.sta 0xFF 0 0x200)).args, ∀ e, ¬ (atT id).badArg 1 b e) ∧
    srcLoc ((atT id).fetched 1) (atT id).pc (.sta 0xFF 0 0x200) = .ok (.mem 0x200) ∧
    (∀ b ∈ (Instr.mov (.reg 0) (.sta 0xFF 0 0x200)).args, ∀ e, ¬ (atT id).badArg 2 b e) ∧
    srcLoc ((atT id).fetched 2) (atT id).pc (.sta 0xFF 0 0x200) = .ok (.mem 0x200) ∧
    (atT id).getValue 0x200 = none := by
  refine ⟨?_, rfl, ?_, rfl, rfl⟩ <;> intro b hb e h <;>
    simp only [Instr.args, List.mem_cons, List.not_mem_nil, or_false] at hb
  · subst hb; cases h
  · rcases hb with rfl | rfl <;> cases h

/-- The boundary values of each clause: register numbers 11, 12 and 0xFF, shifts 31 and 32, offsets 0x7FFF and
0x8000. -/
theorem witness_OperandLocationsAndChecks :
    (12 ≤ (12 : Cell).toNat % 2 ^ 8 ∧ regOf (BitVec.ofNat 8 (11 : Cell).toNat) = some .flags) ∧
    ((12 : Cell).toNat % 2 ^ 8 ≠ 0xFF) ∧
    ((0x20FF : Cell).toNat % 2 ^ 8 = 0xFF ∧ 31 < (0x20FF : Cell).toNat / 2 ^ 8 % 2 ^ 8) ∧
    ((0x200B : Cell).toNat % 2 ^ 8 < 12 ∧ 31 < (0x200B : Cell).toNat / 2 ^ 8 % 2 ^ 8) ∧
    ((0xFFFF1FFF : Cell).toNat % 2 ^ 8 = 0xFF ∧ (0xFFFF1FFF : Cell).toNat / 2 ^ 8 % 2 ^ 8 ≤ 31) ∧
    (regOf (BitVec.ofNat 8 (0x7FFF1F0B : Cell).toNat) = some .flags ∧
      (0x7FFF1F0B : Cell).toNat / 2 ^ 8 % 2 ^ 8 ≤ 31 ∧ (0x7FFF1F0B : Cell).toNat / 2 ^ 16 < 2 ^ 15) ∧
    (regOf (BitVec.ofNat 8 (0x80000000 : Cell).toNat) = some .r0 ∧
      ¬ (0x80000000 : Cell).toNat / 2 ^ 16 < 2 ^ 15) := by decide

/-- The last cell of memory accepts a write, the next one and refusing storage do not, discarding storage does. -/
theorem witness_MemoryReadsTheLatestWrite :
    (withRom (atT id)).setValue 0x1FF 5 = some [(0x1FF, 5)] ∧ (withRom (atT id)).setValue 0x200 5 = none ∧
    (withRom (atT id)).setValue 0x20 5 = none ∧ (withRom (atT id)).setValue 0x21 5 = some [] := by decide

/-- A HALT at IP, from Running and from Waiting, with the least budget and with one that is not used up. -/
theorem witness_HaltStopsPastItself_tick :
    let s := withCell (atT id) 0x10 1
    let u := { s with run := .waiting, pauseAnswers := [false] }
    (s.run ≠ .halted ∧ s.pauseAnswers.head? ≠ some true ∧ s.getValue s.pc = some 1 ∧ opField 1 = 0x01) ∧
    (u.run ≠ .halted ∧ u.pauseAnswers.head? ≠ some true ∧ u.getValue u.pc = some 1) ∧ 0 < 1 ∧ 0 < 5 := by decide

theorem witness_HostLoadPlacesTheWords :
    let s := { atT id with params := { platform with loadBase := 0xFFFFFFFF } }
    ([5, 6] : List Cell).length ≤ 2 ^ 32 ∧ ([5, 6] : List Cell)[1]? = some 6 ∧
    (s.params.loadBase + BitVec.ofNat 32 1).toNat < s.params.memSize ∧
    ∀ i < ([5, 6] : List Cell).length, (1 : Cell) ≠ s.params.loadBase + BitVec.ofNat 32 i := by decide

/-- An instruction of one cell and one of four, and a cell outside the four. -/
theorem witness_PlacedInstructionRunsNext :
    decodeTableWord 32 0 = some .nop ∧
    decodeTableWord 128 (0x0002150A + 1 * 2 ^ 64 + 2 * 2 ^ 96) = some (.mul (.reg 0) (.reg 1) (.reg 2)) ∧
    (∀ k < 4, (0x30 : Cell) ≠ (atT id).pc + BitVec.ofNat 32 k) ∧ (0x30 : Cell).toNat < (atT id).params.memSize := by
  decide

/-- The hypotheses of NopOnlyAdvances, HaltStopsPastItself, SectAlwaysFaults and LeaveClosesAFrame. -/
theorem witness_NopHaltSectDecode :
    opField 0xABCDEF00 = 0x00 ∧ opField 0xABCDEF01 = 0x01 ∧ opField 0xABCDEF10 = 0x10 ∧ opField 0xABCDEF09 = 0x09 ∧
      (atT id).recoveries = [] := by decide

/-- SP at the limit and just below it, on a slot that is RAM and on one outside memory. -/
theorem witness_PushStoresAtSp :
    let full := atT fun x => { x with sp := 0x140 }
    let last := atT fun x => { x with sp := 0x13F }
    let out := atT fun x => { x with sp := 0x200, sb := 0x1F0 }
    (full.reads 1 (.imm 7) 7 ∧ full.regs.sb.toNat + full.regs.ss.toNat ≤ full.regs.sp.toNat) ∧
    (last.reads 1 (.imm 7) 7 ∧ last.regs.sp.toNat < last.regs.sb.toNat + last.regs.ss.toNat ∧
      last.acceptsAt last.regs.sp) ∧
    (out.reads 1 (.imm 7) 7 ∧ out.regs.sp.toNat < out.regs.sb.toNat + out.regs.ss.toNat ∧
      ¬ out.acceptsAt out.regs.sp) :=
  ⟨⟨⟨_, rfl, rfl⟩, by decide⟩, ⟨⟨_, rfl, rfl⟩, by decide, by decide, by decide⟩,
    ⟨_, rfl, rfl⟩, by decide, fun h => absurd h.1 (by decide)⟩

/-- SP at SB and just above it; the cell below SP outside memory; a destination that accepts and one that refuses. -/
theorem witness_PopTakesTheCellBelowSp :
    let one := withCell (atT fun x => { x with sp := 0x101 }) 0x100 7
    let out := atT fun x => { x with sp := 0x201, sb := 0x1F0 }
    ((atT id).locates 1 (.reg 1) (.reg .r1) ∧ (atT id).regs.sp.toNat ≤ (atT id).regs.sb.toNat) ∧
    (one.locates 1 (.reg 1) (.reg .r1) ∧ one.regs.sb.toNat < one.regs.sp.toNat ∧
      one.getValue (one.regs.sp - 1) = some 7 ∧ one.accepts (.reg .r1)) ∧
    (one.locates 1 (.sta 0xFF 0 0x200) (.mem 0x200) ∧ ¬ one.acceptsAt 0x200) ∧
    (out.regs.sb.toNat < out.regs.sp.toNat ∧ out.getValue (out.regs.sp - 1) = none) :=
  ⟨⟨rfl, by decide⟩, ⟨rfl, by decide, rfl, trivial⟩, ⟨rfl, fun h => absurd h.1 (by decide)⟩, by decide, rfl⟩

theorem witness_PushThenPopRestoresSp :
    let s := atT id
    s.reads 1 (.imm 7) 7 ∧ s.regs.sb.toNat ≤ s.regs.sp.toNat ∧ s.regs.sp.toNat + 1 < 2 ^ 32 ∧
      s.regs.sp.toNat < s.regs.sb.toNat + s.regs.ss.toNat ∧ s.regs.sp.toNat < s.params.memSize ∧
      Params.romAt s.params s.regs.sp.toNat = none ∧ regOf 1 = some .r1 :=
  ⟨⟨_, rfl, rfl⟩, by decide, by decide, by decide, by decide, rfl, rfl⟩

/-- A target from an immediate, from a register and from memory. -/
theorem witness_JmpSetsIp :
    (atT id).reads 1 (.imm 0x40) 0x40 ∧ (atT id).reads 1 (.reg 4) 0x12 ∧
      (withCell (atT id) 0x1FF 9).reads 1 (.sta 0xFF 0 0x1FF) 9 :=
  ⟨⟨_, rfl, rfl⟩, ⟨_, rfl, rfl⟩, ⟨_, rfl, rfl⟩⟩

/-- The four flag states, with a readable target. -/
theorem witness_JmpcJumpsByTheFlags :
    (∀ f : Cell, (atT fun x => { x with flags := f }).reads 1 (.imm 0x30) 0x30) ∧
    ([0, 1, 2, 3] : List Cell).map (fun f => (f.getLsbD 0, f.getLsbD 1)) =
      [(false, false), (true, false), (false, true), (true, true)] :=
  ⟨fun _ => ⟨_, rfl, rfl⟩, by decide⟩

theorem witness_CallPushesTheReturnAddress :
    let full := atT fun x => { x with sp := 0x140 }
    let last := atT fun x => { x with sp := 0x13F }
    let out := atT fun x => { x with sp := 0x200, sb := 0x1F0 }
    (full.reads 1 (.imm 0x40) 0x40 ∧ full.regs.sb.toNat + full.regs.ss.toNat ≤ full.regs.sp.toNat) ∧
    (last.reads 1 (.imm 0x40) 0x40 ∧ last.regs.sp.toNat < last.regs.sb.toNat + last.regs.ss.toNat ∧
      last.acceptsAt last.regs.sp) ∧
    (out.regs.sp.toNat < out.regs.sb.toNat + out.regs.ss.toNat ∧ ¬ out.acceptsAt out.regs.sp) :=
  ⟨⟨⟨_, rfl, rfl⟩, by decide⟩, ⟨⟨_, rfl, rfl⟩, by decide, by decide, by decide⟩, by decide,
    fun h => absurd h.1 (by decide)⟩

/-- Exactly the slots there are, one too many, and a return cell outside memory. -/
theorem witness_RetReturnsAndDiscards :
    let s := withCell (atT fun x => { x with sp := 0x103 }) 0x102 0x12
    let out := atT fun x => { x with sp := 0x201, sb := 0x1F0 }
    (s.reads 2 (.imm 0) 0 ∧ s.reads 2 (.imm 2) 2 ∧ s.regs.sb.toNat + 0 + 1 + 2 ≤ s.regs.sp.toNat ∧
      s.getValue (s.regs.sp - 0 - 1) = some 0x12) ∧
    (s.reads 2 (.imm 3) 3 ∧ s.regs.sp.toNat < s.regs.sb.toNat + 0 + 1 + 3) ∧
    (out.reads 2 (.imm 0) 0 ∧ out.regs.sb.toNat + 0 + 1 + 0 ≤ out.regs.sp.toNat ∧
      out.getValue (out.regs.sp - 0 - 1) = none) :=
  ⟨⟨⟨_, rfl, rfl⟩, ⟨_, rfl, rfl⟩, by decide, rfl⟩, ⟨⟨_, rfl, rfl⟩, by decide⟩, ⟨_, rfl, rfl⟩, by decide, rfl⟩

/-- The greatest frame that fits, one slot more, and a saved-FP slot outside memory. -/
theorem witness_EnterOpensAFrame :
    let s := atT id
    let out := atT fun x => { x with sp := 0x200, sb := 0x1F0 }
    (s.reads 1 (.imm 0x3F) 0x3F ∧ s.regs.sp.toNat + 1 + 0x3F ≤ s.regs.sb.toNat + s.regs.ss.toNat ∧
      s.acceptsAt s.regs.sp) ∧
    (s.reads 1 (.imm 0x40) 0x40 ∧ s.regs.sb.toNat + s.regs.ss.toNat < s.regs.sp.toNat + 1 + 0x40) ∧
    (out.reads 1 (.imm 0) 0 ∧ out.regs.sp.toNat + 1 + 0 ≤ out.regs.sb.toNat + out.regs.ss.toNat ∧
      ¬ out.acceptsAt out.regs.sp) :=
  ⟨⟨⟨_, rfl, rfl⟩, by decide, by decide, by decide⟩, ⟨⟨_, rfl, rfl⟩, by decide⟩, ⟨_, rfl, rfl⟩, by decide,
    fun h => absurd h.1 (by decide)⟩

/-- FP at SB, just above it, and above a cell outside memory. -/
theorem witness_LeaveClosesAFrame :
    let low := atT fun x => { x with fp := 0x100 }
    let one := atT fun x => { x with fp := 0x101 }
    let out := atT fun x => { x with fp := 0x201 }
    low.regs.fp.toNat ≤ low.regs.sb.toNat ∧
    (one.regs.sb.toNat < one.regs.fp.toNat ∧ one.getValue (one.regs.fp - 1) = some 0) ∧
    (out.regs.sb.toNat < out.regs.fp.toNat ∧ out.getValue (out.regs.fp - 1) = none) := by decide

/-- The state right after ENTER, with three cells pushed above the frame. -/
theorem witness_LeaveUndoesEnter :
    let s := atT id
    let t := s.commit { s.fetched 1 with fp := 0x101, sp := 0x103 } s.mem 1
    let u := { t with regs := { t.regs with sp := 0x106 } }
    s.reads 1 (.imm 2) 2 ∧ s.regs.sb.toNat ≤ s.regs.sp.toNat ∧ s.regs.sp.toNat + 1 < 2 ^ 32 ∧
      s.regs.sp.toNat + 1 + 2 ≤ s.regs.sb.toNat + s.regs.ss.toNat ∧ s.regs.sp.toNat < s.params.memSize ∧
      Params.romAt s.params s.regs.sp.toNat = none ∧ exec (.enter (.imm 2)) s = .next t ∧
      u.regs.fp = t.regs.fp ∧ u.regs.sb = t.regs.sb ∧
      u.getValue (t.regs.fp - 1) = t.getValue (t.regs.fp - 1) :=
  ⟨⟨_, rfl, rfl⟩, by decide, by decide, by decide, by decide, rfl, rfl, rfl, rfl, rfl⟩

/-- The state right after CALL, with three cells above the return address. -/
theorem witness_RetUndoesCall :
    let s := atT id
    let t := s.commit { s.fetched 1 with sp := 0x101, ip := 0x40 } [(0x100, 0x12)] 1
    let u := { t with regs := { t.regs with sp := 0x104 } }
    s.reads 1 (.imm 0x40) 0x40 ∧ s.regs.sb.toNat ≤ s.regs.sp.toNat ∧ s.regs.sp.toNat + 1 + 3 < 2 ^ 32 ∧
      s.regs.sp.toNat < s.regs.sb.toNat + s.regs.ss.toNat ∧ s.regs.sp.toNat < s.params.memSize ∧
      Params.romAt s.params s.regs.sp.toNat = none ∧ exec (.call (.imm 0x40)) s = .next t ∧
      u.regs.sp = t.regs.sp + 3 ∧ u.regs.sb = t.regs.sb ∧ u.getValue s.regs.sp = t.getValue s.regs.sp :=
  ⟨⟨_, rfl, rfl⟩, by decide, by decide, by decide, by decide, rfl, rfl, rfl, rfl, rfl⟩

/-- Operands of a BINOP: registers for every pair of values; a destination in memory that accepts, one outside
memory, one in refusing storage. These meet the hypotheses of AddSubMulWrap, AndOrXorBitwise, ShiftsByTheLowFiveBits,
FloatSumsExactlyRounded and FloatProductsExactlyRounded, for every pair of source values. -/
theorem witness_BinaryRule :
    (∀ p q : Cell, (src12 p q).locates 3 (.reg 0) (.reg .r0) ∧ (src12 p q).reads 3 (.reg 1) p ∧
      (src12 p q).reads 3 (.reg 2) q ∧ (src12 p q).accepts (.reg .r0)) ∧
    ((withRom (src12 1 2)).locates 3 (.sta 0xFF 0 0x1FF) (.mem 0x1FF) ∧ (withRom (src12 1 2)).acceptsAt 0x1FF) ∧
    ((withRom (src12 1 2)).locates 3 (.sta 0xFF 0 0x200) (.mem 0x200) ∧ ¬ (withRom (src12 1 2)).acceptsAt 0x200) ∧
    ((withRom (src12 1 2)).locates 3 (.sta 0xFF 0 0x20) (.mem 0x20) ∧ ¬ (withRom (src12 1 2)).acceptsAt 0x20) :=
  ⟨fun _ _ => ⟨rfl, ⟨_, rfl, rfl⟩, ⟨_, rfl, rfl⟩, trivial⟩, ⟨rfl, by decide, by decide⟩,
    ⟨rfl, fun h => absurd h.1 (by decide)⟩, rfl, fun h => absurd rfl h.2⟩

/-- The hypotheses of DivisionsTruncateOrFault, with a divisor of zero and one that is not. -/
theorem witness_DivisionRule :
    ((src12 7 0).locates 3 (.reg 0) (.reg .r0) ∧ (src12 7 0).reads 3 (.reg 1) 7 ∧ (src12 7 0).reads 3 (.reg 2) 0) ∧
    ((src12 0x80000000 0xFFFFFFFF).locates 3 (.reg 0) (.reg .r0) ∧
      (src12 0x80000000 0xFFFFFFFF).reads 3 (.reg 1) 0x80000000 ∧
      (src12 0x80000000 0xFFFFFFFF).reads 3 (.reg 2) 0xFFFFFFFF ∧ (0xFFFFFFFF : Cell) ≠ 0) :=
  ⟨⟨rfl, ⟨_, rfl, rfl⟩, ⟨_, rfl, rfl⟩⟩, rfl, ⟨_, rfl, rfl⟩, ⟨_, rfl, rfl⟩, by decide⟩

theorem witness_QuotientAndRemainderAgree : (0xFFFFFFFF : Cell) ≠ 0 := by decide

/-- Values of every kind of float the clauses name: NaN, infinities, the greatest finite float, the least subnormal,
the two zeros; a sum of zero and one that is not. -/
theorem witness_float_kinds :
    isNaN 0x7F800001 = true ∧ isNaN 0xFFC00000 = true ∧
    (isInf 0x7F800000 = true ∧ isInf 0xFF800000 = true ∧ signBit 0xFF800000 = true ∧ signBit 0x7F800000 = false) ∧
    (isFinite 0x7F7FFFFF ∧ isFinite 1 ∧ isFinite 0 ∧ isFinite 0x80000000) ∧
    (floatMag 0x80000000 = 0 ∧ floatMag 1 ≠ 0) ∧
    (floatUnits 0x3F800000 + floatUnits 0xBF800000 = 0 ∧ floatUnits 0x3F800000 + floatUnits 1 ≠ 0) := by
  decide

/-- Operands of a UNOP. These meet the hypotheses of NegationsAndComplement, SquareRootExactlyRounded,
SineAndCosineWithinTheirBounds and ConversionsRoundAndSaturate, for every source value. -/
theorem witness_UnaryRule :
    (∀ p : Cell, (src12 p 0).locates 2 (.reg 0) (.reg .r0) ∧ (src12 p 0).reads 2 (.reg 1) p ∧
      (src12 p 0).accepts (.reg .r0)) ∧
    ((src12 1 2).locates 2 (.sta 0xFF 0 0x200) (.mem 0x200) ∧ ¬ (src12 1 2).acceptsAt 0x200) :=
  ⟨fun _ => ⟨rfl, ⟨_, rfl, rfl⟩, trivial⟩, rfl, fun h => absurd h.1 (by decide)⟩

/-- Floats at the limits of the conversion: `2^31`, the float below it, `-2^31`, the float above it. -/
theorem witness_ConversionsRoundAndSaturate :
    2 ^ 31 * 2 ^ 149 ≤ floatUnits 0x4F000000 ∧
    (-(2 ^ 31 * 2 ^ 149) < floatUnits 0x4EFFFFFF ∧ floatUnits 0x4EFFFFFF < 2 ^ 31 * 2 ^ 149) ∧
    floatUnits 0xCF000000 ≤ -(2 ^ 31 * 2 ^ 149) ∧ -(2 ^ 31 * 2 ^ 149) < floatUnits 0xCEFFFFFF := by decide

/-- Port numbers -1, 0, 1, the last one and the first beyond; each answer; a destination that is refused. -/
theorem witness_InDeliversWaitsOrFaults :
    ((atT id).locates 2 (.reg 0) (.reg .r0) ∧ (atT id).accepts (.reg .r0) ∧ ∀ p, (atT id).reads 2 (.imm p) p) ∧
    ((0xFFFFFFFF : Cell).toInt < 0 ∧ ((atT id).params.portCount : Int) ≤ (16 : Cell).toInt) ∧
    (0 ≤ (15 : Cell).toInt ∧ (15 : Cell).toInt < (atT id).params.portCount) ∧
    (0 ≤ (1 : Cell).toInt ∧ (1 : Cell).toInt < (atT id).params.portCount) ∧ (0 : Cell) ≠ 1 ∧
    ({ atT id with readAnswers := [none] } : State).readAnswers = none :: [] ∧
    ({ atT id with readAnswers := [some 0x63] } : State).readAnswers = some 0x63 :: [] ∧
    ((atT id).locates 2 (.sta 0xFF 0 0x200) (.mem 0x200) ∧ ¬ (atT id).acceptsAt 0x200) :=
  ⟨⟨rfl, trivial, fun _ => ⟨_, rfl, rfl⟩⟩, by decide, by decide, by decide, by decide, rfl, rfl, rfl,
    fun h => absurd h.1 (by decide)⟩

theorem witness_OutDeliversWaitsOrFaults :
    (∀ p v, (atT id).reads 2 (.imm p) p ∧ (atT id).reads 2 (.imm v) v) ∧
    ((0xFFFFFFFF : Cell).toInt < 0 ∧ ((atT id).params.portCount : Int) ≤ (16 : Cell).toInt) ∧
    (0 ≤ (15 : Cell).toInt ∧ (15 : Cell).toInt < (atT id).params.portCount) ∧ (0 : Cell) ≠ 1 ∧
    ({ atT id with writeAnswers := [false] } : State).writeAnswers = false :: [] ∧
    ({ atT id with writeAnswers := [true] } : State).writeAnswers = true :: [] :=
  ⟨fun _ _ => ⟨⟨_, rfl, rfl⟩, _, rfl, rfl⟩, by decide, by decide, by decide, rfl, rfl⟩

/-- Ports 0 and 15 of a host with no decided answer. -/
theorem witness_UndecidedPortsWaitOrTransfer :
    (atT id).locates 2 (.reg 0) (.reg .r0) ∧ (∀ p, (atT id).reads 2 (.imm p) p) ∧ (atT id).accepts (.reg .r0) ∧
    (0 ≤ (0 : Cell).toInt ∧ (0 : Cell) ≠ 1) ∧
    ((15 : Cell).toInt < (atT id).params.portCount ∧ (15 : Cell) ≠ 1) ∧
    (atT id).readAnswers = [] ∧ (atT id).writeAnswers = [] ∧
    ((atT id).locates 2 (.sta 0xFF 0 0x200) (.mem 0x200) ∧ ¬ (atT id).acceptsAt 0x200) :=
  ⟨rfl, fun _ => ⟨_, rfl, rfl⟩, trivial, by decide, by decide, rfl, rfl, rfl, fun h => absurd h.1 (by decide)⟩

/-- Operands of a CMP for every pair of values; pairs that are equal, greater and less, signed, unsigned and float:
the hypotheses of IntegerComparisonsSetFlags and FloatComparisonSetsFlags. -/
theorem witness_CompareRule :
    (∀ p q : Cell, (src12 p q).reads 2 (.reg 1) p ∧ (src12 p q).reads 2 (.reg 2) q) ∧
    ((5 : Cell).toInt = (5 : Cell).toInt ∧ (0x80000000 : Cell).toInt < (0x7FFFFFFF : Cell).toInt ∧
      ¬ (0x7FFFFFFF : Cell).toInt < (0x80000000 : Cell).toInt) ∧
    ((1 : Cell).toNat < (0xFFFFFFFF : Cell).toNat ∧ ¬ (0xFFFFFFFF : Cell).toNat < (1 : Cell).toNat) ∧
    (floatUnits 0 = floatUnits 0x80000000 ∧ floatUnits 0xC0000000 < floatUnits 0xBF800000) :=
  ⟨fun _ _ => ⟨⟨_, rfl, rfl⟩, _, rfl, rfl⟩, by decide, by decide, by decide⟩

/-- A register and a memory destination; a source from each mode. -/
theorem witness_MovCopiesTheCell :
    (atT id).locates 2 (.reg 0) (.reg .r0) ∧ (atT id).locates 2 (.ind 7 0 0) (.mem 0x100) ∧
    (atT id).reads 2 (.imm 9) 9 ∧ (atT id).reads 2 (.reg 4) 0x13 ∧
    (withCell (atT id) 0x100 7).reads 2 (.ind 7 0 0) 7 ∧ (withCell (atT id) 0x1A 8).reads 2 (.sta 0xFF 0 0x1A) 8 :=
  ⟨rfl, rfl, ⟨_, rfl, rfl⟩, ⟨_, rfl, rfl⟩, ⟨_, rfl, rfl⟩, ⟨_, rfl, rfl⟩⟩

/-- An instruction that completes with a register other than its own, and one that stores. -/
theorem witness_EveryInstructionFrame :
    got (exec (.push (.imm 7)) (atT id)) (·.last) = some (some (.completed 1)) ∧
    (RegId.r0 ≠ .ip ∧ RegId.r0 ∉ (Instr.push (.imm 7)).implicit ∧ ¬ (atT id).targets (.push (.imm 7)) .r0) ∧
    ¬ (atT id).storesTo (.push (.imm 7)) 0x101 := by
  refine ⟨by decide, ⟨by decide, by decide, ?_⟩, ?_⟩
  · rintro ⟨o, h, _⟩
    simp [Instr.args] at h
  · rintro (⟨_, h⟩ | ⟨o, h, _⟩)
    · revert h; decide
    · simp [Instr.args] at h

end Sys2Proof.Tests
end

section
/-! The bits the decoder reads (spec/30_encoding.md R49, R57, R59): which opcodes have how many arguments and which
have a subtype, and that decoding depends on nothing else. -/

namespace Sys2Proof

/-! ## The rows of the opcode map, by their number of arguments -/

theorem mem_of_argc_eq_zero {op : Byte} : argc op = some 0 → op ∈ ([0x00, 0x01, 0x09, 0x10] : List Byte) := by
  revert op; decide

theorem mem_of_argc_eq_one {op : Byte} :
    argc op = some 1 → op ∈ ([0x02, 0x03, 0x04, 0x05, 0x06, 0x08] : List Byte) := by
  revert op; decide

theorem mem_of_argc_eq_two {op : Byte} :
    argc op = some 2 → op ∈ ([0x07, 0x0B, 0x0C, 0x0D, 0x0E, 0x0F] : List Byte) := by
  revert op; decide

/-- No instruction has more than three arguments (30_encoding.md R45). -/
theorem argc_le_three {op : Byte} {n : Nat} (h : argc op = some n) : n ≤ 3 := by
  have bound : ∀ op : Byte, (argc op).all (· ≤ 3) = true := by decide
  simpa [h] using bound op

/-! ## What the opcode map reads -/

/-- Only JMPC, BINOP, UNOP and CMP read the subtype (30_encoding.md R57, R59). -/
theorem instrOf_congr_sub {op sub sub' : Byte}
    (hsub : op ∈ ([0x05, 0x0A, 0x0B, 0x0E] : List Byte) → sub' = sub) (o0 o1 o2 : Operand) :
    instrOf op sub' o0 o1 o2 = instrOf op sub o0 o1 o2 := by
  by_cases hmem : op ∈ ([0x05, 0x0A, 0x0B, 0x0E] : List Byte)
  · rw [hsub hmem]
  · simp only [List.mem_cons, List.not_mem_nil, or_false, not_or, ← BitVec.toNat_inj] at hmem
    obtain ⟨hjmpc, hbinop, hunop, hcmp⟩ := hmem
    unfold instrOf
    split
    case h_6 h => exact absurd h hjmpc
    case h_11 h => exact absurd h hbinop
    case h_12 h => exact absurd h hunop
    case h_15 h => exact absurd h hcmp
    all_goals rfl

/-- The opcode map reads only the operands its opcode has (30_encoding.md R49, R59). -/
theorem instrOf_congr_operands {op : Byte} {n : Nat} (hn : argc op = some n) (sub : Byte) {o o' : Nat → Operand}
    (ho : ∀ k < n, o' k = o k) :
    instrOf op sub (o' 0) (o' 1) (o' 2) = instrOf op sub (o 0) (o 1) (o 2) := by
  have hle : n ≤ 3 := argc_le_three hn
  obtain rfl | rfl | rfl | rfl : n = 0 ∨ n = 1 ∨ n = 2 ∨ n = 3 := by omega
  · have hop := mem_of_argc_eq_zero hn
    fin_cases hop <;> rfl
  · have hop := mem_of_argc_eq_one hn
    rw [ho 0 (by decide)]
    fin_cases hop <;> rfl
  · have hop := mem_of_argc_eq_two hn
    rw [ho 0 (by decide), ho 1 (by decide)]
    fin_cases hop <;> rfl
  · rw [ho 0 (by decide), ho 1 (by decide), ho 2 (by decide)]

/-- Of a register argument only byte 0 is read (30_encoding.md R51, R59). -/
theorem operandOf_congr {t : BitVec 2} {a a' : Cell}
    (h : if t = 1 then aregField a' = aregField a else a' = a) : operandOf t a' = operandOf t a := by
  by_cases ht : t = 1
  · subst ht
    exact congrArg Operand.reg h
  · rw [if_neg ht] at h
    rw [h]

/-! ## Decoding -/

/-- Decoding an instruction cell with exactly its argument words. -/
theorem decode_cons_of_length {w : Cell} {as : List Cell} {n : Nat} (hn : argc (opField w) = some n)
    (hlen : as.length = n) :
    decode (w :: as) =
      (decodeCell w (as.getD 0 0) (as.getD 1 0) (as.getD 2 0)).map fun i => (i, []) := by
  subst hlen
  simp only [decode, hn, Nat.lt_irrefl, if_false, List.drop_length]
  cases decodeCell w (as.getD 0 0) (as.getD 1 0) (as.getD 2 0) <;> rfl

/-- Settles O2: the opcode map reads the subtype only where the opcode has one and the operands only as many as it
has, and of each operand only the bits its tag gives a meaning. -/
theorem ignoredBitsDecideNothing : Obligations.IgnoredBitsDecideNothing := by
  intro w w' as as' n hop hn hlen hlen' hsub htag hword
  have hn' : argc (opField w') = some n := by rw [hop, hn]
  have hoperand : ∀ k < n, operandOf (tagField w' k) (as'.getD k 0) = operandOf (tagField w k) (as.getD k 0) := by
    intro k hk
    rw [htag k hk]
    exact operandOf_congr (hword k hk)
  rw [decode_cons_of_length hn' hlen', decode_cons_of_length hn hlen]
  congr 1
  unfold decodeCell
  rw [hop, instrOf_congr_sub hsub]
  exact instrOf_congr_operands hn (subField w) hoperand

end Sys2Proof
end

section
/-! The four addressing modes (spec/30_encoding.md R50 to R55): the fields of an argument word as numbers, the address
arithmetic, and what an operand of each mode names or is refused with, as a source and as a destination. -/

namespace Sys2Proof.Machine

/-! ## The fields of an argument word as numbers -/

theorem aregField_eq_ofNat (a : Cell) : aregField a = BitVec.ofNat 8 a.toNat := by
  apply BitVec.eq_of_toNat_eq
  simp [aregField]

theorem aregField_toNat (a : Cell) : (aregField a).toNat = a.toNat % 2 ^ 8 := by
  simp [aregField]

theorem ashiftField_toNat (a : Cell) : (ashiftField a).toNat = a.toNat / 2 ^ 8 % 2 ^ 8 := by
  simp [ashiftField, Nat.shiftRight_eq_div_pow]

theorem aoffField_toNat (a : Cell) : (aoffField a).toNat = a.toNat / 2 ^ 16 := by
  have ha : a.toNat < 2 ^ 32 := a.isLt
  simp only [aoffField, BitVec.extractLsb'_toNat, Nat.shiftRight_eq_div_pow]
  omega

/-- The offset of a register-indirect operand is signed (30_encoding.md R53). -/
theorem aoffField_toInt (a : Cell) : (aoffField a).toInt =
    if a.toNat / 2 ^ 16 < 2 ^ 15 then (a.toNat / 2 ^ 16 : Int) else (a.toNat / 2 ^ 16 : Int) - 2 ^ 16 := by
  rw [BitVec.toInt_eq_toNat_cond, aoffField_toNat]
  split <;> split <;> omega

/-! ## Address arithmetic: unbounded, wrapped once -/

theorem scaled_setWidth (v : Cell) (sh : Byte) (off : Half) :
    scaled v sh (off.setWidth 32) = BitVec.ofNat 32 (v.toNat * 2 ^ sh.toNat + off.toNat) := by
  apply BitVec.eq_of_toNat_eq
  simp [scaled, Nat.shiftLeft_eq]

theorem scaled_signExtend (v : Cell) (sh : Byte) (off : Half) :
    scaled v sh (off.signExtend 32) = BitVec.ofInt 32 (v.toNat * 2 ^ sh.toNat + off.toInt) := by
  have hshift : v <<< sh.toNat = BitVec.ofInt 32 (v.toNat * 2 ^ sh.toNat) := by
    apply BitVec.eq_of_toNat_eq
    have hcast : (v.toNat * 2 ^ sh.toNat : Int) = (v.toNat * 2 ^ sh.toNat : Nat) := by norm_cast
    rw [hcast, BitVec.ofInt_natCast]
    simp [Nat.shiftLeft_eq]
  rw [scaled, hshift, BitVec.ofInt_add]
  rfl

/-! ## The checks of one operand -/

theorem baseValue_of_register {r : Byte} {i : RegId} (x : Regs) (pc : Cell) (h : regOf r = some i) :
    baseValue x pc r = .ok (x.get i) := by
  simp [baseValue, h]

theorem baseValue_of_illegal {r : Byte} (x : Regs) (pc : Cell) (h : 12 ≤ r.toNat) :
    baseValue x pc r = .error ⟨.illegalRegister, pc⟩ := by
  simp [baseValue, (regOf_eq_none_iff r).2 h]

theorem exists_regOf_of_lt {r : Byte} (h : r.toNat < 12) : ∃ i, regOf r = some i :=
  Option.ne_none_iff_exists'.1 fun hnone => absurd ((regOf_eq_none_iff r).1 hnone) (Nat.not_le.2 h)

@[simp] theorem indexValue_ff (x : Regs) (pc : Cell) : indexValue x pc 0xFF = .ok 0 := rfl

theorem indexValue_of_ne_ff {r : Byte} (x : Regs) (pc : Cell) (h : r ≠ 0xFF) :
    indexValue x pc r = baseValue x pc r := if_neg h

theorem ne_ff_of_regOf {r : Byte} {i : RegId} (h : regOf r = some i) : r ≠ 0xFF := by
  rintro rfl
  cases h

theorem shiftCheck_of_le {sh : Byte} (pc : Cell) (h : sh.toNat ≤ 31) : shiftCheck pc sh = .ok () :=
  if_neg (Nat.not_lt.2 h)

theorem shiftCheck_of_gt {sh : Byte} (pc : Cell) (h : 31 < sh.toNat) :
    shiftCheck pc sh = .error ⟨.invalidType, pc⟩ := if_pos h

/-! ## What an operand of each mode names, as a source and as a destination -/

theorem namesCell_sta {x : Regs} {pc ea : Cell} {r sh : Byte} {off : Half}
    (h : staticAddress x pc r sh off = .ok ea) : namesCell x pc (.sta r sh off) ea := by
  simp [namesCell, srcLoc, dstLoc, h]

theorem refusedWith_sta {x : Regs} {pc : Cell} {r sh : Byte} {off : Half} {k : FaultKind}
    (h : staticAddress x pc r sh off = .error ⟨k, pc⟩) : refusedWith x pc (.sta r sh off) k := by
  simp [refusedWith, srcLoc, dstLoc, h]

theorem namesCell_ind {x : Regs} {pc ea : Cell} {r sh : Byte} {off : Half}
    (h : indirectAddress x pc r sh off = .ok ea) : namesCell x pc (.ind r sh off) ea := by
  simp [namesCell, srcLoc, dstLoc, h]

theorem refusedWith_ind {x : Regs} {pc : Cell} {r sh : Byte} {off : Half} {k : FaultKind}
    (h : indirectAddress x pc r sh off = .error ⟨k, pc⟩) : refusedWith x pc (.ind r sh off) k := by
  simp [refusedWith, srcLoc, dstLoc, h]

section
variable {x : Regs} {pc v : Cell} {r sh : Byte} {off : Half} {i : RegId}

/-! ### Register mode (R51) -/

theorem refusedWith_reg_of_illegal (h : 12 ≤ r.toNat) : refusedWith x pc (.reg r) .illegalRegister := by
  simp [refusedWith, srcLoc, dstLoc, registerOf, (regOf_eq_none_iff r).2 h]

theorem srcLoc_reg (h : regOf r = some i) : srcLoc x pc (.reg r) = .ok (.reg i) := by
  simp [srcLoc, registerOf, h]

theorem dstLoc_reg (h : regOf r = some i) : dstLoc x pc (.reg r) = .ok (.reg i) := by
  simp [dstLoc, registerOf, h]

/-! ### Static mode (R52): the index is checked before the shift -/

theorem refusedWith_sta_of_illegal (hff : r ≠ 0xFF) (h : 12 ≤ r.toNat) :
    refusedWith x pc (.sta r sh off) .illegalRegister :=
  refusedWith_sta <| by simp [staticAddress, indexValue_of_ne_ff x pc hff, baseValue_of_illegal, h]

theorem refusedWith_sta_of_shift (hidx : indexValue x pc r = .ok v) (hsh : 31 < sh.toNat) :
    refusedWith x pc (.sta r sh off) .invalidType :=
  refusedWith_sta <| by simp [staticAddress, hidx, shiftCheck_of_gt, hsh]

theorem namesCell_sta_of_index (hidx : indexValue x pc r = .ok v) (hsh : sh.toNat ≤ 31) :
    namesCell x pc (.sta r sh off) (BitVec.ofNat 32 (v.toNat * 2 ^ sh.toNat + off.toNat)) :=
  namesCell_sta <| by simp [staticAddress, hidx, shiftCheck_of_le, hsh, scaled_setWidth]

theorem indexValue_of_register (h : regOf r = some i) : indexValue x pc r = .ok (x.get i) := by
  rw [indexValue_of_ne_ff x pc (ne_ff_of_regOf h), baseValue_of_register x pc h]

theorem exists_indexValue (h : r = 0xFF ∨ r.toNat < 12) : ∃ v, indexValue x pc r = .ok v := by
  rcases h with rfl | hlt
  · exact ⟨0, indexValue_ff x pc⟩
  · obtain ⟨i, hi⟩ := exists_regOf_of_lt hlt
    exact ⟨x.get i, indexValue_of_register hi⟩

/-! ### Register-indirect mode (R53): the base is checked before the shift -/

theorem refusedWith_ind_of_illegal (h : 12 ≤ r.toNat) : refusedWith x pc (.ind r sh off) .illegalRegister :=
  refusedWith_ind <| by simp [indirectAddress, baseValue_of_illegal, h]

theorem refusedWith_ind_of_shift (hr : regOf r = some i) (hsh : 31 < sh.toNat) :
    refusedWith x pc (.ind r sh off) .invalidType :=
  refusedWith_ind <| by simp [indirectAddress, baseValue_of_register x pc hr, shiftCheck_of_gt, hsh]

theorem namesCell_ind_of_register (hr : regOf r = some i) (hsh : sh.toNat ≤ 31) :
    namesCell x pc (.ind r sh off) (BitVec.ofInt 32 ((x.get i).toNat * 2 ^ sh.toNat + off.toInt)) :=
  namesCell_ind <| by
    simp [indirectAddress, baseValue_of_register x pc hr, shiftCheck_of_le, hsh, scaled_signExtend]

end

/-- Settles O23: the lemmas about each mode, with the fields of the argument word written as numbers. -/
theorem operandLocationsAndChecks : Obligations.OperandLocationsAndChecks := by
  intro x pc A
  have hreg : operandOf 1 A = .reg (aregField A) := rfl
  have hsta : operandOf 2 A = .sta (aregField A) (ashiftField A) (aoffField A) := rfl
  have hind : operandOf 3 A = .ind (aregField A) (ashiftField A) (aoffField A) := rfl
  rw [hreg, hsta, hind, ← aoffField_toInt, ← aregField_eq_ofNat, ← aregField_toNat, ← ashiftField_toNat,
    ← aoffField_toNat]
  have hff : (aregField A).toNat = 0xFF → aregField A = 0xFF := fun h => BitVec.eq_of_toNat_eq h
  refine ⟨⟨rfl, rfl⟩, refusedWith_reg_of_illegal, fun r hr => ⟨srcLoc_reg hr, dstLoc_reg hr⟩, ?static_register,
    ?static_shift, ?static_absolute, fun r hr => namesCell_sta_of_index (indexValue_of_register hr),
    refusedWith_ind_of_illegal, ?indirect_shift, fun r => namesCell_ind_of_register⟩
  case static_register =>
    intro hne
    exact refusedWith_sta_of_illegal fun h => hne (congrArg BitVec.toNat h)
  case static_shift =>
    intro hindex
    obtain ⟨v, hv⟩ := exists_indexValue (x := x) (pc := pc) (hindex.imp_left hff)
    exact refusedWith_sta_of_shift hv
  case static_absolute =>
    intro hnone hshift
    have hindex : indexValue x pc (aregField A) = .ok 0 := by rw [hff hnone, indexValue_ff]
    simpa using namesCell_sta_of_index (off := aoffField A) hindex hshift
  case indirect_shift =>
    intro hlt
    obtain ⟨r, hr⟩ := exists_regOf_of_lt hlt
    exact refusedWith_ind_of_shift hr

end Sys2Proof.Machine
end

section
/-! The loop of `Tick` in terms of steps (spec/40_execution_cycle.md R66): what a completed instruction leaves and
costs, the two ways the loop goes, and that its fuel never runs out while costs are at least one. -/

namespace Sys2Proof.Machine

/-! ## What a completed instruction leaves and costs -/

/-- Every instruction but SECT, which never completes, costs at least one tick (00_scope.md R3). -/
theorem one_le_cost {i : Instr} {p : Params} (hp : p.wf) (hi : i ≠ .sect) : 1 ≤ i.cost p := by
  obtain ⟨-, -, -, hmul, hdiv, htrans⟩ := hp
  cases i with
  | sect => exact absurd rfl hi
  | mul | fmul => exact hmul
  | div | mod | udiv | umod | fdiv => exact hdiv
  | fsqrt | fsin | fcos => exact htrans
  | _ => exact Nat.le_refl 1

/-- A fault is never taken for a completion, whatever the host recovers (60_exceptions.md R139). -/
theorem State.raise_last_ne_completed (s : State) (e : ErrorEvent) (c : Nat) :
    (s.raise e).last ≠ some (.completed c) := by
  simp [(s.raise_frame e).1]

theorem State.portRead_run (s : State) (p : Nat) : (s.portRead p).2.run = s.run := by
  obtain ⟨_, _, h⟩ := s.portRead_shape p
  rw [h]

theorem State.portWrite_run (s : State) (p : Nat) (v : Cell) : (s.portWrite p v).2.run = s.run := by
  obtain ⟨_, _, h⟩ := s.portWrite_shape p v
  rw [h]

/-- An instruction that completed has kept the run state and the parameters, and is charged its own cost. -/
theorem ExecShape.of_completed {i : Instr} {s t : State} {c : Nat} (h : ExecShape i s t)
    (hlast : t.last = some (.completed c)) :
    t.run = s.run ∧ t.params = s.params ∧ c = i.cost s.params ∧ i ≠ .sect := by
  cases h with
  | completes x m hm hi =>
    obtain rfl : i.cost s.params = c := by simpa using hlast
    exact ⟨rfl, rfl, rfl, hi.2⟩
  | halts hi => simp at hlast
  | raises e he hi => exact absurd hlast (s.raise_last_ne_completed e c)
  | inWaits a0 a1 p hi hnone => simp at hlast
  | inputs a0 a1 p v x m hi hv hm =>
    obtain rfl : i.cost s.params = c := by simpa using hlast
    exact ⟨s.portRead_run p, (s.portRead_core p).2.2, rfl, by simp [hi]⟩
  | loses a0 a1 p v ea hi hd ha hv => exact absurd hlast ((s.portRead p).2.raise_last_ne_completed _ c)
  | outWaits a0 a1 p v hi hfalse => simp at hlast
  | outputs a0 a1 p v hi htrue =>
    obtain rfl : i.cost s.params = c := by simpa using hlast
    exact ⟨s.portWrite_run p v, (s.portWrite_core p v).2.2, rfl, by simp [hi]⟩

/-- All that `Step()` can leave: a fault before or after the hook is asked, a pause, or what an instruction leaves. -/
theorem stepInstr_shape (s : State) :
    ∃ t, stepInstr s = .next t ∧
      ((∃ e, t = s.raise e) ∨ t = s.asked.pause ∨ (∃ e, t = s.asked.raise e) ∨ ∃ i, ExecShape i s.asked t) := by
  rcases stepInstr_cases s with ⟨e, -, hstep⟩ | ⟨cells, -, ⟨-, hstep⟩ | ⟨-, hstep⟩⟩
  · exact ⟨_, hstep, .inl ⟨e, rfl⟩⟩
  · exact ⟨_, hstep, .inr (.inl rfl)⟩
  · rcases s.asked.dispatch_cases cells with ⟨i, rest, -, hexec⟩ | ⟨r, -, hraise⟩
    · obtain ⟨t, ht, hshape⟩ := exec_shape i s.asked
      exact ⟨t, by rw [hstep, hexec, ht], .inr (.inr (.inr ⟨i, hshape⟩))⟩
    · exact ⟨_, by rw [hstep, hraise], .inr (.inr (.inl ⟨_, rfl⟩))⟩

/-- A `Step()` that completed has kept the run state and the parameters, and costs at least one tick. -/
theorem stepInstr_completed {s t : State} {c : Nat} (hp : s.params.wf) (hstep : stepInstr s = .next t)
    (hlast : t.last = some (.completed c)) : t.run = s.run ∧ t.params = s.params ∧ 1 ≤ c := by
  obtain ⟨u, hu, hshape⟩ := stepInstr_shape s
  obtain rfl : u = t := by simpa [hu] using hstep
  rcases hshape with ⟨e, rfl⟩ | rfl | ⟨e, rfl⟩ | ⟨i, hi⟩
  · exact absurd hlast (s.raise_last_ne_completed e c)
  · simp at hlast
  · exact absurd hlast (s.asked.raise_last_ne_completed e c)
  · obtain ⟨hrun, hparams, rfl, hsect⟩ := hi.of_completed hlast
    exact ⟨hrun, hparams, one_le_cost hp hsect⟩

/-! ## The loop -/

@[simp] theorem tickLoop_no_ticks (fuel : Nat) (s : State) : tickLoop fuel 0 s = .next s := by
  cases fuel <;> rfl

section
variable {s t : State} {remaining : Nat}

/-- A completed instruction is charged at most what remains: truncated subtraction. -/
theorem tickLoop_of_completed {c : Nat} (fuel : Nat) (hpos : 0 < remaining) (hstep : stepInstr s = .next t)
    (hlast : t.last = some (.completed c)) :
    tickLoop (fuel + 1) remaining s = tickLoop fuel (remaining - c) t := by
  have hcharge : remaining - min c remaining = remaining - c := by omega
  simp only [tickLoop, Nat.ne_of_gt hpos, if_false, hstep, hlast, hcharge]

theorem tickLoop_of_not_completed (fuel : Nat) (hpos : 0 < remaining) (hstep : stepInstr s = .next t)
    (hlast : ∀ c, t.last ≠ some (.completed c)) : tickLoop (fuel + 1) remaining s = .next t := by
  rw [tickLoop, if_neg (Nat.ne_of_gt hpos), hstep]
  dsimp only
  split
  · next c hc => exact absurd hc (hlast c)
  · rfl

end

/-- Any fuel that is at least the ticks left serves alike, as every pass takes a tick or more. -/
theorem tickLoop_congr_fuel {s : State} {remaining fuel fuel' : Nat} (hp : s.params.wf)
    (hle : remaining ≤ fuel) (hle' : remaining ≤ fuel') :
    tickLoop fuel remaining s = tickLoop fuel' remaining s := by
  induction fuel generalizing fuel' remaining s with
  | zero =>
    obtain rfl : remaining = 0 := by omega
    simp
  | succ fuel ih =>
    obtain rfl | hpos := Nat.eq_zero_or_pos remaining
    · simp
    obtain ⟨fuel', rfl⟩ : ∃ k, fuel' = k + 1 := ⟨fuel' - 1, by omega⟩
    obtain ⟨t, hstep, -⟩ := stepInstr_shape s
    by_cases hdone : ∃ c, t.last = some (.completed c)
    · obtain ⟨c, hlast⟩ := hdone
      obtain ⟨-, hparams, hcost⟩ := stepInstr_completed hp hstep hlast
      rw [tickLoop_of_completed fuel hpos hstep hlast, tickLoop_of_completed fuel' hpos hstep hlast]
      exact ih (hparams ▸ hp) (by omega) (by omega)
    · have hlast : ∀ c, t.last ≠ some (.completed c) := not_exists.1 hdone
      rw [tickLoop_of_not_completed fuel hpos hstep hlast, tickLoop_of_not_completed fuel' hpos hstep hlast]

/-! ## `Tick(budget)` -/

theorem tick_of_halted {s : State} (budget : Nat) (h : s.run = .halted) : tick budget s = .next s := by
  simp [tick, h]

theorem tick_zero (s : State) : tick 0 s = .next s := by
  unfold tick
  split <;> rfl

theorem tick_of_not_halted {s : State} {budget : Nat} (h : s.run ≠ .halted) (hpos : 0 < budget) :
    tick budget s = tickLoop budget budget s.resume := by
  unfold tick
  split
  · contradiction
  · exact if_neg (Nat.ne_of_gt hpos)

theorem State.resume_of_running {s : State} (h : s.run = .running) : s.resume = s := by
  rw [State.resume, ← h]

/-- Settles O10: one pass of the loop is one step, and the loop goes on as the `Tick` of what is left, in which the
spare fuel makes no difference. -/
theorem tickChargesUntilItEnds : Obligations.TickChargesUntilItEnds := by
  intro s budget
  refine ⟨tick_of_halted budget, tick_zero s, fun hp hrun hpos t ht => ?_⟩
  have hstep : stepInstr s.resume = .next t := by rw [← step_of_not_halted hrun, ht]
  obtain ⟨fuel, rfl⟩ : ∃ k, budget = k + 1 := ⟨budget - 1, by omega⟩
  rw [tick_of_not_halted hrun hpos]
  constructor
  · intro c hlast
    obtain ⟨hkept, hparams, hcost⟩ := stepInstr_completed (s := s.resume) hp hstep hlast
    have hrunning : t.run = .running := by rw [hkept, State.resume_run]
    rw [tickLoop_of_completed fuel hpos hstep hlast]
    split
    case isTrue hlt =>
      have hleft : 0 < fuel + 1 - c := by omega
      rw [tick_of_not_halted (by simp [hrunning]) hleft, State.resume_of_running hrunning]
      exact tickLoop_congr_fuel (hparams ▸ hp) (by omega) (Nat.le_refl _)
    case isFalse hge =>
      rw [show fuel + 1 - c = 0 by omega, tickLoop_no_ticks]
  · exact tickLoop_of_not_completed fuel hpos hstep

end Sys2Proof.Machine
end

section
/-! NOP, HALT and SECT (spec/41_nop_halt_sect.md): the instructions of one cell as the decoder reads them, what the
three leave, and the `Tick` that ends with the instruction it starts. -/

namespace Sys2Proof

/-- A cell whose opcode has no arguments and no subtype is an instruction of its own: no other bit of it is read
(30_encoding.md R59). -/
theorem decode_single_of_opcode {w : Cell} {op : Byte} {i : Instr} (hop : opField w = op) (hargc : argc op = some 0)
    (hrow : ∀ sub o0 o1 o2, instrOf op sub o0 o1 o2 = .ok i) : decode [w] = .ok (i, []) := by
  subst hop
  have hcell : decodeCell w 0 0 0 = .ok i := hrow _ _ _ _
  exact Machine.decode_eq_ok.2 ⟨w, [], 0, rfl, hargc, Nat.le_refl 0, rfl, hcell⟩

theorem decode_nop {w : Cell} (hop : opField w = 0x00) : decode [w] = .ok (.nop, []) :=
  decode_single_of_opcode hop rfl fun _ _ _ _ => rfl

theorem decode_halt {w : Cell} (hop : opField w = 0x01) : decode [w] = .ok (.halt, []) :=
  decode_single_of_opcode hop rfl fun _ _ _ _ => rfl

theorem decode_sect {w : Cell} (hop : opField w = 0x10) : decode [w] = .ok (.sect, []) :=
  decode_single_of_opcode hop rfl fun _ _ _ _ => rfl

end Sys2Proof

namespace Sys2Proof.Machine

/-! ## What the three leave -/

theorem exec_nop (s : State) : exec .nop s = .next (s.commit (s.fetched 0) s.mem 1) := rfl

theorem exec_halt (s : State) : exec .halt s = .next (s.commitHalt (s.fetched 0) 1) := rfl

theorem exec_sect (s : State) : exec .sect s = .next (s.raise ⟨.sectionBoundary, s.pc⟩) := rfl

/-- Taking a fault with a host that does not recover (60_exceptions.md R137). -/
theorem State.raise_faults {s : State} (e : ErrorEvent) (h : s.recoveries = []) :
    s.faults (s.raise e) e.kind e.addr := by
  rw [State.raise_of_no_recovery e h]
  simp [State.faults]

theorem State.commitHalt_sameHost (s : State) (x : Regs) (c : Nat) : s.sameHost (s.commitHalt x c) := by
  simp [State.sameHost]

theorem State.commitHalt_keepsMemory (s : State) (x : Regs) (c : Nat) : s.keepsMemory (s.commitHalt x c) :=
  fun a => State.getValue_congr a (s.commitHalt_params x c) (s.commitHalt_mem x c)

/-! ## The step and the `Tick` of an instruction at IP -/

theorem State.dispatch_of_decode {s : State} {cells rest : List Cell} {i : Instr}
    (hdec : decode cells = .ok (i, rest)) : s.dispatch cells = exec i s := by
  simp only [State.dispatch, hdec]

/-- Fetched, not paused and decoded, an instruction is executed with the hook's answer used up
(40_execution_cycle.md R67, R72). -/
theorem stepInstr_of_decode {s : State} {cells rest : List Cell} {i : Instr} (hfetch : s.fetch = .ok cells)
    (hpause : s.pauseAnswers.head? ≠ some true) (hdec : decode cells = .ok (i, rest)) :
    stepInstr s = exec i s.asked := by
  rcases stepInstr_cases s with ⟨e, herr, -⟩ | ⟨cells', hok, ⟨htrue, -⟩ | ⟨-, hdispatch⟩⟩
  · simp [hfetch] at herr
  · exact absurd htrue hpause
  · obtain rfl : cells = cells' := by simpa [hfetch] using hok
    rw [hdispatch, State.dispatch_of_decode hdec]

/-- A fetch of an instruction without arguments reads the cell at IP alone. -/
theorem State.fetch_single {s : State} {w : Cell} (hcell : s.getValue s.pc = some w)
    (hargc : argc (opField w) = some 0) : s.fetch = .ok [w] :=
  State.fetch_eq_ok.2 ⟨w, 0, [], rfl, hcell, hargc, rfl⟩

/-- A `Tick` ends with the first instruction that does not complete, whatever is left of its budget
(40_execution_cycle.md R66). -/
theorem tick_of_not_completed {s t : State} {budget : Nat} (hrun : s.run ≠ .halted) (hpos : 0 < budget)
    (hstep : stepInstr s.resume = .next t) (hlast : ∀ c, t.last ≠ some (.completed c)) :
    tick budget s = .next t := by
  obtain ⟨fuel, rfl⟩ : ∃ k, budget = k + 1 := ⟨budget - 1, by omega⟩
  rw [tick_of_not_halted hrun hpos, tickLoop_of_not_completed fuel hpos hstep hlast]

/-- The `Tick` that finds a HALT at IP ends with it (41_nop_halt_sect.md R76). -/
theorem tick_of_halt_at_pc {s : State} {w : Cell} {budget : Nat} (hrun : s.run ≠ .halted)
    (hpause : s.pauseAnswers.head? ≠ some true) (hcell : s.getValue s.pc = some w) (hop : opField w = 0x01)
    (hpos : 0 < budget) : tick budget s = exec .halt s.resume.asked := by
  have hfetch : s.resume.fetch = .ok [w] := State.fetch_single hcell (by rw [hop]; rfl)
  have hstep : stepInstr s.resume = exec .halt s.resume.asked := stepInstr_of_decode hfetch hpause (decode_halt hop)
  rw [exec_halt] at hstep ⊢
  exact tick_of_not_completed hrun hpos hstep (by simp)

/-! ## The statements -/

/-- Settles O28: NOP commits the registers after fetch and the memory it found. -/
theorem nopOnlyAdvances : Obligations.NopOnlyAdvances :=
  ⟨fun _ => decode_nop, fun s => ⟨_, exec_nop s, s.commit_completes _ _ _, s.commit_setsRegs 0 [] _ _,
    s.commit_keepsMemory _ _⟩⟩

/-- Settles O29: HALT commits the registers after fetch and leaves the core Halted, which ends the current `Tick` and
makes every later one return at once. -/
theorem haltStopsPastItself : Obligations.HaltStopsPastItself := by
  refine ⟨fun _ => decode_halt, fun s => ⟨_, exec_halt s, rfl, rfl, fun _ => rfl, s.commitHalt_keepsMemory _ _,
    s.commitHalt_sameHost _ _, fun budget => tick_of_halted budget rfl⟩, ?current_tick⟩
  intro s w budget hrun hpause hcell hop hpos
  exact tick_of_halt_at_pc hrun hpause hcell hop hpos

/-- Settles O30: SECT only raises, and what a raise leaves with a host that does not recover is said once. -/
theorem sectAlwaysFaults : Obligations.SectAlwaysFaults :=
  ⟨fun _ => decode_sect, fun s => ⟨exec_sect s, fun h => ⟨_, exec_sect s, State.raise_faults _ h⟩⟩⟩

end Sys2Proof.Machine
end

section
/-! The operand of an instruction with one argument (spec/30_encoding.md R54 to R56, 40_execution_cycle.md R71 phases 3
and 4): a source located and read, or a destination located, before anything of the instruction's own; so the faults of
the operand are those it reports. -/

namespace Sys2Proof.Machine

/-! ## A source, located and read -/

/-- Phases 3 and 4 for the only source of an instruction with `n` argument words (40_execution_cycle.md R71). -/
def State.readSource (s : State) (n : Nat) (o : Operand) : Except ErrorEvent Cell := do
  let L ← srcLoc (s.fetched n) s.pc o
  s.readLoc (s.fetched n) L

theorem State.readSource_eq_ok {s : State} {n : Nat} {o : Operand} {v : Cell} :
    s.readSource n o = .ok v ↔ s.reads n o v := phase_eq_ok

theorem State.readSource_of_badArg {s : State} {n : Nat} {o : Operand} {e : ErrorEvent}
    (h : s.badArg n (.src, o) e) : s.readSource n o = .error e :=
  phase_eq_error.2 (.inl h)

theorem State.readSource_of_unbacked {s : State} {n : Nat} {o : Operand} {ea : Cell}
    (hloc : srcLoc (s.fetched n) s.pc o = .ok (.mem ea)) (hcell : s.getValue ea = none) :
    s.readSource n o = .error ⟨.segmentationFault, ea⟩ :=
  phase_eq_error.2 (.inr ⟨_, hloc, State.memRead_eq_error.2 ⟨(s.getValue_eq_none_iff ea).1 hcell, rfl⟩⟩)

/-! ## The faults of a single operand -/

/-- The faults to report when there is one argument: no argument stands before it, and it can be the unreadable one
only in the role of a source. -/
theorem operandFaults_of_single {i : Instr} {a : Role × Operand} (hargs : i.args = [a])
    (hlocation : ∀ s e, s.badArg 1 a e → exec i s = .next (s.raise e))
    (hread : ∀ s ea, a.1 = .src → srcLoc (s.fetched 1) s.pc a.2 = .ok (.mem ea) → s.getValue ea = none →
      exec i s = .next (s.raise ⟨.segmentationFault, ea⟩)) : OperandFaults i := by
  intro s
  rw [hargs]
  have hsingle {before after : List (Role × Operand)} {b : Role × Operand}
      (hsplit : [a] = before ++ b :: after) : b = a := List.mem_singleton.1 (by simp [hsplit])
  constructor
  · intro _ _ _ e hsplit _ hbad
    obtain rfl := hsingle hsplit
    exact hlocation s e hbad
  · intro _ _ _ ea hsplit _ _ hloc hcell
    obtain rfl := hsingle hsplit
    exact hread s ea rfl hloc hcell

/-- An instruction that first reads its only operand reports that operand's faults. -/
theorem operandFaults_of_readSource {i : Instr} {a0 : Operand} {rest : State → Cell → Except ErrorEvent State}
    (hargs : i.args = [(.src, a0)])
    (hexec : ∀ s, exec i s = .next (s.settle (s.readSource 1 a0 >>= rest s))) : OperandFaults i := by
  refine operandFaults_of_single hargs (fun s e hbad => ?location) (fun s ea _ hloc hcell => ?read)
  case location => rw [hexec, State.readSource_of_badArg hbad, phase_error, State.settle_error]
  case read => rw [hexec, State.readSource_of_unbacked hloc hcell, phase_error, State.settle_error]

/-- An instruction that first locates its only operand, a destination, reports that operand's faults; it has no source
to read. -/
theorem operandFaults_of_dstLoc {i : Instr} {a0 : Operand} {rest : State → Dest → Except ErrorEvent State}
    (hargs : i.args = [(.dst, a0)])
    (hexec : ∀ s, exec i s = .next (s.settle (dstLoc (s.fetched 1) s.pc a0 >>= rest s))) : OperandFaults i := by
  refine operandFaults_of_single hargs (fun s e hbad => ?location) (fun _ _ hsrc => nomatch hsrc)
  case location =>
    have hdst : dstLoc (s.fetched 1) s.pc a0 = .error e := hbad
    rw [hexec, hdst, phase_error, State.settle_error]

end Sys2Proof.Machine
end

section
/-! PUSH and POP (spec/42_stack.md): what each does once its operand is resolved, as phases that end in a store or in
the write of the destination. -/

namespace Sys2Proof.Machine

/-! ## PUSH -/

/-- What PUSH does with the value it read: the limit check, the store at SP, SP one more (42_stack.md R78). -/
def State.pushCell (s : State) (v : Cell) : Except ErrorEvent State := do
  overflowCheck (s.fetched 1) s.pc 1
  let m ← s.memWrite s.regs.sp v
  pure (s.commit ((s.fetched 1).setAll [(.sp, s.regs.sp + 1)]) m 1)

theorem exec_push (a0 : Operand) (s : State) :
    exec (.push a0) s = .next (s.settle (s.readSource 1 a0 >>= s.pushCell)) := by
  rw [State.readSource, bind_assoc]
  rfl

theorem exec_push_of_reads {s : State} {a0 : Operand} {v : Cell} (h : s.reads 1 a0 v) :
    exec (.push a0) s = .next (s.settle (s.pushCell v)) := by
  rw [exec_push, State.readSource_eq_ok.2 h, phase_ok]

theorem push_raises_of_full {s : State} {a0 : Operand} {v : Cell} (h : s.reads 1 a0 v)
    (hfull : s.regs.sb.toNat + s.regs.ss.toNat ≤ s.regs.sp.toNat) : s.raises (.push a0) .stackOverflow s.pc := by
  have hcheck : overflowCheck (s.fetched 1) s.pc 1 = .error ⟨.stackOverflow, s.pc⟩ :=
    overflowCheck_of_lt s.pc (Nat.lt_succ_of_le hfull)
  rw [State.raises, exec_push_of_reads h, State.pushCell, hcheck, phase_error, State.settle_error]

theorem push_setsAndStores {s : State} {a0 : Operand} {v : Cell} (h : s.reads 1 a0 v)
    (hroom : s.regs.sp.toNat < s.regs.sb.toNat + s.regs.ss.toNat) :
    s.setsAndStores (.push a0) 1 1 [(.sp, s.regs.sp + 1)] s.regs.sp v := by
  have hcheck : overflowCheck (s.fetched 1) s.pc 1 = .ok () := overflowCheck_of_le s.pc hroom
  apply State.setsAndStores_of_settle
  rw [exec_push_of_reads h, State.pushCell, hcheck, phase_ok]

/-- Settles O31: by the side of the limit SP is on. -/
theorem pushStoresAtSp : Obligations.PushStoresAtSp :=
  ⟨fun a0 => ⟨rfl, operandFaults_of_readSource rfl (exec_push a0)⟩,
    fun _ _ _ h => ⟨push_raises_of_full h, push_setsAndStores h⟩⟩

/-! ## POP -/

/-- What POP does with the place it located: the limit check, the read below SP, SP one less, and the destination
written last (42_stack.md R79). -/
def State.popInto (s : State) (L : Dest) : Except ErrorEvent State := do
  underflowCheck (s.fetched 1) s.pc s.regs.sp 1
  let v ← s.memRead (s.regs.sp - 1)
  s.commitTo ((s.fetched 1).setAll [(.sp, s.regs.sp - 1)]) L v 1

theorem exec_pop (a0 : Operand) (s : State) :
    exec (.pop a0) s = .next (s.settle (dstLoc (s.fetched 1) s.pc a0 >>= s.popInto)) := rfl

theorem exec_pop_of_locates {s : State} {a0 : Operand} {L : Dest} (h : s.locates 1 a0 L) :
    exec (.pop a0) s = .next (s.settle (s.popInto L)) := by
  have hdst : dstLoc (s.fetched 1) s.pc a0 = .ok L := h
  rw [exec_pop, hdst, phase_ok]

theorem pop_raises_of_empty {s : State} {a0 : Operand} {L : Dest} (h : s.locates 1 a0 L)
    (hempty : s.regs.sp.toNat ≤ s.regs.sb.toNat) : s.raises (.pop a0) .stackUnderflow s.pc := by
  have hcheck : underflowCheck (s.fetched 1) s.pc s.regs.sp 1 = .error ⟨.stackUnderflow, s.pc⟩ :=
    underflowCheck_of_lt s.pc (Nat.lt_succ_of_le hempty)
  rw [State.raises, exec_pop_of_locates h, State.popInto, hcheck, phase_error, State.settle_error]

/-- With a cell to take, POP is the read of that cell and the commit. -/
theorem exec_pop_of_nonempty {s : State} {a0 : Operand} {L : Dest} (h : s.locates 1 a0 L)
    (hcells : s.regs.sb.toNat < s.regs.sp.toNat) :
    exec (.pop a0) s = .next (s.settle (s.memRead (s.regs.sp - 1) >>= fun v =>
      s.commitTo ((s.fetched 1).setAll [(.sp, s.regs.sp - 1)]) L v 1)) := by
  have hcheck : underflowCheck (s.fetched 1) s.pc s.regs.sp 1 = .ok () := underflowCheck_of_le s.pc hcells
  rw [exec_pop_of_locates h, State.popInto, hcheck, phase_ok]

theorem pop_raises_of_unbacked {s : State} {a0 : Operand} {L : Dest} (h : s.locates 1 a0 L)
    (hcells : s.regs.sb.toNat < s.regs.sp.toNat) (hcell : s.getValue (s.regs.sp - 1) = none) :
    s.raises (.pop a0) .segmentationFault (s.regs.sp - 1) := by
  have hread : s.memRead (s.regs.sp - 1) = .error ⟨.segmentationFault, s.regs.sp - 1⟩ :=
    State.memRead_eq_error.2 ⟨(s.getValue_eq_none_iff _).1 hcell, rfl⟩
  rw [State.raises, exec_pop_of_nonempty h hcells, hread, phase_error, State.settle_error]

theorem pop_yields {s : State} {a0 : Operand} {L : Dest} {v : Cell} (h : s.locates 1 a0 L)
    (hcells : s.regs.sb.toNat < s.regs.sp.toNat) (hcell : s.getValue (s.regs.sp - 1) = some v) :
    s.yields (.pop a0) 1 1 [(.sp, s.regs.sp - 1)] L v := by
  apply State.yields_of_settle
  rw [exec_pop_of_nonempty h hcells, State.memRead_eq_ok.2 hcell, phase_ok]

/-- Settles O32: by the side of SB that SP is on, then by whether the cell below SP is backed. -/
theorem popTakesTheCellBelowSp : Obligations.PopTakesTheCellBelowSp :=
  ⟨fun a0 => ⟨rfl, operandFaults_of_dstLoc rfl (exec_pop a0)⟩,
    fun _ _ _ h => ⟨pop_raises_of_empty h, fun hcells =>
      ⟨pop_raises_of_unbacked h hcells, fun _ => pop_yields h hcells⟩⟩⟩

end Sys2Proof.Machine
end

section
/-! The operands of an instruction with two sources (spec/30_encoding.md R55, R56, 40_execution_cycle.md R71 phases 3
and 4): both located, then both read, argument 0 first each time. -/

namespace Sys2Proof.Machine

/-! ## Two sources, located and read -/

/-- Phases 3 and 4 for the two sources of an instruction with `n` argument words (40_execution_cycle.md R71). -/
def State.readSources (s : State) (n : Nat) (o0 o1 : Operand) : Except ErrorEvent (Cell × Cell) := do
  let l0 ← srcLoc (s.fetched n) s.pc o0
  let l1 ← srcLoc (s.fetched n) s.pc o1
  let v0 ← s.readLoc (s.fetched n) l0
  let v1 ← s.readLoc (s.fetched n) l1
  pure (v0, v1)

section
variable {s : State} {n : Nat} {o0 o1 : Operand}

theorem State.readSources_of_reads {v0 v1 : Cell} (h0 : s.reads n o0 v0) (h1 : s.reads n o1 v1) :
    s.readSources n o0 o1 = .ok (v0, v1) := by
  obtain ⟨l0, hloc0, hread0⟩ := h0
  obtain ⟨l1, hloc1, hread1⟩ := h1
  simp [State.readSources, hloc0, hloc1, hread0, hread1]

theorem State.readSources_of_badArg_first {e : ErrorEvent} (h : s.badArg n (.src, o0) e) :
    s.readSources n o0 o1 = .error e :=
  phase_eq_error.2 (.inl h)

/-- An argument without a location fault has a location. -/
theorem State.srcLoc_of_not_badArg {o : Operand} (h : ∀ e, ¬ s.badArg n (.src, o) e) :
    ∃ L, srcLoc (s.fetched n) s.pc o = .ok L := by
  rcases hloc : srcLoc (s.fetched n) s.pc o with e | L
  · exact absurd hloc (h e)
  · exact ⟨L, rfl⟩

theorem State.readSources_of_badArg_second {e : ErrorEvent} (h0 : ∀ e, ¬ s.badArg n (.src, o0) e)
    (h : s.badArg n (.src, o1) e) : s.readSources n o0 o1 = .error e := by
  obtain ⟨l0, hloc0⟩ := State.srcLoc_of_not_badArg h0
  have hloc1 : srcLoc (s.fetched n) s.pc o1 = .error e := h
  simp [State.readSources, hloc0, hloc1]

theorem State.memRead_of_unbacked {ea : Cell} (hcell : s.getValue ea = none) :
    s.memRead ea = .error ⟨.segmentationFault, ea⟩ :=
  State.memRead_eq_error.2 ⟨(s.getValue_eq_none_iff ea).1 hcell, rfl⟩

/-- Reading comes after both locations: the first source is unreadable only where the second is located. -/
theorem State.readSources_of_unbacked_first {ea : Cell} (h1 : ∀ e, ¬ s.badArg n (.src, o1) e)
    (hloc0 : srcLoc (s.fetched n) s.pc o0 = .ok (.mem ea)) (hcell : s.getValue ea = none) :
    s.readSources n o0 o1 = .error ⟨.segmentationFault, ea⟩ := by
  obtain ⟨l1, hloc1⟩ := State.srcLoc_of_not_badArg h1
  simp [State.readSources, hloc0, hloc1, State.readLoc, State.memRead_of_unbacked hcell]

theorem State.readSources_of_unbacked_second {v0 ea : Cell} (h0 : s.reads n o0 v0)
    (hloc1 : srcLoc (s.fetched n) s.pc o1 = .ok (.mem ea)) (hcell : s.getValue ea = none) :
    s.readSources n o0 o1 = .error ⟨.segmentationFault, ea⟩ := by
  obtain ⟨l0, hloc0, hread0⟩ := h0
  have hread1 : s.readLoc (s.fetched n) (.mem ea) = .error ⟨.segmentationFault, ea⟩ :=
    State.memRead_of_unbacked hcell
  simp [State.readSources, hloc0, hloc1, hread0, hread1]

end

/-! ## The faults of two sources -/

/-- A list of two is split at its first or at its second entry. -/
theorem eq_of_pair_split {α : Type} {x y b : α} {before after : List α} (h : [x, y] = before ++ b :: after) :
    (before = [] ∧ b = x) ∨ (before = [x] ∧ b = y) := by
  rcases before with _ | ⟨z, _ | ⟨z', zs⟩⟩
  · exact .inl ⟨rfl, (List.cons.inj h).1.symm⟩
  · obtain ⟨hz, hrest⟩ := List.cons.inj h
    exact .inr ⟨by rw [hz], (List.cons.inj hrest).1.symm⟩
  · simp at h

/-- An instruction that first locates and reads its two sources reports their faults. -/
theorem operandFaults_of_readSources {i : Instr} {a0 a1 : Operand}
    {rest : State → Cell × Cell → Except ErrorEvent State} (hargs : i.args = [(.src, a0), (.src, a1)])
    (hexec : ∀ s, exec i s = .next (s.settle (s.readSources 2 a0 a1 >>= rest s))) : OperandFaults i := by
  have hraise {s : State} {e : ErrorEvent} (h : s.readSources 2 a0 a1 = .error e) :
      exec i s = .next (s.raise e) := by
    rw [hexec, h, phase_error, State.settle_error]
  intro s
  rw [hargs]
  constructor
  case left =>
    intro before after a e hsplit hbefore hbad
    obtain ⟨rfl, rfl⟩ | ⟨rfl, rfl⟩ := eq_of_pair_split hsplit
    · exact hraise (State.readSources_of_badArg_first hbad)
    · exact hraise (State.readSources_of_badArg_second (hbefore _ (by simp)) hbad)
  case right =>
    intro before after o ea hsplit hlocated hread hloc hcell
    obtain ⟨rfl, ho⟩ | ⟨rfl, ho⟩ := eq_of_pair_split hsplit <;> obtain rfl := (Prod.mk.inj ho).2
    · exact hraise (State.readSources_of_unbacked_first (hlocated _ (by simp)) hloc hcell)
    · obtain ⟨v0, hv0⟩ := hread (.src, a0) (by simp) rfl
      exact hraise (State.readSources_of_unbacked_second hv0 hloc hcell)

end Sys2Proof.Machine
end

section
/-! Control transfer (spec/43_control_transfer.md): a jump commits IP alone, CALL and ENTER end in a checked store at
SP, RET and LEAVE in a checked read of the cell they return to. -/

namespace Sys2Proof

theorem decode_leave {w : Cell} (hop : opField w = 0x09) : decode [w] = .ok (.leave, []) :=
  decode_single_of_opcode hop rfl fun _ _ _ _ => rfl

end Sys2Proof

namespace Sys2Proof.Machine

/-! ## JMP -/

theorem exec_jmp (a0 : Operand) (s : State) :
    exec (.jmp a0) s = .next (s.settle (s.readSource 1 a0 >>= fun target =>
      pure (s.commit ((s.fetched 1).setAll [(.ip, target)]) s.mem 1))) := by
  rw [State.readSource, bind_assoc]
  rfl

/-- Settles O34: once the target is read, JMP commits it to IP. -/
theorem jmpSetsIp : Obligations.JmpSetsIp := by
  refine ⟨fun a0 => ⟨rfl, operandFaults_of_readSource rfl (exec_jmp a0)⟩, fun s a0 target h => ?_⟩
  apply State.setsOnly_of_commit
  rw [exec_jmp, State.readSource_eq_ok.2 h, phase_ok, phase_pure, State.settle_ok]

/-! ## JMPC -/

theorem State.jumpIf_eq (s : State) (c : Condition) (a0 : Operand) :
    s.jumpIf c a0 = s.settle (s.readSource 1 a0 >>= fun target =>
      pure (s.commit (if c.holds s.regs.flags then (s.fetched 1).setAll [(.ip, target)] else s.fetched 1)
        s.mem 1)) := by
  rw [State.readSource, bind_assoc]
  rfl

theorem State.jumpIf_of_reads {s : State} {a0 : Operand} {target : Cell} (c : Condition) (h : s.reads 1 a0 target) :
    s.jumpIf c a0 =
      s.commit (if c.holds s.regs.flags then (s.fetched 1).setAll [(.ip, target)] else s.fetched 1) s.mem 1 := by
  rw [State.jumpIf_eq, State.readSource_eq_ok.2 h, phase_ok, phase_pure, State.settle_ok]

/-- The six JMPC differ only in their subtype and their condition. -/
theorem jumpRule_of_jumpIf {i : Operand → Instr} {sub : Byte} {cond : Bool → Bool → Prop} (c : Condition)
    (hencode : ∀ a0, encode (i a0) = instrCells 0x05 sub [a0]) (hargs : ∀ a0, (i a0).args = [(.src, a0)])
    (hexec : ∀ a0 s, exec (i a0) s = .next (s.jumpIf c a0))
    (hcond : ∀ f, c.holds f = true ↔ cond (f.getLsbD 0) (f.getLsbD 1)) : JumpRule i sub cond := by
  have hphases (a0 : Operand) (s : State) := (hexec a0 s).trans (congrArg _ (s.jumpIf_eq c a0))
  refine ⟨fun a0 => ⟨hencode a0, operandFaults_of_readSource (hargs a0) (hphases a0)⟩, fun s a0 target h => ⟨?_, ?_⟩⟩
  · intro htaken
    apply State.setsOnly_of_commit
    rw [hexec, State.jumpIf_of_reads c h, if_pos ((hcond _).2 htaken)]
  · intro hnot
    apply State.setsOnly_of_commit
    rw [hexec, State.jumpIf_of_reads c h, if_neg (mt (hcond _).1 hnot), Regs.setAll_nil]

/-- Settles O35: one rule for the six, each with its condition read off FLAGS. -/
theorem jmpcJumpsByTheFlags : Obligations.JmpcJumpsByTheFlags := by
  refine ⟨?eq, ?ne, ?gt, ?lt, ?ge, ?le⟩
  case eq => exact jumpRule_of_jumpIf .eq (fun _ => rfl) (fun _ => rfl) (fun _ _ => rfl) fun _ => Iff.rfl
  case ne =>
    exact jumpRule_of_jumpIf .ne (fun _ => rfl) (fun _ => rfl) (fun _ _ => rfl) fun _ => by
      simp [Condition.holds, flagE]
  case gt => exact jumpRule_of_jumpIf .gt (fun _ => rfl) (fun _ => rfl) (fun _ _ => rfl) fun _ => Iff.rfl
  case lt =>
    exact jumpRule_of_jumpIf .lt (fun _ => rfl) (fun _ => rfl) (fun _ _ => rfl) fun _ => by
      simp [Condition.holds, flagE, flagG]
  case ge =>
    exact jumpRule_of_jumpIf .ge (fun _ => rfl) (fun _ => rfl) (fun _ _ => rfl) fun _ => by
      simp [Condition.holds, flagE, flagG]
  case le =>
    exact jumpRule_of_jumpIf .le (fun _ => rfl) (fun _ => rfl) (fun _ _ => rfl) fun _ => by
      simp [Condition.holds, flagG]

/-! ## CALL and ENTER: a checked store at SP -/

/-- What CALL and ENTER do once their operand is read: the check that `slots` cells fit, the store of `v` at SP, the
register writes `ws` (43_control_transfer.md R88, R90). -/
def State.pushChecked (s : State) (slots : Nat) (v : Cell) (ws : List (RegId × Cell)) : Except ErrorEvent State := do
  overflowCheck (s.fetched 1) s.pc slots
  let m ← s.memWrite s.regs.sp v
  pure (s.commit ((s.fetched 1).setAll ws) m 1)

section
variable {s : State} {i : Instr} {slots : Nat} {v : Cell} {ws : List (RegId × Cell)}

theorem raises_of_pushChecked (hexec : exec i s = .next (s.settle (s.pushChecked slots v ws)))
    (hfull : s.regs.sb.toNat + s.regs.ss.toNat < s.regs.sp.toNat + slots) : s.raises i .stackOverflow s.pc := by
  have hcheck : overflowCheck (s.fetched 1) s.pc slots = .error ⟨.stackOverflow, s.pc⟩ :=
    overflowCheck_of_lt s.pc hfull
  rw [State.raises, hexec, State.pushChecked, hcheck, phase_error, State.settle_error]

theorem setsAndStores_of_pushChecked (hexec : exec i s = .next (s.settle (s.pushChecked slots v ws)))
    (hroom : s.regs.sp.toNat + slots ≤ s.regs.sb.toNat + s.regs.ss.toNat) :
    s.setsAndStores i 1 1 ws s.regs.sp v := by
  have hcheck : overflowCheck (s.fetched 1) s.pc slots = .ok () := overflowCheck_of_le s.pc hroom
  apply State.setsAndStores_of_settle
  rw [hexec, State.pushChecked, hcheck, phase_ok]

end

theorem exec_call (a0 : Operand) (s : State) :
    exec (.call a0) s = .next (s.settle (s.readSource 1 a0 >>= fun target =>
      s.pushChecked 1 (s.pc + 2) [(.sp, s.regs.sp + 1), (.ip, target)])) := by
  rw [State.readSource, bind_assoc]
  rfl

theorem exec_call_of_reads {s : State} {a0 : Operand} {target : Cell} (h : s.reads 1 a0 target) :
    exec (.call a0) s = .next (s.settle (s.pushChecked 1 (s.pc + 2) [(.sp, s.regs.sp + 1), (.ip, target)])) := by
  rw [exec_call, State.readSource_eq_ok.2 h, phase_ok]

/-- Settles O36: by the side of the limit SP is on. -/
theorem callPushesTheReturnAddress : Obligations.CallPushesTheReturnAddress := by
  refine ⟨fun a0 => ⟨rfl, operandFaults_of_readSource rfl (exec_call a0)⟩, fun s a0 target h => ⟨?full, ?room⟩⟩
  case full => exact fun hfull => raises_of_pushChecked (exec_call_of_reads h) (Nat.lt_succ_of_le hfull)
  case room => exact fun hroom => setsAndStores_of_pushChecked (exec_call_of_reads h) hroom

theorem exec_enter (a0 : Operand) (s : State) :
    exec (.enter a0) s = .next (s.settle (s.readSource 1 a0 >>= fun k =>
      s.pushChecked (1 + k.toNat) s.regs.fp [(.fp, s.regs.sp + 1), (.sp, s.regs.sp + 1 + k)])) := by
  rw [State.readSource, bind_assoc]
  rfl

theorem exec_enter_of_reads {s : State} {a0 : Operand} {k : Cell} (h : s.reads 1 a0 k) :
    exec (.enter a0) s = .next (s.settle
      (s.pushChecked (1 + k.toNat) s.regs.fp [(.fp, s.regs.sp + 1), (.sp, s.regs.sp + 1 + k)])) := by
  rw [exec_enter, State.readSource_eq_ok.2 h, phase_ok]

/-- Settles O38: by whether the saved FP and the `k` slots fit below the limit. -/
theorem enterOpensAFrame : Obligations.EnterOpensAFrame := by
  refine ⟨fun a0 => ⟨rfl, operandFaults_of_readSource rfl (exec_enter a0)⟩, fun s a0 k h => ⟨?full, ?room⟩⟩
  case full => exact fun hfull => raises_of_pushChecked (exec_enter_of_reads h) (by omega)
  case room => exact fun hroom => setsAndStores_of_pushChecked (exec_enter_of_reads h) (by omega)

/-! ## RET and LEAVE: a checked read of the stack -/

/-- What RET and LEAVE do once their operands are read: the check that `slots` cells below `top` lie at or above SB,
the read at `addr`, the register writes `ws` of the cell read (43_control_transfer.md R89, R91). -/
def State.popChecked (s : State) (n : Nat) (top : Cell) (slots : Nat) (addr : Cell)
    (ws : Cell → List (RegId × Cell)) : Except ErrorEvent State := do
  underflowCheck (s.fetched n) s.pc top slots
  let v ← s.memRead addr
  pure (s.commit ((s.fetched n).setAll (ws v)) s.mem 1)

section
variable {s : State} {i : Instr} {n slots : Nat} {top addr : Cell} {ws : Cell → List (RegId × Cell)}

theorem raises_of_popChecked (hexec : exec i s = .next (s.settle (s.popChecked n top slots addr ws)))
    (hempty : top.toNat < s.regs.sb.toNat + slots) : s.raises i .stackUnderflow s.pc := by
  have hcheck : underflowCheck (s.fetched n) s.pc top slots = .error ⟨.stackUnderflow, s.pc⟩ :=
    underflowCheck_of_lt s.pc hempty
  rw [State.raises, hexec, State.popChecked, hcheck, phase_error, State.settle_error]

theorem raises_of_popChecked_unbacked (hexec : exec i s = .next (s.settle (s.popChecked n top slots addr ws)))
    (hcells : s.regs.sb.toNat + slots ≤ top.toNat) (hcell : s.getValue addr = none) :
    s.raises i .segmentationFault addr := by
  have hcheck : underflowCheck (s.fetched n) s.pc top slots = .ok () := underflowCheck_of_le s.pc hcells
  rw [State.raises, hexec, State.popChecked, hcheck, phase_ok, State.memRead_of_unbacked hcell, phase_error,
    State.settle_error]

theorem setsOnly_of_popChecked {v : Cell} (hexec : exec i s = .next (s.settle (s.popChecked n top slots addr ws)))
    (hcells : s.regs.sb.toNat + slots ≤ top.toNat) (hcell : s.getValue addr = some v) :
    s.setsOnly i n 1 (ws v) := by
  have hcheck : underflowCheck (s.fetched n) s.pc top slots = .ok () := underflowCheck_of_le s.pc hcells
  apply State.setsOnly_of_commit
  rw [hexec, State.popChecked, hcheck, phase_ok, State.memRead_eq_ok.2 hcell, phase_ok, phase_pure, State.settle_ok]

end

/-- What RET does with its counts `b` and `k`: `b` cells above the return address and `k` below it are given up
(43_control_transfer.md R91). -/
def State.returnWith (s : State) (b k : Cell) : Except ErrorEvent State :=
  s.popChecked 2 s.regs.sp (b.toNat + 1 + k.toNat) (s.regs.sp - b - 1) fun ra =>
    [(.sp, s.regs.sp - b - 1 - k), (.ip, ra)]

theorem exec_ret (a0 a1 : Operand) (s : State) :
    exec (.ret a0 a1) s = .next (s.settle (s.readSources 2 a0 a1 >>= fun c => s.returnWith c.1 c.2)) := by
  simp only [State.readSources, bind_assoc, pure_bind]
  rfl

theorem exec_ret_of_reads {s : State} {a0 a1 : Operand} {b k : Cell} (hb : s.reads 2 a0 b) (hk : s.reads 2 a1 k) :
    exec (.ret a0 a1) s = .next (s.settle (s.returnWith b k)) := by
  rw [exec_ret, State.readSources_of_reads hb hk, phase_ok]

/-- Settles O37: by whether every slot given up lies at or above SB, then by whether the return cell is backed. -/
theorem retReturnsAndDiscards : Obligations.RetReturnsAndDiscards := by
  refine ⟨fun a0 a1 => ⟨rfl, operandFaults_of_readSources rfl (exec_ret a0 a1)⟩, fun s a0 a1 b k hb hk => ?_⟩
  have hexec := exec_ret_of_reads hb hk
  refine ⟨fun hempty => raises_of_popChecked hexec (by omega), fun hcells => ?_⟩
  have hslots : s.regs.sb.toNat + (b.toNat + 1 + k.toNat) ≤ s.regs.sp.toNat := by omega
  exact ⟨raises_of_popChecked_unbacked hexec hslots, fun ra => setsOnly_of_popChecked hexec hslots⟩

theorem exec_leave (s : State) :
    exec .leave s = .next (s.settle (s.popChecked 0 s.regs.fp 1 (s.regs.fp - 1) fun v =>
      [(.sp, s.regs.fp - 1), (.fp, v)])) := rfl

/-- Settles O39: by the side of SB that FP is on, then by whether the cell below FP is backed. -/
theorem leaveClosesAFrame : Obligations.LeaveClosesAFrame :=
  ⟨fun _ => decode_leave, fun s =>
    ⟨fun hempty => raises_of_popChecked (exec_leave s) (Nat.lt_succ_of_le hempty), fun hcells =>
      ⟨raises_of_popChecked_unbacked (exec_leave s) hcells, fun _ => setsOnly_of_popChecked (exec_leave s) hcells⟩⟩⟩

end Sys2Proof.Machine
end

section
/-! The operands of an instruction with a destination and two sources (spec/30_encoding.md R55, R56,
40_execution_cycle.md R71 phases 3 and 4): the destination located, then the sources located and read; and what the
seventeen BINOPs share (spec/44_binary_ops.md R93), whose two rules follow from the result of their operation. -/

namespace Sys2Proof.Machine

/-! ## The faults of a destination and two sources -/

/-- A list of three is split at its first, its second or its third entry. -/
theorem eq_of_triple_split {α : Type} {x y z b : α} {before after : List α}
    (h : [x, y, z] = before ++ b :: after) :
    (before = [] ∧ b = x) ∨ (before = [x] ∧ b = y) ∨ (before = [x, y] ∧ b = z) := by
  cases before with
  | nil => exact .inl ⟨rfl, (List.cons.inj h).1.symm⟩
  | cons w ws =>
    obtain ⟨rfl, hrest⟩ := List.cons.inj h
    exact .inr ((eq_of_pair_split hrest).imp (And.imp_left (congrArg _)) (And.imp_left (congrArg _)))

/-- A destination without a location fault names a place. -/
theorem State.exists_locates {s : State} {n : Nat} {o : Operand} (h : ∀ e, ¬ s.badArg n (.dst, o) e) :
    ∃ L, s.locates n o L := by
  rcases hloc : dstLoc (s.fetched n) s.pc o with e | L
  · exact absurd hloc (h e)
  · exact ⟨L, hloc⟩

/-- An instruction that first locates its destination and then locates and reads its two sources reports their
faults. -/
theorem operandFaults_of_dstLoc_readSources {i : Instr} {a0 a1 a2 : Operand}
    {rest : State → Dest → Cell × Cell → Except ErrorEvent State}
    (hargs : i.args = [(.dst, a0), (.src, a1), (.src, a2)])
    (hexec : ∀ s, exec i s = .next (s.settle (dstLoc (s.fetched 3) s.pc a0 >>= fun L =>
      s.readSources 3 a1 a2 >>= rest s L))) : OperandFaults i := by
  have hdst {s : State} {e : ErrorEvent} (h : dstLoc (s.fetched 3) s.pc a0 = .error e) :
      exec i s = .next (s.raise e) := by
    rw [hexec, h, phase_error, State.settle_error]
  have hsrc {s : State} {e : ErrorEvent} (h0 : ∀ e', ¬ s.badArg 3 (.dst, a0) e')
      (h : s.readSources 3 a1 a2 = .error e) : exec i s = .next (s.raise e) := by
    obtain ⟨L, hL⟩ := State.exists_locates h0
    have hL : dstLoc (s.fetched 3) s.pc a0 = .ok L := hL
    rw [hexec, hL, phase_ok, h, phase_error, State.settle_error]
  intro s
  rw [hargs]
  constructor
  case left =>
    intro before after a e hsplit hbefore hbad
    obtain ⟨rfl, rfl⟩ | ⟨rfl, rfl⟩ | ⟨rfl, rfl⟩ := eq_of_triple_split hsplit
    · exact hdst hbad
    · exact hsrc (hbefore _ (by simp)) (State.readSources_of_badArg_first hbad)
    · exact hsrc (hbefore _ (by simp)) (State.readSources_of_badArg_second (hbefore _ (by simp)) hbad)
  case right =>
    intro before after o ea hsplit hlocated hread hloc hcell
    have hdstLocated := hlocated (.dst, a0) (by simp)
    obtain ⟨rfl, ho⟩ | ⟨rfl, ho⟩ | ⟨rfl, ho⟩ := eq_of_triple_split hsplit
    · exact nomatch (Prod.mk.inj ho).1
    · obtain rfl := (Prod.mk.inj ho).2
      exact hsrc hdstLocated (State.readSources_of_unbacked_first (hlocated _ (by simp)) hloc hcell)
    · obtain rfl := (Prod.mk.inj ho).2
      obtain ⟨p, hp⟩ := hread (.src, a1) (by simp) rfl
      exact hsrc hdstLocated (State.readSources_of_unbacked_second hp hloc hcell)

/-! ## The body every BINOP shares -/

theorem State.binaryWith_eq (s : State) (c : Nat) (f : Cell → Cell → Except ErrorEvent Cell)
    (a0 a1 a2 : Operand) :
    s.binaryWith c f a0 a1 a2 = s.settle (dstLoc (s.fetched 3) s.pc a0 >>= fun L =>
      s.readSources 3 a1 a2 >>= fun v => f v.1 v.2 >>= fun r => s.commitTo (s.fetched 3) L r c) := by
  simp only [State.readSources, bind_assoc, pure_bind]
  rfl

/-- With its operands resolved, a BINOP is its operation and the write of the result. -/
theorem State.binaryWith_of_resolved {s : State} {a0 a1 a2 : Operand} {L : Dest} {p q : Cell} (c : Nat)
    (f : Cell → Cell → Except ErrorEvent Cell) (h0 : s.locates 3 a0 L) (h1 : s.reads 3 a1 p) (h2 : s.reads 3 a2 q) :
    s.binaryWith c f a0 a1 a2 = s.settle (f p q >>= fun r => s.commitTo (s.fetched 3) L r c) := by
  have hL : dstLoc (s.fetched 3) s.pc a0 = .ok L := h0
  rw [State.binaryWith_eq, hL, phase_ok, State.readSources_of_reads h1 h2, phase_ok]

section
variable {i : Operand → Operand → Operand → Instr} {sub : Byte} {c : Params → Nat}

theorem operandFaults_of_binaryWith {f : State → Cell → Cell → Except ErrorEvent Cell} {a0 a1 a2 : Operand}
    (hargs : (i a0 a1 a2).args = [(.dst, a0), (.src, a1), (.src, a2)])
    (hexec : ∀ s, exec (i a0 a1 a2) s = .next (s.binaryWith (c s.params) (f s) a0 a1 a2)) :
    OperandFaults (i a0 a1 a2) :=
  operandFaults_of_dstLoc_readSources hargs fun s => (hexec s).trans (congrArg _ (s.binaryWith_eq _ _ a0 a1 a2))

/-- A BINOP whose phases yield the result `r`, its operation having raised nothing. -/
theorem yields_of_binaryWith {f : Cell → Cell → Except ErrorEvent Cell} {s : State} {a0 a1 a2 : Operand} {L : Dest}
    {p q r : Cell} {cost : Nat} (hexec : exec (i a0 a1 a2) s = .next (s.binaryWith cost f a0 a1 a2))
    (h0 : s.locates 3 a0 L) (h1 : s.reads 3 a1 p) (h2 : s.reads 3 a2 q) (hr : f p q = .ok r) :
    s.yields (i a0 a1 a2) 3 cost [] L r := by
  apply State.yields_of_settle
  rw [hexec, State.binaryWith_of_resolved cost f h0 h1 h2, hr, phase_ok, Regs.setAll_nil]

/-- The BINOPs that raise nothing of their own differ only in their subtype, their cost and their operation `g`. -/
theorem binaryRule_of_binary {spec : Cell → Cell → Cell → Prop} (g : Cell → Cell → Cell)
    (hspec : ∀ p q, spec p q (g p q))
    (hencode : ∀ a0 a1 a2, encode (i a0 a1 a2) = instrCells 0x0A sub [a0, a1, a2] := by intros; rfl)
    (hargs : ∀ a0 a1 a2, (i a0 a1 a2).args = [(.dst, a0), (.src, a1), (.src, a2)] := by intros; rfl)
    (hexec : ∀ a0 a1 a2 s, exec (i a0 a1 a2) s = .next (s.binary (c s.params) g a0 a1 a2) := by intros; rfl) :
    BinaryRule i sub c spec :=
  ⟨fun a0 a1 a2 => ⟨hencode a0 a1 a2, operandFaults_of_binaryWith (hargs a0 a1 a2) (hexec a0 a1 a2)⟩,
    fun s a0 a1 a2 _ p q h0 h1 h2 =>
      ⟨g p q, hspec p q, yields_of_binaryWith (hexec a0 a1 a2 s) h0 h1 h2 rfl⟩⟩

/-- The divisions differ only in their subtype and their operation `g`, which matters for divisors other than zero. -/
theorem divisionRule_of_division {spec : Cell → Cell → Cell → Prop} (g : Cell → Cell → Cell)
    (hspec : ∀ p q, q ≠ 0 → spec p q (g p q))
    (hencode : ∀ a0 a1 a2, encode (i a0 a1 a2) = instrCells 0x0A sub [a0, a1, a2] := by intros; rfl)
    (hargs : ∀ a0 a1 a2, (i a0 a1 a2).args = [(.dst, a0), (.src, a1), (.src, a2)] := by intros; rfl)
    (hexec : ∀ a0 a1 a2 s, exec (i a0 a1 a2) s = .next (s.division s.params.costDiv g a0 a1 a2) := by
      intros; rfl) :
    DivisionRule i sub spec := by
  refine ⟨fun a0 a1 a2 => ⟨hencode a0 a1 a2, operandFaults_of_binaryWith (c := Params.costDiv) (hargs a0 a1 a2)
    (hexec a0 a1 a2)⟩, fun s a0 a1 a2 L p q h0 h1 h2 => ⟨fun hzero => ?zero, fun hne => ?nonzero⟩⟩
  case zero =>
    rw [State.raises, hexec, State.division, State.binaryWith_of_resolved _ _ h0 h1 h2, if_pos hzero, phase_error,
      State.settle_error]
  case nonzero => exact ⟨g p q, hspec p q hne, yields_of_binaryWith (hexec a0 a1 a2 s) h0 h1 h2 (if_neg hne)⟩

end

end Sys2Proof.Machine
end

section
/-! The integer, bitwise and shift BINOPs (spec/44_binary_ops.md R94, R96 to R108): the result of each as a number or
bit by bit, and their statements. -/

namespace Sys2Proof.Machine

/-! ## Sum, difference, product (R96 to R98) -/

theorem aluAdd_toNat (p q : Cell) : (aluAdd p q).toNat = (p.toNat + q.toNat) % 2 ^ 32 := BitVec.toNat_add p q

theorem aluSub_toNat (p q : Cell) : ((aluSub p q).toNat : Int) = ((p.toNat : Int) - q.toNat) % 2 ^ 32 := by
  rw [aluSub, BitVec.toNat_sub]
  omega

theorem aluMul_toNat (p q : Cell) : (aluMul p q).toNat = (p.toNat * q.toNat) % 2 ^ 32 := BitVec.toNat_mul p q

/-- Settles O42: the arithmetic of cells is that of the integers modulo `2^32`. -/
theorem addSubMulWrap : Obligations.AddSubMulWrap :=
  ⟨binaryRule_of_binary aluAdd aluAdd_toNat, binaryRule_of_binary aluSub aluSub_toNat,
    binaryRule_of_binary aluMul aluMul_toNat⟩

/-! ## Quotients and remainders (R99 to R102) -/

/-- DIV is the library's signed division: both wrap the quotient rounded toward zero. -/
theorem aluDiv_eq_sdiv (p q : Cell) : aluDiv p q = p.sdiv q :=
  BitVec.eq_of_toInt_eq (by rw [aluDiv, BitVec.toInt_ofInt, BitVec.toInt_sdiv])

/-- Only `-2^31` by `-1` has a quotient outside the signed cells. -/
theorem aluDiv_toInt (p q : Cell) : (aluDiv p q).toInt =
    if p = 0x80000000 ∧ q = 0xFFFFFFFF then -2 ^ 31 else p.toInt.tdiv q.toInt := by
  rw [aluDiv_eq_sdiv]
  split
  case isTrue h =>
    obtain ⟨rfl, rfl⟩ := h
    decide
  case isFalse h => exact BitVec.toInt_sdiv_of_ne_or_ne p q (not_and_or.1 h)

theorem aluMod_eq_srem (p q : Cell) : aluMod p q = p.srem q := by
  rw [aluMod, ← BitVec.toInt_srem, BitVec.ofInt_toInt]

theorem aluMod_toInt (p q : Cell) : (aluMod p q).toInt = p.toInt - q.toInt * p.toInt.tdiv q.toInt := by
  rw [aluMod_eq_srem, BitVec.toInt_srem, Int.tmod_def]

theorem aluUdiv_toNat (p q : Cell) : (aluUdiv p q).toNat = p.toNat / q.toNat := by
  rw [aluUdiv, BitVec.toNat_ofNat, Nat.mod_eq_of_lt ((Nat.div_le_self _ _).trans_lt p.isLt)]

theorem aluUmod_toNat (p q : Cell) : (aluUmod p q).toNat = p.toNat % q.toNat := by
  rw [aluUmod, BitVec.toNat_ofNat, Nat.mod_eq_of_lt ((Nat.mod_le _ _).trans_lt p.isLt)]

/-- Settles O43: each quotient or remainder fits a cell but the one that wraps. -/
theorem divisionsTruncateOrFault : Obligations.DivisionsTruncateOrFault :=
  ⟨divisionRule_of_division aluDiv fun p q _ => aluDiv_toInt p q,
    divisionRule_of_division aluMod fun p q _ => aluMod_toInt p q,
    divisionRule_of_division aluUdiv fun p q _ => aluUdiv_toNat p q,
    divisionRule_of_division aluUmod fun p q _ => aluUmod_toNat p q⟩

/-! ## Bits (R103 to R105) -/

/-- Settles O45: the library's bitwise operations, read one bit at a time. -/
theorem andOrXorBitwise : Obligations.AndOrXorBitwise :=
  ⟨binaryRule_of_binary aluAnd fun _ _ _ _ => BitVec.getLsbD_and,
    binaryRule_of_binary aluOr fun _ _ _ _ => BitVec.getLsbD_or,
    binaryRule_of_binary aluXor fun _ _ _ _ => BitVec.getLsbD_xor⟩

/-! ## Shifts (R94, R106 to R108) -/

theorem shiftCount_eq (q : Cell) : shiftCount q = q.toNat % 32 := by
  rw [shiftCount, BitVec.extractLsb'_toNat, Nat.shiftRight_zero]

theorem aluShl_toNat (p q : Cell) : (aluShl p q).toNat = p.toNat * 2 ^ (q.toNat % 32) % 2 ^ 32 := by
  rw [aluShl, BitVec.toNat_shiftLeft, Nat.shiftLeft_eq, shiftCount_eq]

theorem aluShr_toNat (p q : Cell) : (aluShr p q).toNat = p.toNat / 2 ^ (q.toNat % 32) := by
  rw [aluShr, BitVec.toNat_ushiftRight, Nat.shiftRight_eq_div_pow, shiftCount_eq]

theorem aluSar_toInt (p q : Cell) : (aluSar p q).toInt = p.toInt / 2 ^ (q.toNat % 32) := by
  rw [aluSar, BitVec.toInt_sshiftRight, Int.shiftRight_eq_div_pow, shiftCount_eq, Nat.cast_pow, Nat.cast_ofNat]

/-- Settles O46: shifting is multiplying or dividing by two to the shift count. -/
theorem shiftsByTheLowFiveBits : Obligations.ShiftsByTheLowFiveBits :=
  ⟨binaryRule_of_binary aluShl aluShl_toNat, binaryRule_of_binary aluShr aluShr_toNat,
    binaryRule_of_binary aluSar aluSar_toInt⟩

end Sys2Proof.Machine
end

section
/-! The float BINOPs (spec/44_binary_ops.md R95, R109 to R112): what the sum, the product and the quotient are for each
class of operands, the finite ones rounded once from the exact result. -/

namespace Sys2Proof.Machine

/-! ## The classes of floats (93_implementation_defined.md G1) -/

theorem isInf_iff {v : Cell} : isInf v = true ↔ expField v = 255 ∧ fracField v = 0 := by simp [isInf]

theorem isNaN_iff {v : Cell} : isNaN v = true ↔ expField v = 255 ∧ fracField v ≠ 0 := by simp [isNaN]

theorem isNaN_of_isInf {v : Cell} (h : isInf v = true) : isNaN v = false :=
  Bool.eq_false_iff.2 fun hnan => (isNaN_iff.1 hnan).2 (isInf_iff.1 h).2

theorem isNaN_of_finite {v : Cell} (h : isFinite v) : isNaN v = false :=
  Bool.eq_false_iff.2 fun hnan => h (isNaN_iff.1 hnan).1

theorem isInf_of_finite {v : Cell} (h : isFinite v) : isInf v = false :=
  Bool.eq_false_iff.2 fun hinf => h (isInf_iff.1 hinf).1

/-- An infinity has a magnitude, so it is never the zero of a product. -/
theorem floatMag_ne_zero_of_isInf {v : Cell} (h : isInf v = true) : floatMag v ≠ 0 := by
  obtain ⟨hexp, -⟩ := isInf_iff.1 h
  rw [floatMag, hexp, if_neg (by decide)]
  positivity

/-- Whatever bits the host gives, a NaN result is a NaN. -/
theorem isNaN_nanResult (op : FloatOp) (p q : Cell) : isNaN (nanResult op p q) = true := by
  rw [nanResult, asNaN]
  split
  case isTrue h => exact h
  case isFalse => decide

/-! ## Sums (R109, R110) -/

section
variable {nan p q : Cell}

theorem floatSum_of_nan (h : isNaN p = true ∨ isNaN q = true) : floatSum nan p q = nan :=
  if_pos (Bool.or_eq_true_iff.2 h)

theorem floatSum_of_opposite_inf (hp : isInf p = true) (hq : isInf q = true) (hsign : signBit p ≠ signBit q) :
    floatSum nan p q = nan := by
  simp [floatSum, isNaN_of_isInf hp, isNaN_of_isInf hq, hp, hq, hsign]

theorem floatSum_of_same_inf (hp : isInf p = true) (hq : isInf q = true) (hsign : signBit p = signBit q) :
    floatSum nan p q = p := by
  simp [floatSum, isNaN_of_isInf hp, isNaN_of_isInf hq, hp, hsign]

theorem floatSum_of_inf_left (hp : isInf p = true) (hq : isFinite q) : floatSum nan p q = p := by
  simp [floatSum, isNaN_of_isInf hp, isNaN_of_finite hq, hp, isInf_of_finite hq]

theorem floatSum_of_inf_right (hp : isFinite p) (hq : isInf q = true) : floatSum nan p q = q := by
  simp [floatSum, isNaN_of_finite hp, isNaN_of_isInf hq, isInf_of_finite hp, hq]

theorem floatSum_of_finite (hp : isFinite p) (hq : isFinite q) : floatSum nan p q =
    if floatUnits p + floatUnits q = 0 then packFloat (signBit p && signBit q) 0
    else packFloat (decide (floatUnits p + floatUnits q < 0)) (roundBits (floatUnits p + floatUnits q).natAbs 1) := by
  simp [floatSum, isNaN_of_finite hp, isNaN_of_finite hq, isInf_of_finite hp, isInf_of_finite hq]

end

/-- A zero is its sign bit alone. -/
theorem packFloat_zero (s : Bool) : packFloat s 0 = if s then 0x80000000 else 0 := by
  cases s <;> decide

/-- A whole number of units is rounded from the bits of its magnitude. -/
theorem nearestFloat_natAbs (s : Bool) (z : ℤ) : nearestFloat |(z : ℝ)| (packFloat s (roundBits z.natAbs 1)) := by
  have h := nearestFloat_roundBits s z.natAbs Nat.one_pos
  rwa [Nat.cast_one, div_one, Nat.cast_natAbs, Int.cast_abs] at h

theorem isFloatSum_floatSum {nan : Cell} (hnan : isNaN nan = true) (p q : Cell) :
    isFloatSum p q (floatSum nan p q) := by
  refine ⟨?nan, ?opposite, ?same, ?left, ?right, ?zero, ?nonzero⟩
  case nan => exact fun h => floatSum_of_nan h ▸ hnan
  case opposite => exact fun hp hq hsign => floatSum_of_opposite_inf hp hq hsign ▸ hnan
  case same => exact fun hp hq hsign => floatSum_of_same_inf hp hq hsign
  case left => exact fun hp hq => floatSum_of_inf_left hp hq
  case right => exact fun hp hq => floatSum_of_inf_right hp hq
  case zero =>
    intro hp hq hz
    simp [floatSum_of_finite hp hq, hz, packFloat_zero]
  case nonzero =>
    intro hp hq hz
    rw [floatSum_of_finite hp hq, if_neg hz, signBit_packFloat, decide_eq_true_iff]
    exact ⟨Iff.rfl, nearestFloat_natAbs _ _⟩

/-- Settles O47: FSUB is the sum FADD makes, of the operand with its sign bit inverted. -/
theorem floatSumsExactlyRounded : Obligations.FloatSumsExactlyRounded :=
  ⟨binaryRule_of_binary fadd fun p q => isFloatSum_floatSum (isNaN_nanResult .fadd p q) p q,
    binaryRule_of_binary fsub fun p q => isFloatSum_floatSum (isNaN_nanResult .fsub p q) p (fneg q)⟩

/-! ## Products (R111) -/

section
variable {p q : Cell}

theorem fmul_of_nan (h : isNaN p = true ∨ isNaN q = true) : fmul p q = nanResult .fmul p q :=
  if_pos (Bool.or_eq_true_iff.2 h)

/-- An infinite operand gives an infinity, unless the other one is a zero. -/
theorem fmul_of_inf (hp : isNaN p = false) (hq : isNaN q = false) (hinf : isInf p = true ∨ isInf q = true) :
    fmul p q = if floatMag p = 0 ∨ floatMag q = 0 then nanResult .fmul p q
      else packFloat (signBit p != signBit q) infBits := by
  simp [fmul, hp, hq, hinf]

theorem fmul_of_finite (hp : isFinite p) (hq : isFinite q) : fmul p q =
    packFloat (signBit p != signBit q) (roundBits (floatMag p * floatMag q) (2 ^ 149)) := by
  simp [fmul, isNaN_of_finite hp, isNaN_of_finite hq, isInf_of_finite hp, isInf_of_finite hq]

end

/-- An infinity of the sign asked for. -/
theorem packFloat_infBits (s : Bool) : isInf (packFloat s infBits) = true ∧ signBit (packFloat s infBits) = s :=
  ⟨isInf_packFloat le_rfl, signBit_packFloat s infBits⟩

theorem isFloatProduct_fmul (p q : Cell) : isFloatProduct p q (fmul p q) := by
  refine ⟨?nan, ?invalid, ?infinite, ?finite⟩
  case nan => exact fun h => fmul_of_nan h ▸ isNaN_nanResult .fmul p q
  case invalid =>
    rintro (⟨hp, hq, hzero⟩ | ⟨hq, hp, hzero⟩)
    · rw [fmul_of_inf (isNaN_of_isInf hp) (isNaN_of_finite hq) (.inl hp), if_pos (.inr hzero)]
      exact isNaN_nanResult .fmul p q
    · rw [fmul_of_inf (isNaN_of_finite hp) (isNaN_of_isInf hq) (.inr hq), if_pos (.inl hzero)]
      exact isNaN_nanResult .fmul p q
  case infinite =>
    rintro (⟨hp, hq, hne⟩ | ⟨hq, hp, hne⟩)
    · rw [fmul_of_inf (isNaN_of_isInf hp) (Bool.eq_false_iff.2 hq) (.inl hp),
        if_neg (not_or.2 ⟨floatMag_ne_zero_of_isInf hp, hne⟩)]
      exact packFloat_infBits _
    · rw [fmul_of_inf (Bool.eq_false_iff.2 hp) (isNaN_of_isInf hq) (.inr hq),
        if_neg (not_or.2 ⟨hne, floatMag_ne_zero_of_isInf hq⟩)]
      exact packFloat_infBits _
  case finite =>
    intro hp hq
    have hnearest := nearestFloat_roundBits (signBit p != signBit q) (floatMag p * floatMag q) (d := 2 ^ 149)
      (by positivity)
    rw [fmul_of_finite hp hq]
    exact ⟨signBit_packFloat _ _, by exact_mod_cast hnearest⟩

/-! ## Quotients (R112) -/

section
variable {p q : Cell}

theorem fdiv_of_nan (h : isNaN p = true ∨ isNaN q = true) : fdiv p q = nanResult .fdiv p q :=
  if_pos (Bool.or_eq_true_iff.2 h)

theorem fdiv_of_inf_inf (hp : isInf p = true) (hq : isInf q = true) : fdiv p q = nanResult .fdiv p q := by
  simp [fdiv, isNaN_of_isInf hp, isNaN_of_isInf hq, hp, hq]

theorem fdiv_of_inf_left (hp : isInf p = true) (hq : isFinite q) :
    fdiv p q = packFloat (signBit p != signBit q) infBits := by
  simp [fdiv, isNaN_of_isInf hp, isNaN_of_finite hq, hp, isInf_of_finite hq]

theorem fdiv_of_inf_right (hp : isFinite p) (hq : isInf q = true) :
    fdiv p q = packFloat (signBit p != signBit q) 0 := by
  simp [fdiv, isNaN_of_finite hp, isNaN_of_isInf hq, isInf_of_finite hp, hq]

/-- Division of a finite float by zero: a NaN for a zero, an infinity for any other. -/
theorem fdiv_of_zero_divisor (hp : isFinite p) (hq : isFinite q) (hzero : floatMag q = 0) :
    fdiv p q = if floatMag p = 0 then nanResult .fdiv p q else packFloat (signBit p != signBit q) infBits := by
  simp [fdiv, isNaN_of_finite hp, isNaN_of_finite hq, isInf_of_finite hp, isInf_of_finite hq, hzero]

theorem fdiv_of_finite (hp : isFinite p) (hq : isFinite q) (hne : floatMag q ≠ 0) : fdiv p q =
    packFloat (signBit p != signBit q) (roundBits (floatMag p * 2 ^ 149) (floatMag q)) := by
  simp [fdiv, isNaN_of_finite hp, isNaN_of_finite hq, isInf_of_finite hp, isInf_of_finite hq, hne]

end

theorem isFloatQuotient_fdiv (p q : Cell) : isFloatQuotient p q (fdiv p q) := by
  refine ⟨?nan, ?infinities, ?zeros, ?infinite, ?vanishing, ?finite⟩
  case nan => exact fun h => fdiv_of_nan h ▸ isNaN_nanResult .fdiv p q
  case infinities => exact fun hp hq => fdiv_of_inf_inf hp hq ▸ isNaN_nanResult .fdiv p q
  case zeros =>
    intro hp hq hp0 hq0
    rw [fdiv_of_zero_divisor hp hq hq0, if_pos hp0]
    exact isNaN_nanResult .fdiv p q
  case infinite =>
    rintro (⟨hp, hq⟩ | ⟨hp, hne, hq, hq0⟩)
    · exact fdiv_of_inf_left hp hq ▸ packFloat_infBits _
    · rw [fdiv_of_zero_divisor hp hq hq0, if_neg hne]
      exact packFloat_infBits _
  case vanishing =>
    intro hp hq
    rw [fdiv_of_inf_right hp hq, floatMag_packFloat (Nat.zero_le infBits)]
    exact ⟨rfl, signBit_packFloat _ _⟩
  case finite =>
    intro hp hq hne
    have hnearest := nearestFloat_roundBits (signBit p != signBit q) (floatMag p * 2 ^ 149)
      (Nat.pos_of_ne_zero hne)
    rw [fdiv_of_finite hp hq hne]
    exact ⟨signBit_packFloat _ _, by exact_mod_cast hnearest⟩

/-- Settles O48: each class of operands falls to one equation of the operation. -/
theorem floatProductsExactlyRounded : Obligations.FloatProductsExactlyRounded :=
  ⟨binaryRule_of_binary fmul isFloatProduct_fmul, binaryRule_of_binary fdiv isFloatQuotient_fdiv⟩

end Sys2Proof.Machine
end

section
/-! The operands of an instruction with a destination and one source (spec/30_encoding.md R55, R56,
40_execution_cycle.md R71 phases 3 and 4): the destination located, then the source located and read; and what the nine
UNOPs share (spec/45_unary_ops.md R113), whose rule follows from the result of their operation. -/

namespace Sys2Proof.Machine

/-! ## The faults of a destination and a source -/

/-- An instruction that first locates its destination and then locates and reads its source reports their faults. -/
theorem operandFaults_of_dstLoc_readSource {i : Instr} {a0 a1 : Operand}
    {rest : State → Dest → Cell → Except ErrorEvent State} (hargs : i.args = [(.dst, a0), (.src, a1)])
    (hexec : ∀ s, exec i s = .next (s.settle (dstLoc (s.fetched 2) s.pc a0 >>= fun L =>
      s.readSource 2 a1 >>= rest s L))) : OperandFaults i := by
  have hdst {s : State} {e : ErrorEvent} (h : dstLoc (s.fetched 2) s.pc a0 = .error e) :
      exec i s = .next (s.raise e) := by
    rw [hexec, h, phase_error, State.settle_error]
  have hsrc {s : State} {e : ErrorEvent} (h0 : ∀ e', ¬ s.badArg 2 (.dst, a0) e')
      (h : s.readSource 2 a1 = .error e) : exec i s = .next (s.raise e) := by
    obtain ⟨L, hL⟩ := State.exists_locates h0
    have hL : dstLoc (s.fetched 2) s.pc a0 = .ok L := hL
    rw [hexec, hL, phase_ok, h, phase_error, State.settle_error]
  intro s
  rw [hargs]
  constructor
  case left =>
    intro before after a e hsplit hbefore hbad
    obtain ⟨rfl, rfl⟩ | ⟨rfl, rfl⟩ := eq_of_pair_split hsplit
    · exact hdst hbad
    · exact hsrc (hbefore _ (by simp)) (State.readSource_of_badArg hbad)
  case right =>
    intro before after o ea hsplit hlocated _ hloc hcell
    obtain ⟨rfl, ho⟩ | ⟨rfl, ho⟩ := eq_of_pair_split hsplit
    · exact nomatch (Prod.mk.inj ho).1
    · obtain rfl := (Prod.mk.inj ho).2
      exact hsrc (hlocated _ (by simp)) (State.readSource_of_unbacked hloc hcell)

/-! ## The body every UNOP shares -/

theorem State.unary_eq (s : State) (c : Nat) (f : Cell → Cell) (a0 a1 : Operand) :
    s.unary c f a0 a1 = s.settle (dstLoc (s.fetched 2) s.pc a0 >>= fun L =>
      s.readSource 2 a1 >>= fun p => s.commitTo (s.fetched 2) L (f p) c) := by
  simp only [State.readSource, bind_assoc]
  rfl

/-- With its operands resolved, a UNOP is the write of its result. -/
theorem State.unary_of_resolved {s : State} {a0 a1 : Operand} {L : Dest} {p : Cell} (c : Nat) (f : Cell → Cell)
    (h0 : s.locates 2 a0 L) (h1 : s.reads 2 a1 p) :
    s.unary c f a0 a1 = s.settle (s.commitTo (s.fetched 2) L (f p) c) := by
  have hL : dstLoc (s.fetched 2) s.pc a0 = .ok L := h0
  rw [State.unary_eq, hL, phase_ok, State.readSource_eq_ok.2 h1, phase_ok]

/-- The UNOPs differ only in their subtype, their cost and their operation `g`. -/
theorem unaryRule_of_unary {i : Operand → Operand → Instr} {sub : Byte} {c : Params → Nat}
    {spec : Cell → Cell → Prop} (g : Cell → Cell) (hspec : ∀ p, spec p (g p))
    (hencode : ∀ a0 a1, encode (i a0 a1) = instrCells 0x0B sub [a0, a1] := by intros; rfl)
    (hargs : ∀ a0 a1, (i a0 a1).args = [(.dst, a0), (.src, a1)] := by intros; rfl)
    (hexec : ∀ a0 a1 s, exec (i a0 a1) s = .next (s.unary (c s.params) g a0 a1) := by intros; rfl) :
    UnaryRule i sub c spec := by
  refine ⟨fun a0 a1 => ⟨hencode a0 a1, ?faults⟩, fun s a0 a1 L p h0 h1 => ⟨g p, hspec p, ?yields⟩⟩
  case faults =>
    exact operandFaults_of_dstLoc_readSource (hargs a0 a1) fun s =>
      (hexec a0 a1 s).trans (congrArg _ (s.unary_eq _ g a0 a1))
  case yields =>
    apply State.yields_of_settle
    rw [hexec, State.unary_of_resolved _ g h0 h1, Regs.setAll_nil]

end Sys2Proof.Machine
end

section
/-! NEG, NOT, FNEG and FABS (spec/45_unary_ops.md R114 to R117): the result of each as a number or bit by bit. -/

namespace Sys2Proof.Machine

theorem aluNeg_toNat (p : Cell) : (aluNeg p).toNat = (2 ^ 32 - p.toNat) % 2 ^ 32 := by
  rw [aluNeg, zero_sub, BitVec.toNat_neg]

theorem aluNot_getLsbD (p : Cell) {i : Nat} (hi : i < 32) : (aluNot p).getLsbD i = !p.getLsbD i := by
  rw [aluNot, BitVec.getLsbD_not, decide_eq_true hi, Bool.true_and]

/-- The mask of FNEG has the sign bit alone. -/
theorem signMask_getLsbD (i : Nat) : (0x80000000#32).getLsbD i = decide (31 = i) := by
  rw [show 0x80000000#32 = BitVec.twoPow 32 31 from rfl, BitVec.getLsbD_twoPow, decide_eq_true (by decide),
    Bool.true_and]

/-- The mask of FABS has every bit below the sign bit. -/
theorem magnitudeMask_getLsbD (i : Nat) : (0x7FFFFFFF#32).getLsbD i = decide (i < 31) := by
  rw [show 0x7FFFFFFF#32 = (BitVec.allOnes 31).setWidth 32 from rfl, BitVec.getLsbD_setWidth, BitVec.getLsbD_allOnes,
    ← Bool.decide_and, decide_eq_decide]
  omega

theorem fneg_getLsbD (p : Cell) (i : Nat) : (fneg p).getLsbD i = (p.getLsbD i ^^ decide (31 = i)) := by
  rw [fneg, BitVec.getLsbD_xor, signMask_getLsbD]

theorem fabs_getLsbD (p : Cell) (i : Nat) : (fabs p).getLsbD i = (p.getLsbD i && decide (i < 31)) := by
  rw [fabs, BitVec.getLsbD_and, magnitudeMask_getLsbD]

/-- FNEG inverts bit 31 and keeps the bits below it. -/
theorem fneg_bits (p : Cell) :
    (fneg p).getLsbD 31 = !p.getLsbD 31 ∧ ∀ i < 31, (fneg p).getLsbD i = p.getLsbD i := by
  refine ⟨by rw [fneg_getLsbD, decide_eq_true rfl, Bool.xor_true], fun i hi => ?_⟩
  rw [fneg_getLsbD, decide_eq_false hi.ne', Bool.xor_false]

/-- FABS clears bit 31 and keeps the bits below it. -/
theorem fabs_bits (p : Cell) : (fabs p).getLsbD 31 = false ∧ ∀ i < 31, (fabs p).getLsbD i = p.getLsbD i := by
  refine ⟨by rw [fabs_getLsbD, decide_eq_false (lt_irrefl 31), Bool.and_false], fun i hi => ?_⟩
  rw [fabs_getLsbD, decide_eq_true hi, Bool.and_true]

/-- Settles O49: one rule for the four, each with the number or the bits of its result. -/
theorem negationsAndComplement : Obligations.NegationsAndComplement :=
  ⟨unaryRule_of_unary aluNeg aluNeg_toNat, unaryRule_of_unary aluNot fun p _ hi => aluNot_getLsbD p hi,
    unaryRule_of_unary fneg fneg_bits, unaryRule_of_unary fabs fabs_bits⟩

end Sys2Proof.Machine
end

section
/-! FSQRT (spec/45_unary_ops.md R118): rounding a root from its whole part and whether it is exact rounds the root
itself, since the midpoints between floats of that size are whole numbers of units. -/

namespace Sys2Proof.Machine

/-! ## Rounding from a count of halves -/

/-- `N` halves stand for `x`: they lie below, at or above every whole number as `x` does. -/
def halvesOf (N : Nat) (x : ℝ) : Prop :=
  ∀ a : Nat, ((a : ℝ) < x ↔ 2 * a < N) ∧ (x = a ↔ N = 2 * a)

section
variable {N : Nat} {x : ℝ}

theorem halvesOf.le_iff (h : halvesOf N x) (a : Nat) : (a : ℝ) ≤ x ↔ 2 * a ≤ N := by
  rw [le_iff_lt_or_eq, le_iff_lt_or_eq, (h a).1, eq_comm (a := (a : ℝ)), (h a).2, eq_comm (a := N)]

theorem halvesOf.lt_iff (h : halvesOf N x) (a : Nat) : x < a ↔ N < 2 * a := by
  rw [← not_le, h.le_iff, not_le]

/-- From `2^24` units on, neighbouring floats are an even number of units apart, so `roundBits` meets only whole
numbers: rounding the halves that stand for `x` is rounding `x`. -/
theorem nearestFloat_of_halvesOf (s : Bool) (h : halvesOf N x) (hN : 2 ^ 25 ≤ N) :
    nearestFloat x (packFloat s (roundBits N 2)) := by
  obtain ⟨k, q, hbits, hq, hk, hlt, hlog⟩ := roundBits_steps N 2
  have hscale : 24 ≤ (N / 2).log2 := (Nat.le_log2 (by omega)).2 (by omega)
  obtain ⟨j, rfl⟩ : ∃ j, k = j + 1 := ⟨k - 1, by omega⟩
  have hstep : 2 * 2 ^ (j + 1) = 4 * 2 ^ j := by ring
  rw [hbits]
  rw [hstep] at hq ⊢
  have hsum : 4 * (2 ^ j * q) + N % (4 * 2 ^ j) = N := by
    rw [← mul_assoc, hq, Nat.div_add_mod]
  have hmod : N % (4 * 2 ^ j) < 4 * 2 ^ j := Nat.mod_lt _ (by positivity)
  have hlow : (q * 2 ^ (j + 1) : ℝ) = (2 * (2 ^ j * q) : ℕ) := by push_cast; ring
  have hmid : (q * 2 ^ (j + 1) : ℝ) + 2 ^ (j + 1) / 2 = (2 * (2 ^ j * q) + 2 ^ j : ℕ) := by push_cast; ring
  have hhigh : ((q + 1) * 2 ^ (j + 1) : ℝ) = (2 * (2 ^ j * q) + 2 * 2 ^ j : ℕ) := by push_cast; ring
  refine nearestFloat_of_steps s hk hlt ?low ?high ?up
  case low => rw [hlow, h.le_iff]; omega
  case high => rw [hhigh, h.lt_iff]; omega
  case up => rw [hmid, (h _).1, (h _).2]; omega

end

/-! ## The square root -/

/-- The rounded-down root, with one half more where it is not exact, stands for the root. -/
theorem halvesOf_sqrt {n r : Nat} (hlo : r * r ≤ n) (hhi : n < (r + 1) * (r + 1)) :
    halvesOf (2 * r + (if r * r = n then 0 else 1)) (Real.sqrt n) := by
  intro a
  have hlt : (a : ℝ) < Real.sqrt n ↔ a * a < n := by
    rw [Real.lt_sqrt (Nat.cast_nonneg a), sq]
    exact_mod_cast Iff.rfl
  have heq : Real.sqrt n = a ↔ n = a * a := by
    rw [Real.sqrt_eq_iff_mul_self_eq (Nat.cast_nonneg n) (Nat.cast_nonneg a)]
    exact_mod_cast Iff.rfl
  rw [hlt, heq]
  rcases lt_trichotomy a r with h | rfl | h
  · have : a * a < r * r := Nat.mul_self_lt_mul_self h
    split <;> omega
  · split <;> omega
  · have : (r + 1) * (r + 1) ≤ a * a := Nat.mul_self_le_mul_self h
    split <;> omega

/-- Infinities and NaNs have magnitudes of `2^277` units or more. -/
theorem isFinite_of_floatMag_lt {v : Cell} (h : floatMag v < 2 ^ 277) : isFinite v := by
  intro hexp
  rw [floatMag, hexp, if_neg (by decide)] at h
  omega

section
variable {p : Cell}

theorem fsqrt_of_nan (h : isNaN p = true) : fsqrt p = nanResult .fsqrt p 0 := if_pos h

theorem fsqrt_of_zero (h : floatMag p = 0) : fsqrt p = p := by
  have hfin : isFinite p := isFinite_of_floatMag_lt (by omega)
  simp [fsqrt, isNaN_of_finite hfin, h]

theorem fsqrt_of_negative (hnan : isNaN p = false) (hne : floatMag p ≠ 0) (hsign : signBit p = true) :
    fsqrt p = nanResult .fsqrt p 0 := by
  simp [fsqrt, hnan, hne, hsign]

theorem fsqrt_of_inf (hinf : isInf p = true) (hsign : signBit p = false) : fsqrt p = p := by
  simp [fsqrt, isNaN_of_isInf hinf, hinf, hsign]

theorem fsqrt_of_positive (hfin : isFinite p) (hne : floatMag p ≠ 0) (hsign : signBit p = false) :
    fsqrt p = packFloat false (roundBits (2 * floorSqrt (floatMag p * 2 ^ 149) +
      (if floorSqrt (floatMag p * 2 ^ 149) * floorSqrt (floatMag p * 2 ^ 149) = floatMag p * 2 ^ 149
        then 0 else 1)) 2) := by
  simp [fsqrt, isNaN_of_finite hfin, isInf_of_finite hfin, hne, hsign]

end

theorem nearestFloat_floorSqrt (s : Bool) {n : Nat} (hlo : 2 ^ 149 ≤ n) (hhi : n < 2 ^ 432) :
    nearestFloat (Real.sqrt n)
      (packFloat s (roundBits (2 * floorSqrt n + (if floorSqrt n * floorSqrt n = n then 0 else 1)) 2)) := by
  obtain ⟨hle, hlt⟩ := floorSqrt_spec hhi
  refine nearestFloat_of_halvesOf s (halvesOf_sqrt hle hlt) ?_
  have hroot : 2 ^ 24 ≤ floorSqrt n := by
    by_contra! hsmall
    have : (floorSqrt n + 1) * (floorSqrt n + 1) ≤ 2 ^ 24 * 2 ^ 24 := Nat.mul_self_le_mul_self hsmall
    omega
  omega

theorem isFloatRoot_fsqrt (p : Cell) : isFloatRoot p (fsqrt p) := by
  refine ⟨?nan, ?zero, ?negative, ?infinite, ?positive⟩
  case nan => exact fun h => fsqrt_of_nan h ▸ isNaN_nanResult .fsqrt p 0
  case zero => exact fsqrt_of_zero
  case negative =>
    exact fun hnan hne hsign => fsqrt_of_negative (Bool.eq_false_iff.2 hnan) hne hsign ▸ isNaN_nanResult .fsqrt p 0
  case infinite => exact fun hinf hsign => fsqrt_of_inf hinf (Bool.eq_false_iff.2 hsign)
  case positive =>
    intro hfin hne hsign
    have hpos : 0 < floatMag p := Nat.pos_of_ne_zero hne
    have hmag := floatMag_lt p
    have hnearest := nearestFloat_floorSqrt false (n := floatMag p * 2 ^ 149) (by omega) (by omega)
    rw [fsqrt_of_positive hfin hne (Bool.eq_false_iff.2 hsign), signBit_packFloat]
    exact ⟨Bool.false_ne_true, by exact_mod_cast hnearest⟩

/-- Settles O50: each class of sources falls to one equation of the operation. -/
theorem squareRootExactlyRounded : Obligations.SquareRootExactlyRounded :=
  unaryRule_of_unary fsqrt isFloatRoot_fsqrt

end Sys2Proof.Machine
end

section
/-! FSIN and FCOS (spec/45_unary_ops.md R119, R120): whatever bits the host gives, the result is a NaN where one is
asked for and within the bounds where not. -/

namespace Sys2Proof.Machine

theorem isNaN_asNaN (v : Cell) : isNaN (asNaN v) = true := by
  rw [asNaN]
  split
  case isTrue h => exact h
  case isFalse => decide

theorem expField_of_nan_or_inf {p : Cell} (h : isNaN p = true ∨ isInf p = true) : expField p = 255 :=
  h.elim (fun hnan => (isNaN_iff.1 hnan).1) fun hinf => (isInf_iff.1 hinf).1

theorem floatMag_oneCell : floatMag oneCell = 2 ^ 149 := by decide

/-- A magnitude of at most 1 is that of a finite float. -/
theorem withinOne_of_floatMag_le {v : Cell} (h : floatMag v ≤ 2 ^ 149) : withinOne v :=
  ⟨isFinite_of_floatMag_lt (by omega), h⟩

theorem withinOne_oneCell : withinOne oneCell := withinOne_of_floatMag_le floatMag_oneCell.le

theorem withinOne_of_zero {v : Cell} (h : floatMag v = 0) : withinOne v := withinOne_of_floatMag_le (by omega)

theorem withinOne_asUnit (v : Cell) : withinOne (asUnit v) := by
  rw [asUnit, floatMag_oneCell]
  split
  case isTrue h => exact withinOne_of_floatMag_le h
  case isFalse => exact withinOne_of_zero (by decide)

/-! ## The form FSIN and FCOS share -/

/-- The host's `bits` held to a NaN or to the bounds, as the source `p` asks, and `atZero` where `p` is a zero. -/
def heldToBounds (bits atZero p : Cell) : Cell :=
  if expField p = 255 then asNaN bits else if floatMag p = 0 then atZero else asUnit bits

theorem fsin_eq (p : Cell) : fsin p = heldToBounds (Config.sinBits p) p p := rfl

theorem fcos_eq (p : Cell) : fcos p = heldToBounds (Config.cosBits p) oneCell p := rfl

section
variable (bits : Cell) {atZero p : Cell}

theorem isNaN_heldToBounds (h : isNaN p = true ∨ isInf p = true) : isNaN (heldToBounds bits atZero p) = true := by
  rw [heldToBounds, if_pos (expField_of_nan_or_inf h)]
  exact isNaN_asNaN bits

theorem heldToBounds_of_zero (h : floatMag p = 0) : heldToBounds bits atZero p = atZero := by
  rw [heldToBounds, if_neg (isFinite_of_floatMag_lt (by omega)), if_pos h]

theorem withinOne_heldToBounds (hzero : floatMag p = 0 → withinOne atZero) (hfin : isFinite p) :
    withinOne (heldToBounds bits atZero p) := by
  rw [heldToBounds, if_neg hfin]
  split
  case isTrue h => exact hzero h
  case isFalse => exact withinOne_asUnit bits

end

/-- Settles O51: the two functions are the model's own, of which only the form they share is used. -/
theorem sineAndCosineWithinTheirBounds : Obligations.SineAndCosineWithinTheirBounds :=
  ⟨⟨fsin, unaryRule_of_unary fsin fun _ => rfl, heldToBounds_of_zero _ (by decide), heldToBounds_of_zero _ (by decide),
      fun p h => fsin_eq p ▸ isNaN_heldToBounds _ h,
      fun p hfin => fsin_eq p ▸ withinOne_heldToBounds _ withinOne_of_zero hfin⟩,
    fcos, unaryRule_of_unary fcos fun _ => rfl, heldToBounds_of_zero _ (by decide), heldToBounds_of_zero _ (by decide),
      fun p h => fcos_eq p ▸ isNaN_heldToBounds _ h,
      fun p hfin => fcos_eq p ▸ withinOne_heldToBounds _ (fun _ => withinOne_oneCell) hfin⟩

end Sys2Proof.Machine
end

section
/-! ITOF and FTOI (spec/45_unary_ops.md R121, R122): the conversions between signed integers and floats, a unit being
`2^-149`. -/

namespace Sys2Proof.Machine

/-! ## ITOF -/

theorem isFloatOfInt_itof (p : Cell) : isFloatOfInt p (itof p) := by
  refine ⟨?zero, ?sign, ?nearest⟩
  case zero =>
    rintro rfl
    decide
  case sign => rw [itof, signBit_packFloat, decide_eq_true_iff]
  case nearest =>
    have hnearest := nearestFloat_natAbs (decide (p.toInt < 0)) (p.toInt * 2 ^ 149)
    have hvalue : |((p.toInt * 2 ^ 149 : ℤ) : ℝ)| = |(p.toInt : ℝ)| * 2 ^ 149 := by
      rw [Int.cast_mul, abs_mul, Int.cast_pow, Int.cast_ofNat, abs_of_pos (a := (2 : ℝ) ^ 149) (by positivity)]
    rwa [hvalue, Int.natAbs_mul, Int.natAbs_pow] at hnearest

/-! ## FTOI -/

section
variable {p : Cell}

theorem ftoi_of_nan (h : isNaN p = true) : ftoi p = 0 := if_pos h

theorem ftoi_of_signBit (hnan : isNaN p = false) (hsign : signBit p = true) :
    ftoi p = if 2 ^ 31 ≤ floatMag p / 2 ^ 149 then 0x80000000 else BitVec.ofInt 32 (-(floatMag p / 2 ^ 149 : Nat)) := by
  simp [ftoi, hnan, hsign]

theorem ftoi_of_not_signBit (hnan : isNaN p = false) (hsign : signBit p = false) :
    ftoi p = if 2 ^ 31 ≤ floatMag p / 2 ^ 149 then 0x7FFFFFFF else BitVec.ofNat 32 (floatMag p / 2 ^ 149) := by
  simp [ftoi, hnan, hsign]

end

theorem floatUnits_of_signBit {p : Cell} (h : signBit p = true) : floatUnits p = -(floatMag p : Int) := if_pos h

theorem floatUnits_of_not_signBit {p : Cell} (h : signBit p = false) : floatUnits p = floatMag p :=
  if_neg (Bool.eq_false_iff.1 h)

/-- A whole number whose magnitude is below `2^31` fits a cell. -/
theorem toInt_ofInt_of_natAbs_lt {z : Int} (h : z.natAbs < 2 ^ 31) : (BitVec.ofInt 32 z).toInt = z :=
  BitVec.toInt_ofInt_eq_self (by decide) (by omega) (by omega)

theorem isIntOfFloat_ftoi (p : Cell) : isIntOfFloat p (ftoi p) := by
  refine ⟨ftoi_of_nan, fun hnan habove => ?above, fun hnan hbelow => ?below, fun hnan hlo hhi => ?within⟩
  all_goals have hnan := Bool.eq_false_iff.2 hnan
  case above =>
    have hsign : signBit p = false := by
      refine Bool.eq_false_iff.2 fun hsign => ?_
      rw [floatUnits_of_signBit hsign] at habove
      omega
    rw [floatUnits_of_not_signBit hsign] at habove
    rw [ftoi_of_not_signBit hnan hsign, if_pos (by omega)]
  case below =>
    have hsign : signBit p = true := by
      refine Bool.eq_true_of_not_eq_false fun hsign => ?_
      rw [floatUnits_of_not_signBit hsign] at hbelow
      omega
    rw [floatUnits_of_signBit hsign] at hbelow
    rw [ftoi_of_signBit hnan hsign, if_pos (by omega)]
  case within =>
    cases hsign : signBit p with
    | true =>
      rw [floatUnits_of_signBit hsign] at hlo ⊢
      rw [ftoi_of_signBit hnan hsign, if_neg (by omega), toInt_ofInt_of_natAbs_lt (by omega), Int.neg_tdiv]
      rfl
    | false =>
      rw [floatUnits_of_not_signBit hsign] at hhi ⊢
      rw [ftoi_of_not_signBit hnan hsign, if_neg (by omega), ← BitVec.ofInt_natCast,
        toInt_ofInt_of_natAbs_lt (by omega)]
      rfl

/-- Settles O52: ITOF rounds the magnitude once; FTOI is settled by the side of the limits the source is on, then by
its sign. -/
theorem conversionsRoundAndSaturate : Obligations.ConversionsRoundAndSaturate :=
  ⟨unaryRule_of_unary itof isFloatOfInt_itof, unaryRule_of_unary ftoi isIntOfFloat_ftoi⟩

end Sys2Proof.Machine
end

section
/-! IN and OUT (spec/46_io.md): the operands resolved, the port number checked, then one transaction, whose answer
decides whether the instruction waits or finishes; it finishes in the state the transaction left. -/

namespace Sys2Proof.Machine

/-! ## Port numbers (20_memory.md R37) -/

section
variable {s : State} {p : Cell}

theorem State.portCheck_of_invalid (h : p.toInt < 0 ∨ (s.params.portCount : Int) ≤ p.toInt) :
    s.portCheck p = .error ⟨.invalidPort, s.pc⟩ := by
  rw [State.portCheck, State.portOf, if_neg (by omega)]

/-- A valid port number is not negative, so it is the cell's unsigned value too. -/
theorem State.portCheck_of_valid (hlo : 0 ≤ p.toInt) (hhi : p.toInt < s.params.portCount) :
    s.portCheck p = .ok p.toNat := by
  have htoNat : p.toInt.toNat = p.toNat := by
    rw [BitVec.toInt_eq_toNat_cond] at hlo ⊢
    split at hlo <;> omega
  rw [State.portCheck, State.portOf, if_pos ⟨hlo, hhi⟩, htoNat]

end

theorem toNat_eq_diskPort_iff {p : Cell} : p.toNat = diskPort ↔ p = 1 := BitVec.toNat_inj (y := 1)

/-! ## Transactions whose answer is decided (20_memory.md R38) -/

section
variable {s : State} {p : Nat}

theorem State.portRead_of_notReady {rest : List (Option Cell)} (hp : p ≠ diskPort)
    (h : s.readAnswers = none :: rest) : s.portRead p = (none, { s with readAnswers := rest }) := by
  simp [State.portRead, hp, h]

theorem State.portRead_of_ready {v : Cell} {rest : List (Option Cell)} (hp : p ≠ diskPort)
    (h : s.readAnswers = some v :: rest) : s.portRead p =
      (some v, { s with readAnswers := rest, portHistory := s.portHistory ++ [PortEvent.input p v] }) := by
  simp [State.portRead, hp, h]

theorem State.portWrite_of_notReady {v : Cell} {rest : List Bool} (hp : p ≠ diskPort)
    (h : s.writeAnswers = false :: rest) : s.portWrite p v = (false, { s with writeAnswers := rest }) := by
  simp [State.portWrite, hp, h]

theorem State.portWrite_of_done {v : Cell} {rest : List Bool} (hp : p ≠ diskPort)
    (h : s.writeAnswers = true :: rest) : s.portWrite p v =
      (true, { s with writeAnswers := rest, portHistory := s.portHistory ++ [PortEvent.output p v] }) := by
  simp [State.portWrite, hp, h]

end

/-! ## IN -/

/-- IN in the form the faults of its operands are read off: the phases in order, the transaction last. -/
theorem exec_inPort (a0 a1 : Operand) (s : State) :
    exec (.inPort a0 a1) s = .next (s.settle (dstLoc (s.fetched 2) s.pc a0 >>= fun L =>
      s.readSource 2 a1 >>= fun p => s.portCheck p >>= fun port =>
        pure ((s.portRead port).2.finishIn L (s.portRead port).1))) := by
  have hphases : exec (.inPort a0 a1) s = .next (s.settle (s.inPhases a0 a1 >>= fun r =>
      pure ((s.portRead r.2).2.finishIn r.1 (s.portRead r.2).1))) := by
    rw [exec, execInPort]
    rcases s.inPhases a0 a1 with _ | _ <;> rfl
  rw [hphases]
  simp only [State.inPhases, State.readSource, bind_assoc, pure_bind]

section
variable {s : State} {a0 a1 : Operand} {L : Dest} {p : Cell}

theorem inPort_raises_of_invalid (h0 : s.locates 2 a0 L) (h1 : s.reads 2 a1 p)
    (hport : p.toInt < 0 ∨ (s.params.portCount : Int) ≤ p.toInt) : s.raises (.inPort a0 a1) .invalidPort s.pc := by
  have hL : dstLoc (s.fetched 2) s.pc a0 = .ok L := h0
  rw [State.raises, exec_inPort, hL, phase_ok, State.readSource_eq_ok.2 h1, phase_ok,
    State.portCheck_of_invalid hport, phase_error, State.settle_error]

/-- On a valid port, IN is what it does with the answer of its transaction. -/
theorem exec_inPort_of_valid (h0 : s.locates 2 a0 L) (h1 : s.reads 2 a1 p) (hlo : 0 ≤ p.toInt)
    (hhi : p.toInt < s.params.portCount) :
    exec (.inPort a0 a1) s = .next ((s.portRead p.toNat).2.finishIn L (s.portRead p.toNat).1) := by
  have hL : dstLoc (s.fetched 2) s.pc a0 = .ok L := h0
  rw [exec_inPort, hL, phase_ok, State.readSource_eq_ok.2 h1, phase_ok, State.portCheck_of_valid hlo hhi, phase_ok,
    phase_pure, State.settle_ok]

end

section
variable {s : State} {v : Cell}

/-- A cell delivered to a place that accepts it completes the instruction. -/
theorem State.finishIn_of_accepts {L : Dest} (h : s.accepts L) :
    s.completes (s.finishIn L (some v)) 1 ∧ s.writesTo (s.finishIn L (some v)) 2 [] L v := by
  cases L with
  | reg r => exact ⟨s.commit_completes _ _ 1, s.commit_setsRegs 2 [(r, v)] _ 1, s.commit_keepsMemory _ 1⟩
  | mem ea =>
    obtain ⟨m, hm⟩ := State.setValue_of_acceptsAt v h
    have hstore : s.storeTo v (.mem ea) = .ok m := State.memWrite_eq_ok.2 hm
    have hfinish : s.finishIn (.mem ea) (some v) = s.commit (s.fetched 2) m 1 := by
      rw [State.finishIn, State.commitTo_eq_ok.2 ⟨m, hstore, rfl⟩, State.settle_ok, Regs.setTo]
    rw [hfinish]
    exact ⟨s.commit_completes _ _ 1, s.commit_setsRegs 2 [] _ 1, State.stores_of_setValue hm rfl rfl⟩

/-- A cell delivered to a refused place is lost: the fault is taken in the state the transaction left. -/
theorem State.finishIn_of_not_acceptsAt {ea : Cell} (h : ¬ s.acceptsAt ea) :
    s.finishIn (.mem ea) (some v) = s.raise ⟨.segmentationFault, ea⟩ := by
  have herror : s.commitTo (s.fetched 2) (.mem ea) v 1 = .error ⟨.segmentationFault, ea⟩ :=
    State.commitTo_eq_error.2 (State.memWrite_of_not_acceptsAt v h)
  rw [State.finishIn, herror, State.settle_error]

end

/-- Settles O53: the port check, then the answer of the transaction; the answer and the history are no part of what
the write of the delivered cell reads, so it writes as in the state IN began in. -/
theorem inDeliversWaitsOrFaults : Obligations.InDeliversWaitsOrFaults := by
  refine ⟨fun a0 a1 => ⟨rfl, operandFaults_of_dstLoc_readSource rfl (exec_inPort a0 a1)⟩,
    fun s a0 a1 L p h0 h1 => ⟨inPort_raises_of_invalid h0 h1, fun hlo hhi => ?valid⟩⟩
  rw [exec_inPort_of_valid h0 h1 hlo hhi]
  refine ⟨?disk, fun hne => ⟨fun rest hans => ?notReady, fun v rest hans => ?ready⟩⟩
  case disk =>
    intro hp
    rw [toNat_eq_diskPort_iff.2 hp, State.portRead_disk]
    rfl
  case notReady =>
    rw [State.portRead_of_notReady (mt toNat_eq_diskPort_iff.1 hne) hans]
    rfl
  case ready =>
    rw [State.portRead_of_ready (mt toNat_eq_diskPort_iff.1 hne) hans]
    refine ⟨fun hacc => ⟨_, rfl, State.finishIn_of_accepts hacc⟩, ?refused⟩
    rintro ea rfl hrefused
    exact congrArg _ (State.finishIn_of_not_acceptsAt hrefused)

/-! ## OUT -/

/-- OUT in the form the faults of its operands are read off: the phases in order, the transaction last. -/
theorem exec_outPort (a0 a1 : Operand) (s : State) :
    exec (.outPort a0 a1) s = .next (s.settle (s.readSources 2 a0 a1 >>= fun r =>
      s.portCheck r.1 >>= fun port => pure ((s.portWrite port r.2).2.finishOut (s.portWrite port r.2).1))) := by
  have hphases : exec (.outPort a0 a1) s = .next (s.settle (s.outPhases a0 a1 >>= fun r =>
      pure ((s.portWrite r.1 r.2).2.finishOut (s.portWrite r.1 r.2).1))) := by
    rw [exec, execOutPort]
    rcases s.outPhases a0 a1 with _ | _ <;> rfl
  rw [hphases]
  simp only [State.outPhases, State.readSources, bind_assoc, pure_bind]

section
variable {s : State} {a0 a1 : Operand} {p v : Cell}

theorem outPort_raises_of_invalid (h0 : s.reads 2 a0 p) (h1 : s.reads 2 a1 v)
    (hport : p.toInt < 0 ∨ (s.params.portCount : Int) ≤ p.toInt) : s.raises (.outPort a0 a1) .invalidPort s.pc := by
  rw [State.raises, exec_outPort, State.readSources_of_reads h0 h1, phase_ok, State.portCheck_of_invalid hport,
    phase_error, State.settle_error]

/-- On a valid port, OUT is what it does with the answer of its transaction. -/
theorem exec_outPort_of_valid (h0 : s.reads 2 a0 p) (h1 : s.reads 2 a1 v) (hlo : 0 ≤ p.toInt)
    (hhi : p.toInt < s.params.portCount) :
    exec (.outPort a0 a1) s = .next ((s.portWrite p.toNat v).2.finishOut (s.portWrite p.toNat v).1) := by
  rw [exec_outPort, State.readSources_of_reads h0 h1, phase_ok, State.portCheck_of_valid hlo hhi, phase_ok,
    phase_pure, State.settle_ok]

end

/-- An accepted cell completes the instruction, which writes nothing but IP. -/
theorem State.finishOut_of_done (s : State) :
    s.completes (s.finishOut true) 1 ∧ s.setsRegs (s.finishOut true) 2 [] ∧ s.keepsMemory (s.finishOut true) :=
  ⟨s.commit_completes _ _ 1, s.commit_setsRegs 2 [] _ 1, s.commit_keepsMemory _ 1⟩

/-- Settles O54: the port check, then the answer of the transaction, of which registers and memory are no part. -/
theorem outDeliversWaitsOrFaults : Obligations.OutDeliversWaitsOrFaults := by
  refine ⟨fun a0 a1 => ⟨rfl, operandFaults_of_readSources rfl (exec_outPort a0 a1)⟩,
    fun s a0 a1 p v h0 h1 => ⟨outPort_raises_of_invalid h0 h1, fun hlo hhi => ?valid⟩⟩
  rw [exec_outPort_of_valid h0 h1 hlo hhi]
  refine ⟨?disk, fun hne => ⟨fun rest hans => ?notReady, fun rest hans => ?done⟩⟩
  case disk =>
    intro hp
    rw [toNat_eq_diskPort_iff.2 hp, State.portWrite_disk]
    rfl
  case notReady =>
    rw [State.portWrite_of_notReady (mt toNat_eq_diskPort_iff.1 hne) hans]
    rfl
  case done =>
    rw [State.portWrite_of_done (mt toNat_eq_diskPort_iff.1 hne) hans]
    exact ⟨_, rfl, State.finishOut_of_done _⟩

end Sys2Proof.Machine
end

section
/-! The seven comparisons (spec/47_cmp_mov.md R125 to R132): two sources read, then FLAGS committed, so that each
follows from the cell its comparison gives; the integer ones compare a view of the cells, CMP.F32 their values, with
each infinity beyond every finite float. -/

namespace Sys2Proof.Machine

/-! ## The body every CMP shares -/

theorem State.compare_eq (s : State) (g : Cell → Cell → Cell) (a0 a1 : Operand) :
    s.compare g a0 a1 = s.settle (s.readSources 2 a0 a1 >>= fun r =>
      pure (s.commit ((s.fetched 2).setAll [(.flags, g r.1 r.2)]) s.mem 1)) := by
  simp only [State.readSources, bind_assoc, pure_bind]
  rfl

/-- With its sources read, a CMP commits FLAGS alone. -/
theorem State.compare_of_reads {s : State} {a0 a1 : Operand} {p q : Cell} (g : Cell → Cell → Cell)
    (h0 : s.reads 2 a0 p) (h1 : s.reads 2 a1 q) :
    s.compare g a0 a1 = s.commit ((s.fetched 2).setAll [(.flags, g p q)]) s.mem 1 := by
  rw [State.compare_eq, State.readSources_of_reads h0 h1, phase_ok, phase_pure, State.settle_ok]

/-- `r` is `E + 2 G` for a pair found equal where `eq` holds and with the first greater where `gt` does (R125). -/
def flagsFor (eq gt : Prop) (r : Cell) : Prop :=
  (eq → r = 1) ∧ (gt → r = 2) ∧ (¬ eq → ¬ gt → r = 0)

/-- The CMPs differ only in their subtype and their comparison `g`. -/
theorem compareRule_of_compare {i : Operand → Operand → Instr} {sub : Byte} {eq gt : Cell → Cell → Prop}
    (g : Cell → Cell → Cell) (hspec : ∀ p q, flagsFor (eq p q) (gt p q) (g p q))
    (hencode : ∀ a0 a1, encode (i a0 a1) = instrCells 0x0E sub [a0, a1] := by intros; rfl)
    (hargs : ∀ a0 a1, (i a0 a1).args = [(.src, a0), (.src, a1)] := by intros; rfl)
    (hexec : ∀ a0 a1 s, exec (i a0 a1) s = .next (s.compare g a0 a1) := by intros; rfl) :
    CompareRule i sub eq gt := by
  refine ⟨fun a0 a1 => ⟨hencode a0 a1, ?faults⟩, fun s a0 a1 p q h0 h1 => ?sets⟩
  case faults =>
    exact operandFaults_of_readSources (hargs a0 a1) fun s =>
      (hexec a0 a1 s).trans (congrArg _ (s.compare_eq g a0 a1))
  case sets =>
    have hsets {r : Cell} (hr : g p q = r) : s.setsOnly (i a0 a1) 2 1 [(.flags, r)] := by
      apply State.setsOnly_of_commit
      rw [hexec, State.compare_of_reads g h0 h1, hr]
    obtain ⟨heq, hgt, hneither⟩ := hspec p q
    exact ⟨fun h => hsets (heq h), fun h => hsets (hgt h), fun hne hle => hsets (hneither hne hle)⟩

/-- Comparing two numbers sets the flags of any pair that their order decides. -/
theorem flagsFor_compareInts {eq gt : Prop} {x y : Int} (heq : eq ↔ x = y) (hgt : gt ↔ y < x) :
    flagsFor eq gt (compareInts x y) := by
  rw [flagsFor, heq, hgt]
  rcases lt_trichotomy x y with hlt | rfl | hlt
  · simp [compareInts, flagsCell, hlt.ne, hlt.not_gt]
  · simp [compareInts, flagsCell]
  · simp [compareInts, flagsCell, hlt.ne', hlt]

/-! ## Integers (R126 to R131) -/

theorem lowSigned_eq_setWidth {W : Nat} (hW : W ≤ 32) (v : Cell) : lowSigned W v = (v.setWidth W).toInt := by
  rw [lowSigned, BitVec.setWidth_eq_extractLsb' hW]

theorem lowSigned_full (v : Cell) : lowSigned 32 v = v.toInt := by
  rw [lowSigned_eq_setWidth le_rfl, BitVec.setWidth_eq]

theorem lowUnsigned_eq_mod (W : Nat) (v : Cell) : lowUnsigned W v = (v.toNat % 2 ^ W : Nat) := by
  rw [lowUnsigned, BitVec.extractLsb'_toNat, Nat.shiftRight_zero]

theorem lowUnsigned_full (v : Cell) : lowUnsigned 32 v = v.toNat := by
  rw [lowUnsigned_eq_mod, Nat.mod_eq_of_lt v.isLt]

theorem flagsFor_compareSigned {W : Nat} {view : Cell → Int} (hview : ∀ v, lowSigned W v = view v) (p q : Cell) :
    flagsFor (view p = view q) (view q < view p) (compareSigned W p q) := by
  rw [compareSigned, hview, hview]
  exact flagsFor_compareInts Iff.rfl Iff.rfl

theorem flagsFor_compareUnsigned {W : Nat} {view : Cell → Nat} (hview : ∀ v, lowUnsigned W v = view v) (p q : Cell) :
    flagsFor (view p = view q) (view q < view p) (compareUnsigned W p q) := by
  rw [compareUnsigned, hview, hview]
  exact flagsFor_compareInts Int.natCast_inj.symm Int.ofNat_lt.symm

/-- Settles O56: one rule for the six, each with the number its width and signedness make of a cell. -/
theorem integerComparisonsSetFlags : Obligations.IntegerComparisonsSetFlags := by
  refine ⟨?i32, ?i16, ?i8, ?u32, ?u16, ?u8⟩
  case i32 => exact compareRule_of_compare _ (flagsFor_compareSigned lowSigned_full)
  case i16 => exact compareRule_of_compare _ (flagsFor_compareSigned (lowSigned_eq_setWidth (by decide)))
  case i8 => exact compareRule_of_compare _ (flagsFor_compareSigned (lowSigned_eq_setWidth (by decide)))
  case u32 => exact compareRule_of_compare _ (flagsFor_compareUnsigned lowUnsigned_full)
  case u16 => exact compareRule_of_compare _ (flagsFor_compareUnsigned (lowUnsigned_eq_mod 16))
  case u8 => exact compareRule_of_compare _ (flagsFor_compareUnsigned (lowUnsigned_eq_mod 8))

/-! ## Floats (R132) -/

/-- The magnitude of an infinity, in the units of a finite one. -/
def infUnits : Int := magBits infBits

theorem infUnits_pos : 0 < infUnits := by
  have h : magBits 0 < magBits infBits := magBits_strictMono (by decide)
  exact Int.natCast_pos.2 (Nat.zero_lt_of_lt h)

section
variable {v p q : Cell}

/-- Every finite float lies strictly between the infinities. -/
theorem floatUnits_bounds_of_finite (h : isFinite v) : -infUnits < floatUnits v ∧ floatUnits v < infUnits := by
  have hmag : (floatMag v : Int) < infUnits := by
    rw [floatMag_eq]
    exact Int.ofNat_lt.2 (magBits_strictMono (bits_lt_of_finite h))
  rw [floatUnits]
  split <;> omega

theorem floatUnits_of_isInf (h : isInf v = true) : floatUnits v = if signBit v then -infUnits else infUnits := by
  have hmag : (floatMag v : Int) = infUnits := by
    obtain ⟨hexp, hfrac⟩ := isInf_iff.1 h
    rw [floatMag, hexp, hfrac]
    rfl
  rw [floatUnits, hmag]

theorem isNaN_eq_false_iff : isNaN v = false ↔ isFinite v ∨ isInf v = true := by
  refine ⟨fun h => ?_, fun h => h.elim isNaN_of_finite isNaN_of_isInf⟩
  by_cases hexp : expField v = 255
  · exact .inr (by simpa [isInf, isNaN, hexp] using h)
  · exact .inl hexp

theorem not_isFinite_of_isInf (h : isInf v = true) : ¬ isFinite v := not_not.2 (isInf_iff.1 h).1

end

/-- The two floats are the same finite value or the same infinity. -/
def floatsEqual (p q : Cell) : Prop :=
  (isFinite p ∧ isFinite q ∧ floatUnits p = floatUnits q) ∨ (isInf p ∧ isInf q ∧ signBit p = signBit q)

/-- The first float is the greater one: by value, or by the side an infinity is on. -/
def floatGreater (p q : Cell) : Prop :=
  (isFinite p ∧ isFinite q ∧ floatUnits q < floatUnits p) ∨
    (isInf p ∧ isInf q ∧ signBit p = false ∧ signBit q = true) ∨
    (isInf p ∧ isFinite q ∧ signBit p = false) ∨ (isFinite p ∧ isInf q ∧ signBit q = true)

section
variable {p q : Cell}

/-- No NaN is equal to a float or greater or less than one. -/
theorem isNaN_eq_false_of_ordered (h : floatsEqual p q ∨ floatGreater p q) : isNaN p = false ∧ isNaN q = false := by
  rw [isNaN_eq_false_iff, isNaN_eq_false_iff]
  unfold floatsEqual floatGreater at h
  tauto

/-- Of two floats that are no NaNs, infinities included, the units decide. -/
theorem floatOrder_iff_of_ordered (hp : isNaN p = false) (hq : isNaN q = false) :
    (floatsEqual p q ↔ floatUnits p = floatUnits q) ∧ (floatGreater p q ↔ floatUnits q < floatUnits p) := by
  have hpos := infUnits_pos
  rcases isNaN_eq_false_iff.1 hp with hp | hp <;> rcases isNaN_eq_false_iff.1 hq with hq | hq
  case inl.inl => simp [floatsEqual, floatGreater, hp, hq, isInf_of_finite]
  case inl.inr =>
    obtain ⟨hlo, hhi⟩ := floatUnits_bounds_of_finite hp
    simp only [floatsEqual, floatGreater, hq, isInf_of_finite hp, not_isFinite_of_isInf hq, floatUnits_of_isInf hq]
    cases signBit q <;> simp <;> omega
  case inr.inl =>
    obtain ⟨hlo, hhi⟩ := floatUnits_bounds_of_finite hq
    simp only [floatsEqual, floatGreater, hp, isInf_of_finite hq, not_isFinite_of_isInf hp, floatUnits_of_isInf hp]
    cases signBit p <;> simp <;> omega
  case inr.inr =>
    simp only [floatsEqual, floatGreater, hp, hq, not_isFinite_of_isInf hp, not_isFinite_of_isInf hq,
      floatUnits_of_isInf hp, floatUnits_of_isInf hq]
    cases signBit p <;> cases signBit q <;> simp <;> omega

theorem compareFloats_of_nan (h : isNaN p = true ∨ isNaN q = true) : compareFloats p q = 0 := by
  rw [compareFloats, if_pos (Bool.or_eq_true_iff.2 h)]
  rfl

theorem compareFloats_of_ordered (hp : isNaN p = false) (hq : isNaN q = false) :
    compareFloats p q = compareInts (floatUnits p) (floatUnits q) := by
  rw [compareFloats, hp, hq, Bool.or_false, if_neg Bool.false_ne_true]

end

theorem flagsFor_compareFloats (p q : Cell) : flagsFor (floatsEqual p q) (floatGreater p q) (compareFloats p q) := by
  by_cases hnan : isNaN p = true ∨ isNaN q = true
  case pos =>
    have hunordered : ¬ (floatsEqual p q ∨ floatGreater p q) := fun h => by
      obtain ⟨hp, hq⟩ := isNaN_eq_false_of_ordered h
      simp [hp, hq] at hnan
    obtain ⟨hne, hle⟩ := not_or.1 hunordered
    exact ⟨fun h => absurd h hne, fun h => absurd h hle, fun _ _ => compareFloats_of_nan hnan⟩
  case neg =>
    obtain ⟨hp, hq⟩ := not_or.1 hnan
    rw [Bool.not_eq_true] at hp hq
    obtain ⟨heq, hgt⟩ := floatOrder_iff_of_ordered hp hq
    rw [compareFloats_of_ordered hp hq]
    exact flagsFor_compareInts heq hgt

/-- Settles O57: with a NaN neither clause holds; without one the order of the units is that of the values, infinities
included. -/
theorem floatComparisonSetsFlags : Obligations.FloatComparisonSetsFlags :=
  compareRule_of_compare compareFloats flagsFor_compareFloats

end Sys2Proof.Machine
end

section
/-! MOV (spec/47_cmp_mov.md R133). -/

namespace Sys2Proof.Machine

/-- MOV has the phases of a UNOP, of which the operation is the identity. -/
theorem exec_mov (a0 a1 : Operand) (s : State) : exec (.mov a0 a1) s = .next (s.unary 1 id a0 a1) := rfl

/-- Settles O58: the destination located and the source read, MOV is the write of the cell itself. -/
theorem movCopiesTheCell : Obligations.MovCopiesTheCell := by
  refine ⟨fun a0 a1 => ⟨rfl, ?faults⟩, fun s a0 a1 L v h0 h1 => ?yields⟩
  case faults =>
    exact operandFaults_of_dstLoc_readSource rfl fun s =>
      (exec_mov a0 a1 s).trans (congrArg _ (s.unary_eq 1 id a0 a1))
  case yields =>
    apply State.yields_of_settle
    rw [exec_mov, State.unary_of_resolved 1 id h0 h1, id_eq, Regs.setAll_nil]

end Sys2Proof.Machine
end

section
/-! `reset(entry)` (spec/70_reset_and_hazards.md R149). -/

namespace Sys2Proof.Machine

/-- `reset` touches no port, delivers no event and keeps the parameters (70_reset_and_hazards.md R149). -/
theorem State.hostReset_sameHost (s : State) (entry : Cell) : s.sameHost (s.hostReset entry) := by
  simp [State.sameHost]

/-- Settles O26: the register file `reset` leaves, read one register at a time; the rest is what it keeps. -/
theorem hostResetSetsEveryRegister : Obligations.HostResetSetsEveryRegister := by
  intro s entry
  refine ⟨fun r => ?register, s.hostReset_run entry, s.hostReset_mem entry, s.hostReset_sameHost entry⟩
  case register =>
    rw [State.hostReset_regs]
    cases r <;> rfl

end Sys2Proof.Machine
end

section
/-! Decoding an encoding, and encoding what was decoded (spec/30_encoding.md R45 to R49, R57): the two directions of the
round trip, and exactly which cells the decoder rejects. -/

namespace Sys2Proof

open Sys2Proof.Laws

/-! ## From an instruction to its cells and back -/

/-- Every instruction is a row of the opcode map. -/
theorem encodedForm (i : Instr) : EncodedForm.Statement i := by
  cases i with
  | nop => exact EncodedForm.nop
  | halt => exact EncodedForm.halt
  | push a0 => exact EncodedForm.push a0
  | pop a0 => exact EncodedForm.pop a0
  | jmp a0 => exact EncodedForm.jmp a0
  | jmpcEq a0 => exact EncodedForm.jmpcEq a0
  | jmpcNe a0 => exact EncodedForm.jmpcNe a0
  | jmpcGt a0 => exact EncodedForm.jmpcGt a0
  | jmpcLt a0 => exact EncodedForm.jmpcLt a0
  | jmpcGe a0 => exact EncodedForm.jmpcGe a0
  | jmpcLe a0 => exact EncodedForm.jmpcLe a0
  | call a0 => exact EncodedForm.call a0
  | ret a0 a1 => exact EncodedForm.ret a0 a1
  | enter a0 => exact EncodedForm.enter a0
  | leave => exact EncodedForm.leave
  | add a0 a1 a2 => exact EncodedForm.add a0 a1 a2
  | sub a0 a1 a2 => exact EncodedForm.sub a0 a1 a2
  | mul a0 a1 a2 => exact EncodedForm.mul a0 a1 a2
  | div a0 a1 a2 => exact EncodedForm.div a0 a1 a2
  | mod a0 a1 a2 => exact EncodedForm.mod a0 a1 a2
  | udiv a0 a1 a2 => exact EncodedForm.udiv a0 a1 a2
  | umod a0 a1 a2 => exact EncodedForm.umod a0 a1 a2
  | and a0 a1 a2 => exact EncodedForm.and a0 a1 a2
  | or a0 a1 a2 => exact EncodedForm.or a0 a1 a2
  | xor a0 a1 a2 => exact EncodedForm.xor a0 a1 a2
  | shl a0 a1 a2 => exact EncodedForm.shl a0 a1 a2
  | shr a0 a1 a2 => exact EncodedForm.shr a0 a1 a2
  | sar a0 a1 a2 => exact EncodedForm.sar a0 a1 a2
  | fadd a0 a1 a2 => exact EncodedForm.fadd a0 a1 a2
  | fsub a0 a1 a2 => exact EncodedForm.fsub a0 a1 a2
  | fmul a0 a1 a2 => exact EncodedForm.fmul a0 a1 a2
  | fdiv a0 a1 a2 => exact EncodedForm.fdiv a0 a1 a2
  | neg a0 a1 => exact EncodedForm.neg a0 a1
  | not a0 a1 => exact EncodedForm.not a0 a1
  | fneg a0 a1 => exact EncodedForm.fneg a0 a1
  | fabs a0 a1 => exact EncodedForm.fabs a0 a1
  | fsqrt a0 a1 => exact EncodedForm.fsqrt a0 a1
  | fsin a0 a1 => exact EncodedForm.fsin a0 a1
  | fcos a0 a1 => exact EncodedForm.fcos a0 a1
  | itof a0 a1 => exact EncodedForm.itof a0 a1
  | ftoi a0 a1 => exact EncodedForm.ftoi a0 a1
  | inPort a0 a1 => exact EncodedForm.inPort a0 a1
  | outPort a0 a1 => exact EncodedForm.outPort a0 a1
  | cmpI32 a0 a1 => exact EncodedForm.cmpI32 a0 a1
  | cmpI16 a0 a1 => exact EncodedForm.cmpI16 a0 a1
  | cmpI8 a0 a1 => exact EncodedForm.cmpI8 a0 a1
  | cmpU32 a0 a1 => exact EncodedForm.cmpU32 a0 a1
  | cmpU16 a0 a1 => exact EncodedForm.cmpU16 a0 a1
  | cmpU8 a0 a1 => exact EncodedForm.cmpU8 a0 a1
  | cmpF32 a0 a1 => exact EncodedForm.cmpF32 a0 a1
  | mov a0 a1 => exact EncodedForm.mov a0 a1
  | sect => exact EncodedForm.sect

/-- An argument word that stands in its place is read back as its operand. -/
theorem operandOf_tagAt_word {args : List Operand} (rest : List Cell) {k : Nat} (hk : k < args.length) :
    operandOf (tagAt args k) ((args.map Operand.word ++ rest).getD k 0) = args.getD k (.imm 0) := by
  have hword : (args.map Operand.word ++ rest).getD k 0 = args[k].word := by
    rw [List.getD_append _ _ _ _ (by simpa using hk), List.getD_eq_getElem _ _ (by simpa using hk), List.getElem_map]
  rw [hword, tagAt, List.getD_eq_getElem _ _ hk, operandOf_tag_word]

/-- Settles O1: every instruction is a row of the opcode map, whose fields the decoder reads back from the cells. -/
theorem decodeOfEncodeIsIdentity : Obligations.DecodeOfEncodeIsIdentity := by
  intro i rest
  obtain ⟨op, sub, args, hencode, hargc, hrow⟩ := encodedForm i
  rw [hencode, instrCells_eq, List.cons_append]
  refine Machine.decode_eq_ok.2 ⟨_, _, args.length, rfl, by rw [opField_headCell, hargc], by simp, by simp, ?_⟩
  rw [decodeCell, opField_headCell, subField_headCell, tagField_headCell_zero, tagField_headCell_one,
    tagField_headCell_two]
  refine hrow _ _ _ fun k hk => ?_
  rw [← operandOf_tagAt_word rest hk]
  have hle : args.length ≤ 3 := argc_le_three hargc
  obtain rfl | rfl | rfl : k = 0 ∨ k = 1 ∨ k = 2 := by omega
  all_goals rfl

/-! ## What the opcode map rejects -/

/-- A byte is known by its number. -/
theorem eq_ofNat_of_toNat_eq {b : Byte} {k : Nat} (h : b.toNat = k) : b = BitVec.ofNat 8 k := by
  rw [← h, BitVec.ofNat_toNat, BitVec.setWidth_eq]

/-- The opcodes without a row are those above `0x10` (30_encoding.md R49). -/
theorem argc_eq_none_iff {op : Byte} : argc op = none ↔ 0x10 < op.toNat := by
  revert op; decide

/-- The subtype is outside its opcode's space (30_encoding.md R57, R58 c). -/
def badSubtype (op sub : Byte) : Prop :=
  (op = 0x05 ∧ 0x05 < sub.toNat) ∨ (op = 0x0A ∧ 0x10 < sub.toNat) ∨ (op = 0x0B ∧ 0x08 < sub.toNat) ∨
    (op = 0x0E ∧ sub.toNat ∉ [0x00, 0x01, 0x02, 0x04, 0x05, 0x06, 0x08])

/-- A subtype outside its space belongs to an opcode that has a row. -/
theorem badSubtype.argc_ne_none {op sub : Byte} (h : badSubtype op sub) : argc op ≠ none := by
  rcases h with ⟨rfl, -⟩ | ⟨rfl, -⟩ | ⟨rfl, -⟩ | ⟨rfl, -⟩ <;> decide

section
variable {sub : Byte} {r : Reject} {o0 o1 o2 : Operand}

theorem jmpcOf_eq_error : jmpcOf sub o0 = .error r ↔ r = .invalidSubtype ∧ 0x05 < sub.toNat := by
  unfold jmpcOf
  split
  case h_7 =>
    have hbad : 0x05 < sub.toNat := by grind
    simp [hbad, eq_comm]
  all_goals simp [*]

theorem binopOf_eq_error : binopOf sub o0 o1 o2 = .error r ↔ r = .invalidSubtype ∧ 0x10 < sub.toNat := by
  unfold binopOf
  split
  case h_18 =>
    have hbad : 0x10 < sub.toNat := by grind
    simp [hbad, eq_comm]
  all_goals simp [*]

theorem unopOf_eq_error : unopOf sub o0 o1 = .error r ↔ r = .invalidSubtype ∧ 0x08 < sub.toNat := by
  unfold unopOf
  split
  case h_10 =>
    have hbad : 0x08 < sub.toNat := by grind
    simp [hbad, eq_comm]
  all_goals simp [*]

theorem cmpOf_eq_error : cmpOf sub o0 o1 = .error r ↔
    r = .invalidSubtype ∧ sub.toNat ∉ [0x00, 0x01, 0x02, 0x04, 0x05, 0x06, 0x08] := by
  unfold cmpOf
  split
  case h_8 =>
    have hbad : sub.toNat ∉ [0x00, 0x01, 0x02, 0x04, 0x05, 0x06, 0x08] := by simp_all
    simp only [hbad, Except.error.injEq, not_false_eq_true, and_true, eq_comm]
  all_goals simp [*]

/-- The opcode map rejects in two ways: an opcode without a row, or a subtype outside its opcode's space. -/
theorem instrOf_eq_error {op : Byte} : instrOf op sub o0 o1 o2 = .error r ↔
    (r = .illegalOpcode ∧ 0x10 < op.toNat) ∨ (r = .invalidSubtype ∧ badSubtype op sub) := by
  unfold instrOf
  split
  case h_18 =>
    have hillegal : 0x10 < op.toNat := by grind
    have hno : ¬ badSubtype op sub := fun h => h.argc_ne_none (argc_eq_none_iff.2 hillegal)
    simp [hillegal, hno, eq_comm]
  all_goals
    rename_i hop
    obtain rfl := eq_ofNat_of_toNat_eq hop
  case h_6 => simp [badSubtype, jmpcOf_eq_error]
  case h_11 => simp [badSubtype, binopOf_eq_error]
  case h_12 => simp [badSubtype, unopOf_eq_error]
  case h_15 => simp [badSubtype, cmpOf_eq_error]
  all_goals simp [badSubtype]

end

/-! ## What the decoder rejects -/

section
variable {w : Cell} {as : List Cell}

theorem decode_of_illegal (h : 0x10 < (opField w).toNat) : decode (w :: as) = .error .illegalOpcode := by
  simp only [decode, argc_eq_none_iff.2 h]

theorem decode_of_truncated {n : Nat} (hn : argc (opField w) = some n) (hlen : as.length < n) :
    decode (w :: as) = .error .truncated := by
  simp only [decode, hn, hlen, if_true]

/-- With its argument words at hand, a cell is rejected by the opcode map or not at all. -/
theorem decode_eq_error_of_present {n : Nat} {r : Reject} (hn : argc (opField w) = some n) (hlen : n ≤ as.length) :
    decode (w :: as) = .error r ↔ r = .invalidSubtype ∧ badSubtype (opField w) (subField w) := by
  have hlegal : ¬ 0x10 < (opField w).toNat := by simp [← argc_eq_none_iff, hn]
  have hcell := instrOf_eq_error (op := opField w) (sub := subField w) (r := r)
    (o0 := operandOf (tagField w 0) (as.getD 0 0)) (o1 := operandOf (tagField w 1) (as.getD 1 0))
    (o2 := operandOf (tagField w 2) (as.getD 2 0))
  rw [or_iff_right (fun h => hlegal h.2)] at hcell
  rw [← hcell]
  simp only [decode, hn, Nat.not_lt.2 hlen, if_false, decodeCell]
  split
  · next i hi => simp only [hi, reduceCtorEq]
  · next r' hr => simp only [hr, Except.error.injEq]

theorem decode_illegalOpcode_iff : decode (w :: as) = .error .illegalOpcode ↔ 0x10 < (opField w).toNat := by
  refine ⟨fun h => ?_, decode_of_illegal⟩
  rcases hn : argc (opField w) with _ | n
  · exact argc_eq_none_iff.1 hn
  · rcases Nat.lt_or_ge as.length n with hlt | hge
    · simp [decode_of_truncated hn hlt] at h
    · simp [decode_eq_error_of_present hn hge] at h

end

/-- Settles O3: a cell without a row is rejected first; with a row and its argument words, the opcode map decides by
the subtype. -/
theorem decodeRejectsExactlyTheIllegal : Obligations.DecodeRejectsExactlyTheIllegal := by
  refine ⟨fun w as => decode_illegalOpcode_iff, fun w as hlen => ?_⟩
  rcases hn : argc (opField w) with _ | n
  · have hillegal := decode_of_illegal (as := as) (argc_eq_none_iff.1 hn)
    refine ⟨⟨fun h => ?_, fun h => absurd hn (badSubtype.argc_ne_none h)⟩, by simp [hillegal]⟩
    simp [hillegal] at h
  · have hle : n ≤ as.length := (argc_le_three hn).trans hlen
    refine ⟨?_, by simp [decode_eq_error_of_present hn hle]⟩
    rw [decode_eq_error_of_present hn hle, and_iff_right rfl]
    rfl

/-! ## From an instruction the map gives to its encoding -/

section
variable {sub : Byte} {o0 o1 o2 : Operand} {i : Instr}

theorem encode_of_jmpcOf (h : jmpcOf sub o0 = .ok i) : encode i = instrCells 0x05 sub [o0] := by
  unfold jmpcOf at h
  split at h <;> cases h <;> rename_i hsub
  all_goals exact congrArg (instrCells 0x05 · [o0]) (BitVec.eq_of_toNat_eq hsub).symm

theorem encode_of_binopOf (h : binopOf sub o0 o1 o2 = .ok i) : encode i = instrCells 0x0A sub [o0, o1, o2] := by
  unfold binopOf at h
  split at h <;> cases h <;> rename_i hsub
  all_goals exact congrArg (instrCells 0x0A · [o0, o1, o2]) (BitVec.eq_of_toNat_eq hsub).symm

theorem encode_of_unopOf (h : unopOf sub o0 o1 = .ok i) : encode i = instrCells 0x0B sub [o0, o1] := by
  unfold unopOf at h
  split at h <;> cases h <;> rename_i hsub
  all_goals exact congrArg (instrCells 0x0B · [o0, o1]) (BitVec.eq_of_toNat_eq hsub).symm

theorem encode_of_cmpOf (h : cmpOf sub o0 o1 = .ok i) : encode i = instrCells 0x0E sub [o0, o1] := by
  unfold cmpOf at h
  split at h <;> cases h <;> rename_i hsub
  all_goals exact congrArg (instrCells 0x0E · [o0, o1]) (BitVec.eq_of_toNat_eq hsub).symm

/-- The encoding of an instruction that the opcode map gave has the opcode, the subtype where one is read, and the
operands it was given. -/
theorem encode_of_instrOf {op : Byte} {n : Nat} (h : instrOf op sub o0 o1 o2 = .ok i) (hn : argc op = some n) :
    encode i = instrCells op (if op ∈ ([0x05, 0x0A, 0x0B, 0x0E] : List Byte) then sub else 0)
      ([o0, o1, o2].take n) := by
  unfold instrOf at h
  split at h
  case h_18 => cases h
  all_goals
    rename_i hop
    obtain rfl := eq_ofNat_of_toNat_eq hop
    obtain rfl := Option.some.inj hn
  case h_6 => exact encode_of_jmpcOf h
  case h_11 => exact encode_of_binopOf h
  case h_12 => exact encode_of_unopOf h
  case h_15 => exact encode_of_cmpOf h
  all_goals
    cases h
    rfl

end

@[simp] theorem tag_operandOf (t : BitVec 2) (a : Cell) : (operandOf t a).tag = t := by
  have hcases : ∀ t : BitVec 2, t = 0 ∨ t = 1 ∨ t = 2 ∨ t = 3 := by decide
  obtain rfl | rfl | rfl | rfl := hcases t <;> rfl

/-- Packing an operand again keeps every bit its tag reads. -/
@[simp] theorem operandOf_word_operandOf (t : BitVec 2) (a : Cell) :
    operandOf t (operandOf t a).word = operandOf t a := by
  have h := operandOf_tag_word (operandOf t a)
  rwa [tag_operandOf] at h

/-- The tag of each argument in the instruction cell of an encoding. -/
theorem tagField_headCell {op sub : Byte} {args : List Operand} {k : Nat} (hk : k < 3) :
    tagField (headCell op sub (tagAt args 2) (tagAt args 1) (tagAt args 0)) k = tagAt args k := by
  obtain rfl | rfl | rfl : k = 0 ∨ k = 1 ∨ k = 2 := by omega
  · exact tagField_headCell_zero ..
  · exact tagField_headCell_one ..
  · exact tagField_headCell_two ..

/-- The operands that the argument words `as` of the instruction cell `w` are read as. -/
def operandsOf (w : Cell) (as : List Cell) : List Operand :=
  (List.range 3).map fun k => operandOf (tagField w k) (as.getD k 0)

theorem getD_take_operandsOf (w : Cell) (as : List Cell) {n k : Nat} (hk : k < n) (hn : n ≤ 3) :
    ((operandsOf w as).take n).getD k (.imm 0) = operandOf (tagField w k) (as.getD k 0) := by
  have hlt : k < ((operandsOf w as).take n).length := by simp [operandsOf]; omega
  rw [List.getD_eq_getElem _ _ hlt, List.getElem_take]
  simp only [operandsOf, List.getElem_map, List.getElem_range]

/-- Settles O4: the decoded instruction came from a row of the opcode map, and its encoding is that row's, each operand
packed again under its own tag. -/
theorem reencodingKeepsEveryReadBit : Obligations.ReencodingKeepsEveryReadBit := by
  intro w as rest i h
  obtain ⟨w, as, n, ⟨⟩, hn, hle, rfl, hcell⟩ := Machine.decode_eq_ok.1 h
  have hn3 : n ≤ 3 := argc_le_three hn
  have hencode : encode i = instrCells (opField w) _ ((operandsOf w as).take n) := encode_of_instrOf hcell hn
  have hlen : (((operandsOf w as).take n).map Operand.word).length = n := by simp [operandsOf]; omega
  rw [instrCells_eq] at hencode
  refine ⟨_, _, hencode, opField_headCell .., ?_, ?_, ?_, ?_, subField_headCell ..⟩
  all_goals rw [hlen]
  · exact hn
  · exact hn3
  · exact (List.take_append_drop n as).symm
  · intro k hk
    have hoperand := getD_take_operandsOf w as hk hn3
    have hword : (((operandsOf w as).take n).map Operand.word).getD k 0 =
        (operandOf (tagField w k) (as.getD k 0)).word := by
      rw [← hoperand]
      exact List.getD_map _ (.imm 0) Operand.word
    rw [tagField_headCell (hk.trans_le hn3), tagAt, hoperand, hword, tag_operandOf, operandOf_word_operandOf]
    exact ⟨rfl, rfl⟩

/-- Settles O5: the decoder run on the eight words. -/
theorem specWordsDecode : Obligations.SpecWordsDecode := by
  refine ⟨?pop, ?jmpc, ?ret, ?div, ?fsqrt, ?out, ?cmp, ?mov⟩
  all_goals rfl

end Sys2Proof
end

section
/-! The register file (spec/10_state.md R11, R20), the Data Provider (spec/20_memory.md R30, R31) and the host's load
(spec/70_reset_and_hazards.md R151). -/

namespace Sys2Proof.Machine

/-- Settles O22: the twelve numbers one by one, then read after write. -/
theorem registerFileHasTwelveCells : Obligations.RegisterFileHasTwelveCells := by
  refine ⟨?numbers, fun b => (regOf_eq_none_iff b).2, fun x r r' v => Regs.get_set x r r' v⟩
  case numbers => decide

/-- The Data Provider fails a write exactly where it does not accept one. -/
theorem State.setValue_eq_none_iff (s : State) (a v : Cell) : s.setValue a v = none ↔ ¬ s.acceptsAt a := by
  rw [Option.eq_none_iff_forall_ne_some, ← not_exists]
  exact not_congr (s.setValue_isSome_iff a v)

/-- Settles O24: when an access fails, and what a write that succeeds stores. -/
theorem memoryReadsTheLatestWrite : Obligations.MemoryReadsTheLatestWrite :=
  fun s a v => ⟨s.getValue_eq_none_iff a, s.setValue_eq_none_iff a v, fun _ hm =>
    State.stores_of_setValue hm rfl rfl⟩

/-- A backed cell reads what memory holds at its address. -/
theorem State.getValue_of_lt {s : State} {a : Cell} (h : a.toNat < s.params.memSize) :
    s.getValue a = some (s.mem.read a.toNat) := if_pos h

/-- Two states with as much memory read alike at an address where their memories do. -/
theorem State.getValue_eq_of_read_eq {s t : State} {a : Cell} (hsize : t.params.memSize = s.params.memSize)
    (hread : t.mem.read a.toNat = s.mem.read a.toNat) : t.getValue a = s.getValue a := by
  simp only [State.getValue, hsize, hread]

/-- Settles O25: the words of a load have distinct addresses, so each stands where it was put, and no other cell was
written. -/
theorem hostLoadPlacesTheWords : Obligations.HostLoadPlacesTheWords := by
  intro s code hlen
  refine ⟨fun i v hv hbacked => ?word, fun a ha => ?frame, rfl, rfl, by simp [State.sameHost]⟩
  case word =>
    obtain ⟨hi, rfl⟩ := List.getElem?_eq_some_iff.1 hv
    rw [State.getValue_of_lt (s := s.hostLoad code) hbacked, State.hostLoad_mem, Memory.read_load _ _ _ hlen hi]
  case frame =>
    refine State.getValue_eq_of_read_eq rfl (Memory.read_load_of_ne _ _ _ fun k hk => ?_)
    exact fun heq => ha k hk (BitVec.eq_of_toNat_eq heq)

/-- Settles O15: nothing is listed in memory, and the sizes and costs are within their bounds. -/
theorem resetStateHasInv : Obligations.ResetStateHasInv := by
  refine ⟨State.reset_mem_wf, ?backed, ?bounds⟩
  case backed => simp [State.reset]
  case bounds => decide

/-- Settles O27: `reset` overwrites every register, and a new core is Halted. -/
theorem resetStateIsResetOfANewCore : Obligations.ResetStateIsResetOfANewCore :=
  ⟨State.reset_eq_hostReset_powerOn, fun _ _ _ budget => ⟨step_of_halted rfl, tick_of_halted budget rfl⟩⟩

end Sys2Proof.Machine
end

section
/-! Fetch and decode of one step (spec/30_encoding.md R63, 40_execution_cycle.md R67, R72): the step of a core that can
fetch its instruction, by what the hook and the decoder answer, and the faults of the one that cannot. -/

namespace Sys2Proof.Machine

section
variable {s : State} {w : Cell} {as : List Cell}

/-! ## Fetch -/

/-- Cells that can be read, as many as the opcode has, are what is fetched. -/
theorem State.fetch_of_cells (hcell : s.getValue s.pc = some w) (hargc : argc (opField w) = some as.length)
    (hwords : ∀ k < as.length, s.getValue (s.pc + 1 + BitVec.ofNat 32 k) = as[k]?) : s.fetch = .ok (w :: as) := by
  refine State.fetch_eq_ok.2 ⟨w, as.length, as, rfl, hcell, hargc, State.fetchArgs_eq_ok.2 ⟨rfl, fun k hk => ?_⟩⟩
  rw [hwords k hk, List.getElem?_eq_getElem hk]

theorem State.fetch_of_unbacked (h : s.getValue s.pc = none) : s.fetch = .error ⟨.segmentationFault, s.pc⟩ := by
  rw [State.fetch, State.memRead_of_unbacked h, phase_error]

theorem State.fetch_of_illegal (hcell : s.getValue s.pc = some w) (hop : 0x10 < (opField w).toNat) :
    s.fetch = .error ⟨.illegalInstruction, s.pc⟩ := by
  simp only [State.fetch, State.memRead_eq_ok.2 hcell, phase_ok, argc_eq_none_iff.2 hop]

/-- The first argument word that cannot be read ends the fetch of them. -/
theorem State.fetchArgs_of_unbacked {a : Cell} {n k : Nat} (hk : k < n)
    (hbefore : ∀ j < k, s.getValue (a + BitVec.ofNat 32 j) ≠ none)
    (hcell : s.getValue (a + BitVec.ofNat 32 k) = none) :
    s.fetchArgs a n = .error ⟨.segmentationFault, a + BitVec.ofNat 32 k⟩ := by
  induction n generalizing a k with
  | zero => exact absurd hk (Nat.not_lt_zero k)
  | succ n ih =>
    cases k with
    | zero =>
      rw [BitVec.add_zero] at hcell ⊢
      rw [State.fetchArgs, State.memRead_of_unbacked hcell, phase_error]
    | succ k =>
      obtain ⟨v, hv⟩ := Option.ne_none_iff_exists'.1 (hbefore 0 (Nat.succ_pos k))
      rw [BitVec.add_zero] at hv
      rw [Cell.add_succ] at hcell ⊢
      have hrest := ih (Nat.lt_of_succ_lt_succ hk)
        (fun j hj => Cell.add_succ a j ▸ hbefore (j + 1) (Nat.succ_lt_succ hj)) hcell
      rw [State.fetchArgs, State.memRead_eq_ok.2 hv, phase_ok, hrest, phase_error]

theorem State.fetch_of_unbacked_word {n k : Nat} (hcell : s.getValue s.pc = some w)
    (hargc : argc (opField w) = some n) (hk : k < n)
    (hbefore : ∀ j < k, s.getValue (s.pc + 1 + BitVec.ofNat 32 j) ≠ none)
    (hword : s.getValue (s.pc + 1 + BitVec.ofNat 32 k) = none) :
    s.fetch = .error ⟨.segmentationFault, s.pc + 1 + BitVec.ofNat 32 k⟩ := by
  simp only [State.fetch, State.memRead_eq_ok.2 hcell, phase_ok, hargc, State.fetchArgs_of_unbacked hk hbefore hword,
    phase_error]

/-! ## The step, by what fetch, the hook and the decoder answer -/

@[simp] theorem State.fetch_resume (s : State) : s.resume.fetch = s.fetch := State.fetch_congr rfl rfl rfl

/-- A step takes a fault of fetch as the core stood before the step: a raise overwrites the run state. -/
theorem step_of_fetch_error {e : ErrorEvent} (hrun : s.run ≠ .halted) (h : s.fetch = .error e) :
    step s = .next (s.raise e) := by
  have hfetch : s.resume.fetch = .error e := s.fetch_resume.trans h
  rw [step_of_not_halted hrun, stepInstr, hfetch]
  rfl

/-- The state an instruction is executed in: Running, one answer of the hook used up. -/
def State.started (s : State) : State := s.resume.asked

theorem State.started_eq (s : State) :
    s.started = { s with run := .running, pauseAnswers := s.pauseAnswers.tail } := rfl

theorem step_of_fetch_ok {cells : List Cell} (hrun : s.run ≠ .halted) (hfetch : s.fetch = .ok cells)
    (hpause : s.pauseAnswers.head? ≠ some true) : step s = s.started.dispatch cells := by
  have hresumed : s.resume.fetch = .ok cells := s.fetch_resume.trans hfetch
  rw [step_of_not_halted hrun]
  rcases stepInstr_cases s.resume with ⟨e, herr, -⟩ | ⟨cells', hok, ⟨htrue, -⟩ | ⟨-, hdispatch⟩⟩
  · simp [hresumed] at herr
  · exact absurd htrue hpause
  · obtain rfl : cells = cells' := by simpa [hresumed] using hok
    exact hdispatch

theorem step_of_pause {cells : List Cell} (hrun : s.run ≠ .halted) (hfetch : s.fetch = .ok cells)
    (hpause : s.pauseAnswers.head? = some true) : step s = .next s.started.pause := by
  have hresumed : s.resume.fetch = .ok cells := s.fetch_resume.trans hfetch
  rw [step_of_not_halted hrun]
  rcases stepInstr_cases s.resume with ⟨e, herr, -⟩ | ⟨cells', hok, ⟨-, hpaused⟩ | ⟨hfalse, -⟩⟩
  · simp [hresumed] at herr
  · exact hpaused
  · exact absurd hpause hfalse

end

/-! ## The statements -/

/-- Cells that decode with nothing left over are exactly those the opcode announces. -/
theorem argc_of_decode {w : Cell} {as : List Cell} {i : Instr} (h : decode (w :: as) = .ok (i, [])) :
    argc (opField w) = some as.length := by
  obtain ⟨_, _, n, ⟨⟩, hn, hle, hrest, -⟩ := decode_eq_ok.1 h
  have hge : as.length ≤ n := List.drop_eq_nil_iff.1 hrest.symm
  rw [hn, le_antisymm hle hge]

/-- Settles O6: fetched and decoded, the instruction is what the step dispatches. -/
theorem stepRunsTheDecodedInstruction : Obligations.StepRunsTheDecodedInstruction := by
  intro s w as i hrun hpause hcell hwords hdec
  have hfetch := State.fetch_of_cells hcell (argc_of_decode hdec) hwords
  rw [step_of_fetch_ok hrun hfetch hpause, State.dispatch_of_decode hdec, State.started_eq]

/-- Settles O9: the hook is asked after fetch and before anything is executed. -/
theorem pausedStepOnlyWaits : Obligations.PausedStepOnlyWaits := by
  intro s w as hrun hcell hargc hwords hpause
  exact step_of_pause hrun (State.fetch_of_cells hcell hargc hwords) hpause

/-- Settles O8: the fault of each part of fetch, then that of a rejected subtype, which is raised after the hook. -/
theorem fetchAndDecodeFaultsInOrder : Obligations.FetchAndDecodeFaultsInOrder := by
  intro s hrun
  refine ⟨fun hcell => ?cell, fun w hcell hop => ?opcode, fun w n k hcell hargc hk hbefore hword => ?word,
    fun w as hcell hargc hwords hdec hpause => ?subtype⟩
  case cell => exact step_of_fetch_error hrun (State.fetch_of_unbacked hcell)
  case opcode => exact step_of_fetch_error hrun (State.fetch_of_illegal hcell hop)
  case word => exact step_of_fetch_error hrun (State.fetch_of_unbacked_word hcell hargc hk hbefore hword)
  case subtype =>
    rw [step_of_fetch_ok hrun (State.fetch_of_cells hcell hargc hwords) hpause, State.dispatch, hdec]
    rfl

/-! ## An instruction placed at IP (20_memory.md R43) -/

/-- The cells after those of the first instruction are not read. -/
theorem decode_take {w : Cell} {as rest : List Cell} {i : Instr} {n : Nat} (hn : argc (opField w) = some n)
    (h : decode (w :: as) = .ok (i, rest)) : decode (w :: as.take n) = .ok (i, []) := by
  obtain ⟨_, _, n', ⟨⟩, hn', hle, rfl, hcell⟩ := decode_eq_ok.1 h
  obtain rfl : n = n' := by simpa [hn] using hn'
  have hlen : (as.take n).length = n := List.length_take_of_le hle
  refine decode_eq_ok.2 ⟨_, _, n, rfl, hn, hlen.ge, by simp, ?_⟩
  rw [← hcell]
  refine instrOf_congr_operands hn (subField w) (o := fun k => operandOf (tagField w k) (as.getD k 0))
    (o' := fun k => operandOf (tagField w k) ((as.take n).getD k 0)) fun k hk => ?_
  simp [List.getElem?_take_of_lt hk]

section
variable {s : State} {nbits w : Nat}

/-- The placed cells are read back: they are four addresses of their own, all backed. -/
theorem State.getValue_withFetchWord {k : Nat} (hk : k < 4) :
    (s.withFetchWord nbits w).getValue (s.pc + BitVec.ofNat 32 k) = (tableCells nbits w)[k]? := by
  have hlen : k < (tableCells nbits w).length := hk
  have hbacked : (s.pc + BitVec.ofNat 32 k).toNat < (s.withFetchWord nbits w).params.memSize := by
    have hk' : k = 0 ∨ k = 1 ∨ k = 2 ∨ k = 3 := by omega
    obtain rfl | rfl | rfl | rfl := hk' <;> simp [State.withFetchWord]
  rw [State.getValue_of_lt hbacked, List.getElem?_eq_getElem hlen, State.withFetchWord]
  exact congrArg _ (Memory.read_load _ _ _ (by simp [tableCells]) hlen)

/-- Every other cell that was backed is as it was. -/
theorem State.getValue_withFetchWord_of_ne {a : Cell} (hne : ∀ k < 4, a ≠ s.pc + BitVec.ofNat 32 k)
    (hbacked : a.toNat < s.params.memSize) : (s.withFetchWord nbits w).getValue a = s.getValue a := by
  have hstill : a.toNat < (s.withFetchWord nbits w).params.memSize := lt_max_of_lt_left hbacked
  rw [State.getValue_of_lt hstill, State.getValue_of_lt hbacked]
  refine congrArg _ (Memory.read_load_of_ne _ _ _ fun k hk => ?_)
  exact fun heq => hne k hk (BitVec.eq_of_toNat_eq heq)

end

/-- Settles O7: the four placed cells are read back, so those the opcode announces are fetched, and they decode to the
instruction the four were read as. -/
theorem placedInstructionRunsNext : Obligations.PlacedInstructionRunsNext := by
  intro s nbits w i hdec
  refine ⟨?runs, rfl, fun a => State.getValue_withFetchWord_of_ne⟩
  obtain ⟨rest, hdecode⟩ : ∃ rest, decode (tableCells nbits w) = .ok (i, rest) := by
    unfold decodeTableWord at hdec
    split at hdec
    · next rest h => exact ⟨rest, Option.some.inj hdec ▸ h⟩
    · cases hdec
  obtain ⟨c, as, n, hcells, hargc, hle, -, -⟩ := decode_eq_ok.1 hdecode
  have hlen : as.length + 1 = 4 := congrArg List.length hcells.symm
  have hplaced {k : Nat} (hk : k < 4) :
      (s.withFetchWord nbits w).getValue (s.pc + BitVec.ofNat 32 k) = (c :: as)[k]? := by
    rw [State.getValue_withFetchWord hk, hcells]
  have hfetch : (s.withFetchWord nbits w).fetch = .ok (c :: as.take n) := by
    have hhead : (s.withFetchWord nbits w).getValue s.pc = some c := by simpa using hplaced (k := 0) (by omega)
    have hwords : (as.take n).length = n := List.length_take_of_le hle
    refine State.fetch_of_cells hhead (by rw [hwords, hargc]) fun k hk => ?_
    rw [hwords] at hk
    rw [← Cell.add_succ, List.getElem?_take_of_lt hk]
    exact hplaced (by omega)
  have hrun : (s.withFetchWord nbits w).run ≠ .halted := nofun
  rw [step_of_fetch_ok hrun hfetch nofun]
  exact State.dispatch_of_decode (decode_take hargc (hcells ▸ hdecode))

end Sys2Proof.Machine
end

section
/-! What a step can do, said once (spec/40_execution_cycle.md R67, R73): it completes, halts, waits or pauses, faults,
or loses the cell an IN was handed; the statements about every step are read off these shapes. -/

namespace Sys2Proof.Machine

/-! ## Taking a fault (60_exceptions.md R137, R139) -/

/-- Without a callback nothing is delivered and nothing recovers, whatever the host would do. -/
theorem State.raise_faults_of_no_callback {s : State} (e : ErrorEvent) (h : s.params.errorCallback = false) :
    s.faults (s.raise e) e.kind e.addr := by
  rw [State.raise_of_no_callback e h]
  simp [State.faults, h]

/-- With a callback the host's next recovery is carried out. -/
theorem State.raise_of_recovery {s : State} (e : ErrorEvent) {r : Recovery} {rest : List Recovery}
    (hc : s.params.errorCallback = true) (hr : s.recoveries = r :: rest) :
    s.raise e =
      { s with
        regs := s.regs.setAll r.regs
        mem := s.pokeAll r.cells
        run := if r.resume then .running else .halted
        events := s.events ++ [e]
        recoveries := rest
        last := some (.faulted e.kind e.addr) } := by
  rw [State.raise_of_callback e hc, State.recover]
  simp only [State.stop_recoveries, hr]
  rfl

/-- Settles O17: by whether there is a callback and whether its host recovers. -/
theorem takingAFaultHaltsAndTellsTheHost : Obligations.TakingAFaultHaltsAndTellsTheHost :=
  fun _ e => ⟨State.raise_faults_of_no_callback e, fun _ => State.raise_faults e, fun _ _ => State.raise_of_recovery e⟩

/-! ## The cells of a fetched instruction -/

section
variable {s : State} {cells : List Cell}

/-- Fetch hands the decoder exactly the cells of one instruction. -/
theorem State.fetch_cells (h : s.fetch = .ok cells) :
    ∃ w as, cells = w :: as ∧ argc (opField w) = some as.length := by
  obtain ⟨w, n, as, rfl, -, hargc, hargs⟩ := State.fetch_eq_ok.1 h
  obtain ⟨rfl, -⟩ := State.fetchArgs_eq_ok.1 hargs
  exact ⟨w, as, rfl, hargc⟩

theorem decode_of_fetch {i : Instr} {rest : List Cell} (h : s.fetch = .ok cells)
    (hdec : decode cells = .ok (i, rest)) : decode cells = .ok (i, []) := by
  obtain ⟨w, as, rfl, hargc⟩ := State.fetch_cells h
  simpa using decode_take hargc hdec

theorem rejectFault_of_fetch {r : Reject} (h : s.fetch = .ok cells) (hdec : decode cells = .error r) :
    rejectFault r = .invalidType := by
  obtain ⟨w, as, rfl, hargc⟩ := State.fetch_cells h
  obtain ⟨rfl, -⟩ := (decode_eq_error_of_present hargc (Nat.le_refl _)).1 hdec
  rfl

theorem State.ownAddress_fetch {e : ErrorEvent} (h : s.fetch = .error e) : s.ownAddress e := by
  have hunbacked {a : Cell} (ha : s.getValue a = none) : s.ownAddress ⟨.segmentationFault, a⟩ :=
    State.ownAddress_cell ((s.getValue_eq_none_iff a).1 ha)
  obtain ⟨hcell, rfl⟩ | ⟨w, -, ⟨-, rfl⟩ | ⟨n, -, hargs⟩⟩ := State.fetch_error h
  · exact hunbacked hcell
  · exact s.ownAddress_pc (by decide)
  · obtain ⟨k, -, rfl, hword, -⟩ := State.fetchArgs_error hargs
    exact hunbacked hword

end

/-! ## The shapes of a step -/

/-- What neither the hook nor a port transaction touches: registers, memory, parameters, events, coming recoveries. -/
structure State.SameCore (s u : State) : Prop where
  regs : u.regs = s.regs
  mem : u.mem = s.mem
  params : u.params = s.params
  events : u.events = s.events
  recoveries : u.recoveries = s.recoveries

theorem State.SameCore.refl (s : State) : s.SameCore s := ⟨rfl, rfl, rfl, rfl, rfl⟩

theorem State.started_sameCore (s : State) : s.SameCore s.started := ⟨rfl, rfl, rfl, rfl, rfl⟩

theorem State.portRead_sameCore (s : State) (p : Nat) : s.SameCore (s.portRead p).2 := by
  obtain ⟨_, _, h⟩ := s.portRead_shape p
  rw [h]
  exact ⟨rfl, rfl, rfl, rfl, rfl⟩

theorem State.portWrite_sameCore (s : State) (p : Nat) (v : Cell) : s.SameCore (s.portWrite p v).2 := by
  obtain ⟨_, _, h⟩ := s.portWrite_shape p v
  rw [h]
  exact ⟨rfl, rfl, rfl, rfl, rfl⟩

theorem State.SameCore.trans {s u t : State} (hu : s.SameCore u) (ht : u.SameCore t) : s.SameCore t :=
  ⟨ht.regs.trans hu.regs, ht.mem.trans hu.mem, ht.params.trans hu.params, ht.events.trans hu.events,
    ht.recoveries.trans hu.recoveries⟩

section
variable {s : State} {p : Nat} {v : Cell}

/-! A transaction appends a cell handed over to the history, and leaves it where there is none (20_memory.md R38). -/

theorem State.portHistory_of_read_none (h : (s.portRead p).1 = none) :
    (s.portRead p).2.portHistory = s.portHistory := by
  obtain ⟨_, _, hshape⟩ := s.portRead_shape p
  simp [hshape, h]

theorem State.portHistory_of_read_some (h : (s.portRead p).1 = some v) :
    (s.portRead p).2.portHistory = s.portHistory ++ [PortEvent.input p v] := by
  obtain ⟨_, _, hshape⟩ := s.portRead_shape p
  simp [hshape, h]

theorem State.portHistory_of_write_notReady (h : (s.portWrite p v).1 = false) :
    (s.portWrite p v).2.portHistory = s.portHistory := by
  obtain ⟨_, _, hshape⟩ := s.portWrite_shape p v
  simp [hshape, h]

theorem State.portHistory_of_write_done (h : (s.portWrite p v).1 = true) :
    (s.portWrite p v).2.portHistory = s.portHistory ++ [PortEvent.output p v] := by
  obtain ⟨_, _, hshape⟩ := s.portWrite_shape p v
  simp [hshape, h]

end

/-- The shapes of the state after a step of a core that is not Halted; `u` is the state in which the step ends, of
which it differs in what the end names. -/
inductive StepShape (s : State) : State → Prop
  /-- The instruction completed, with at most one memory write and at most one port transfer. -/
  | completes (u : State) (hu : s.SameCore u) (hrun : u.run = .running) (x : Regs) (m : Memory) (c : Nat)
      (hm : s.oneWrite m) (hport : u.portHistory = s.portHistory ∨ ∃ e, u.portHistory = s.portHistory ++ [e]) :
      StepShape s (u.commit x m c)
  /-- It was HALT. -/
  | halts (u : State) (hu : s.SameCore u) (hport : u.portHistory = s.portHistory) (c : Nat) :
      StepShape s (u.commitHalt (s.fetched 0) c)
  /-- The host was not ready. -/
  | waits (u : State) (hu : s.SameCore u) (hport : u.portHistory = s.portHistory) : StepShape s u.wait
  /-- The host paused the core. -/
  | pauses (u : State) (hu : s.SameCore u) (hport : u.portHistory = s.portHistory) : StepShape s u.pause
  /-- A fault of fetch, of decode or of the instruction was taken. -/
  | faults (u : State) (hu : s.SameCore u) (hport : u.portHistory = s.portHistory) (e : ErrorEvent)
      (he : s.ownAddress e) : StepShape s (u.raise e)
  /-- It was an IN, and the cell was lost to the fault of its memory destination. -/
  | loses (u : State) (hu : s.SameCore u) (cells : List Cell) (a0 a1 : Operand) (p : Nat) (v ea : Cell)
      (hfetch : s.fetch = .ok cells) (hdec : decode cells = .ok (.inPort a0 a1, []))
      (hloc : s.locates 2 a0 (.mem ea)) (hrefused : ¬ s.acceptsAt ea)
      (hport : u.portHistory = s.portHistory ++ [PortEvent.input p v]) :
      StepShape s (u.raise ⟨.segmentationFault, ea⟩)

/-- What an instruction leaves is a shape of the step that runs it. -/
theorem StepShape.of_exec {s t : State} {cells : List Cell} {i : Instr} (hfetch : s.fetch = .ok cells)
    (hdec : decode cells = .ok (i, [])) (h : ExecShape i s.started t) : StepShape s t := by
  have hread (p : Nat) : s.SameCore (s.started.portRead p).2 :=
    s.started_sameCore.trans (s.started.portRead_sameCore p)
  have hwrite (p : Nat) (v : Cell) : s.SameCore (s.started.portWrite p v).2 :=
    s.started_sameCore.trans (s.started.portWrite_sameCore p v)
  cases h with
  | completes x m hm hi => exact .completes _ s.started_sameCore rfl x m _ hm (.inl rfl)
  | halts hi => exact .halts _ s.started_sameCore rfl _
  | raises e he hi => exact .faults _ s.started_sameCore rfl e he
  | inWaits a0 a1 p hi hans => exact .waits _ (hread p) (State.portHistory_of_read_none hans)
  | inputs a0 a1 p v x m hi hans hm =>
    exact .completes _ (hread p) (s.started.portRead_run p) x m _ hm
      (.inr ⟨_, State.portHistory_of_read_some hans⟩)
  | loses a0 a1 p v ea hi hd ha hans =>
    subst hi
    exact .loses _ (hread p) cells a0 a1 p v ea hfetch hdec hd ha
      (State.portHistory_of_read_some hans)
  | outWaits a0 a1 p v hi hans => exact .waits _ (hwrite p v) (State.portHistory_of_write_notReady hans)
  | outputs a0 a1 p v hi hans =>
    exact .completes _ (hwrite p v) (s.started.portWrite_run p v) _ _ _ (.inl rfl)
      (.inr ⟨_, State.portHistory_of_write_done hans⟩)

/-- EVERY step of a core that is not Halted answers a next state of one of the shapes. -/
theorem step_shape {s : State} (hrun : s.run ≠ .halted) : ∃ t, step s = .next t ∧ StepShape s t := by
  rcases hfetch : s.fetch with e | cells
  · exact ⟨_, step_of_fetch_error hrun hfetch, .faults s (.refl s) rfl e (State.ownAddress_fetch hfetch)⟩
  by_cases hpause : s.pauseAnswers.head? = some true
  · exact ⟨_, step_of_pause hrun hfetch hpause, .pauses _ s.started_sameCore rfl⟩
  rw [step_of_fetch_ok hrun hfetch hpause]
  obtain ⟨i, rest, hdec, hexec⟩ | ⟨r, hdec, hraise⟩ := s.started.dispatch_cases cells
  · obtain ⟨t, ht, hshape⟩ := exec_shape i s.started
    exact ⟨t, hexec.trans ht, .of_exec hfetch (decode_of_fetch hfetch hdec) hshape⟩
  · rw [rejectFault_of_fetch hfetch hdec] at hraise
    exact ⟨_, hraise, .faults _ s.started_sameCore rfl _ (s.ownAddress_pc (by decide))⟩

theorem StepShape.of_step {s t : State} (hrun : s.run ≠ .halted) (hstep : step s = .next t) : StepShape s t := by
  obtain ⟨u, hu, hshape⟩ := step_shape hrun
  obtain rfl : u = t := by simpa [hu] using hstep
  exact hshape

/-! ## Totality (70_reset_and_hazards.md R156) -/

theorem exists_tickLoop (fuel remaining : Nat) (s : State) : ∃ t, tickLoop fuel remaining s = .next t := by
  induction fuel generalizing remaining s with
  | zero => exact ⟨s, rfl⟩
  | succ fuel ih =>
    obtain rfl | hpos := Nat.eq_zero_or_pos remaining
    · exact ⟨s, tickLoop_no_ticks _ s⟩
    obtain ⟨t, hstep, -⟩ := stepInstr_shape s
    by_cases hdone : ∃ c, t.last = some (.completed c)
    · obtain ⟨c, hlast⟩ := hdone
      rw [tickLoop_of_completed fuel hpos hstep hlast]
      exact ih _ t
    · exact ⟨t, tickLoop_of_not_completed fuel hpos hstep (not_exists.1 hdone)⟩

theorem exists_step (s : State) : ∃ t, step s = .next t := by
  by_cases hrun : s.run = .halted
  · exact ⟨s, step_of_halted hrun⟩
  · obtain ⟨t, ht, -⟩ := step_shape hrun
    exact ⟨t, ht⟩

theorem exists_tick (budget : Nat) (s : State) : ∃ t, tick budget s = .next t := by
  by_cases hrun : s.run = .halted
  · exact ⟨s, tick_of_halted budget hrun⟩
  obtain rfl | hpos := Nat.eq_zero_or_pos budget
  · exact ⟨s, tick_zero s⟩
  · rw [tick_of_not_halted hrun hpos]
    exact exists_tickLoop budget budget s.resume

/-- Settles O11: every instruction and every step has a shape, and the loop of `Tick` ends with its fuel. -/
theorem everyStepAnswersNext : Obligations.EveryStepAnswersNext :=
  ⟨fun i s => (exec_shape i s).imp fun _ => And.left, exists_step, exists_tick⟩

/-! ## Outcomes (40_execution_cycle.md R73) -/

/-- Without a recovery a fault leaves the core Halted, with the registers and memory it found. -/
theorem State.SameCore.raise_faults {s u : State} (hu : s.SameCore u) (hrec : s.recoveries = []) (e : ErrorEvent) :
    (u.raise e).regs = s.regs ∧ (u.raise e).mem = s.mem ∧ (u.raise e).run = .halted ∧
      (u.raise e).events = (if s.params.errorCallback then s.events ++ [e] else s.events) := by
  rw [State.raise_of_no_recovery e (hu.recoveries.trans hrec)]
  simp [hu.regs, hu.mem, hu.params, hu.events]

theorem State.raise_last (s : State) (e : ErrorEvent) : (s.raise e).last = some (.faulted e.kind e.addr) :=
  (s.raise_frame e).1

/-- Settles O12: the outcome of each shape, with the run state and the registers it leaves. -/
theorem stepHasOneOfFiveOutcomes : Obligations.StepHasOneOfFiveOutcomes := by
  intro s t hrun hstep
  have hfault {u : State} (hu : s.SameCore u) (e : ErrorEvent) :
      s.recoveries = [] → (u.raise e).run = .halted ∧ (u.raise e).regs = s.regs := by
    intro hrec
    obtain ⟨hregs, -, hhalted, -⟩ := hu.raise_faults hrec e
    exact ⟨hhalted, hregs⟩
  cases StepShape.of_step hrun hstep with
  | completes u hu hrunning x m c hm hport => exact hrunning
  | halts u hu hport c => exact ⟨rfl, fun _ => rfl⟩
  | waits u hu hport => exact ⟨rfl, hu.regs⟩
  | pauses u hu hport => exact ⟨rfl, hu.regs⟩
  | faults u hu hport e he =>
    rw [State.raise_last]
    exact hfault hu e
  | loses u hu cells a0 a1 p v ea hfetch hdec hloc hrefused hport =>
    rw [State.raise_last]
    exact hfault hu _

/-! ## The invariant (20_memory.md R31, 00_scope.md R3) -/

/-- The part of the invariant that is about memory: canonical, and inside the backed space. -/
def Memory.Fits (size : Nat) (m : Memory) : Prop := Memory.wf m ∧ ∀ e ∈ m, e.1 < size

theorem State.inv_iff {s : State} : s.Inv ↔ Memory.Fits s.params.memSize s.mem ∧ s.params.wf :=
  and_assoc.symm

theorem Memory.Fits.write {size a : Nat} {m : Memory} (h : Memory.Fits size m) (ha : a < size) (v : Cell) :
    Memory.Fits size (m.write a v) := by
  refine ⟨Memory.write_wf a v h.1, fun e he => ?_⟩
  obtain rfl | he := Memory.mem_write he
  · exact ha
  · exact h.2 e he

/-- A recovery writes only cells of the backed space. -/
theorem State.pokeAll_fits {s : State} (ws : List (Cell × Cell)) (h : Memory.Fits s.params.memSize s.mem) :
    Memory.Fits s.params.memSize (s.pokeAll ws) := by
  refine List.foldlRecOn ws _ h fun m hm w _ => ?_
  split
  · next hlt => exact hm.write hlt w.2
  · exact hm

theorem State.oneWrite.fits {s : State} {m : Memory} (hm : s.oneWrite m) (h : Memory.Fits s.params.memSize s.mem) :
    Memory.Fits s.params.memSize m := by
  obtain rfl | ⟨a, v, hset⟩ := hm
  · exact h
  · exact ⟨State.setValue_wf hset h.1, State.setValue_bounded hset h.2⟩

/-- Taking a fault leaves memory as it was, or as the host's recovery made it. -/
theorem State.raise_mem (s : State) (e : ErrorEvent) :
    (s.raise e).mem = s.mem ∨ ∃ ws, (s.raise e).mem = s.pokeAll ws := by
  cases hc : s.params.errorCallback
  · exact .inl (by rw [State.raise_of_no_callback e hc, State.stop_mem])
  · rcases hr : s.recoveries with _ | ⟨r, rest⟩
    · exact .inl (by rw [State.raise_of_no_recovery e hr]; rfl)
    · exact .inr ⟨r.cells, by rw [State.raise_of_recovery e hc hr]⟩

theorem State.raise_params (s : State) (e : ErrorEvent) : (s.raise e).params = s.params := (s.raise_frame e).2.1

theorem State.Inv.raise {s : State} (h : s.Inv) (e : ErrorEvent) : (s.raise e).Inv := by
  obtain ⟨hfits, hbounds⟩ := State.inv_iff.1 h
  rw [State.inv_iff, State.raise_params]
  refine ⟨?_, hbounds⟩
  obtain hmem | ⟨ws, hmem⟩ := s.raise_mem e <;> rw [hmem]
  · exact hfits
  · exact State.pokeAll_fits ws hfits

/-- The invariant is about memory and parameters alone. -/
theorem State.SameCore.inv {s u : State} (hu : s.SameCore u) (h : s.Inv) : u.Inv := by
  rw [State.Inv, hu.mem, hu.params]
  exact h

/-- Settles O14: a completed instruction writes at most one backed cell, a recovery only backed cells, and nothing else
writes memory. -/
theorem everyStepKeepsInv : Obligations.EveryStepKeepsInv := by
  intro s t h hstep
  by_cases hrun : s.run = .halted
  · obtain rfl : s = t := by simpa [step_of_halted hrun] using hstep
    exact h
  obtain ⟨hfits, hbounds⟩ := State.inv_iff.1 h
  cases StepShape.of_step hrun hstep with
  | completes u hu hrunning x m c hm hport =>
    rw [State.inv_iff, State.commit_params, hu.params]
    exact ⟨hm.fits hfits, hbounds⟩
  | halts u hu hport c => exact hu.inv h
  | waits u hu hport => exact hu.inv h
  | pauses u hu hport => exact hu.inv h
  | faults u hu hport e he => exact (hu.inv h).raise e
  | loses u hu cells a0 a1 p v ea hfetch hdec hloc hrefused hport => exact (hu.inv h).raise _

/-! ## Histories (60_exceptions.md R137, 20_memory.md R38) -/

theorem State.raise_portHistory (s : State) (e : ErrorEvent) : (s.raise e).portHistory = s.portHistory := by
  obtain ⟨-, -, hport, -⟩ := s.raise_frame e
  exact hport

theorem State.raise_events (s : State) (e : ErrorEvent) :
    (s.raise e).events = s.events ∨ (s.raise e).events = s.events ++ [e] := by
  obtain ⟨-, -, -, -, -, -, -, hevents⟩ := s.raise_frame e
  rw [hevents]
  split
  · exact .inr rfl
  · exact .inl rfl

/-- A fault delivers at most its own event and changes no parameter. -/
theorem State.SameCore.raise_events {s u : State} (hu : s.SameCore u) (e : ErrorEvent) :
    (u.raise e).params = s.params ∧ ((u.raise e).events = s.events ∨
      ∃ e', (u.raise e).events = s.events ++ [e'] ∧ (u.raise e).last = some (.faulted e'.kind e'.addr)) := by
  refine ⟨(u.raise_params e).trans hu.params, ?_⟩
  rw [← hu.events]
  exact (u.raise_events e).imp_right fun h => ⟨e, h, u.raise_last e⟩

/-- Settles O16: only a fault delivers an event, and only a port transaction makes a transfer. -/
theorem historiesGrowByAtMostOne : Obligations.HistoriesGrowByAtMostOne := by
  intro s t hstep
  by_cases hrun : s.run = .halted
  · obtain rfl : s = t := by simpa [step_of_halted hrun] using hstep
    exact ⟨rfl, .inl rfl, .inl rfl⟩
  cases StepShape.of_step hrun hstep with
  | completes u hu hrunning x m c hm hport => exact ⟨hu.params, .inl hu.events, hport⟩
  | halts u hu hport c => exact ⟨hu.params, .inl hu.events, .inl hport⟩
  | waits u hu hport => exact ⟨hu.params, .inl hu.events, .inl hport⟩
  | pauses u hu hport => exact ⟨hu.params, .inl hu.events, .inl hport⟩
  | faults u hu hport e he =>
    obtain ⟨hparams, hevents⟩ := hu.raise_events e
    exact ⟨hparams, hevents, .inl ((u.raise_portHistory e).trans hport)⟩
  | loses u hu cells a0 a1 p v ea hfetch hdec hloc hrefused hport =>
    obtain ⟨hparams, hevents⟩ := hu.raise_events ⟨.segmentationFault, ea⟩
    exact ⟨hparams, hevents, .inr ⟨_, (u.raise_portHistory _).trans hport⟩⟩

/-! ## Faulting steps (60_exceptions.md R134, R136) -/

/-- A step that ended in a fault took it in a state that agrees with the one before: a fault at its own address without
a port transfer, or that of an IN whose destination was refused. -/
theorem StepShape.of_faulted {s t : State} {k : FaultKind} {a : Cell} (h : StepShape s t)
    (hlast : t.last = some (.faulted k a)) :
    ∃ u, s.SameCore u ∧ t = u.raise ⟨k, a⟩ ∧ s.ownAddress ⟨k, a⟩ ∧
      (u.portHistory = s.portHistory ∨
        ∃ cells a0 a1 p v, s.fetch = .ok cells ∧ decode cells = .ok (.inPort a0 a1, []) ∧
          s.locates 2 a0 (.mem a) ∧ k = .segmentationFault ∧
          u.portHistory = s.portHistory ++ [PortEvent.input p v]) := by
  cases h with
  | completes u hu hrunning x m c hm hport => simp at hlast
  | halts u hu hport c => simp at hlast
  | waits u hu hport => simp at hlast
  | pauses u hu hport => simp at hlast
  | faults u hu hport e he =>
    obtain ⟨rfl, rfl⟩ : e.kind = k ∧ e.addr = a := by simpa [State.raise_last] using hlast
    exact ⟨u, hu, rfl, he, .inl hport⟩
  | loses u hu cells a0 a1 p v ea hfetch hdec hloc hrefused hport =>
    obtain ⟨rfl, rfl⟩ : .segmentationFault = k ∧ ea = a := by simpa [State.raise_last] using hlast
    exact ⟨u, hu, rfl, ⟨fun _ => hrefused, fun hk => absurd rfl hk⟩,
      .inr ⟨cells, a0, a1, p, v, hfetch, hdec, hloc, rfl, hport⟩⟩

/-- Settles O18: the state the fault was taken in agrees with the one before the step but for the transfer of an IN. -/
theorem faultsArePrecise : Obligations.FaultsArePrecise := by
  intro s t k a hrun hrec hstep hlast
  obtain ⟨u, hu, rfl, -, hport⟩ := (StepShape.of_step hrun hstep).of_faulted hlast
  obtain ⟨hregs, hmem, hhalted, hevents⟩ := hu.raise_faults hrec ⟨k, a⟩
  rw [State.raise_portHistory]
  exact ⟨hregs, hmem, hhalted, hevents, hport⟩

/-- Settles O19: every fault a step can take is at its own address. -/
theorem faultAddressIsRefusedCellOrPc : Obligations.FaultAddressIsRefusedCellOrPc := by
  intro s t k a hrun hstep hlast
  obtain ⟨u, -, -, hown, -⟩ := (StepShape.of_step hrun hstep).of_faulted hlast
  exact hown

end Sys2Proof.Machine
end

section
/-! Waits and pauses (spec/70_reset_and_hazards.md R153): a waited or paused step leaves all but the host's answers and
the outcome as they were, and no step looks at the outcome of the one before it. -/

namespace Sys2Proof.Machine

/-! ## No step looks at the outcome of the one before -/

/-- The state with another outcome of the latest `Step` remembered. -/
def State.withLast (s : State) (l : Option StepOutcome) : State := { s with last := l }

section
variable (s : State) (l : Option StepOutcome)

theorem State.raise_withLast (e : ErrorEvent) : (s.withLast l).raise e = s.raise e := rfl

theorem State.portRead_withLast (p : Nat) :
    (s.withLast l).portRead p = ((s.portRead p).1, (s.portRead p).2.withLast l) := by
  unfold State.portRead
  split
  · rfl
  · rcases hans : s.readAnswers with _ | ⟨_ | v, rest⟩
    · rcases hfree : Config.readAnswer s.drawn p with _ | v <;> simp [State.withLast, hans, hfree]
    · simp [State.withLast, hans]
    · simp [State.withLast, hans]

theorem State.portWrite_withLast (p : Nat) (v : Cell) :
    (s.withLast l).portWrite p v = ((s.portWrite p v).1, (s.portWrite p v).2.withLast l) := by
  unfold State.portWrite
  split
  · rfl
  · rcases hans : s.writeAnswers with _ | ⟨_ | _, rest⟩
    · rcases hfree : Config.writeAnswer s.drawn p v with _ | _ <;> simp [State.withLast, hans, hfree]
    · simp [State.withLast, hans]
    · simp [State.withLast, hans]

theorem State.finishIn_withLast (L : Dest) (answer : Option Cell) :
    (s.withLast l).finishIn L answer = s.finishIn L answer := by
  cases answer <;> rfl

theorem State.finishOut_withLast (done : Bool) : (s.withLast l).finishOut done = s.finishOut done := by
  cases done <;> rfl

theorem exec_inPort_withLast (a0 a1 : Operand) : exec (.inPort a0 a1) (s.withLast l) = exec (.inPort a0 a1) s := by
  have hphases : (s.withLast l).inPhases a0 a1 = s.inPhases a0 a1 := rfl
  simp only [exec, execInPort, hphases, State.portRead_withLast, State.finishIn_withLast, State.raise_withLast]

theorem exec_outPort_withLast (a0 a1 : Operand) :
    exec (.outPort a0 a1) (s.withLast l) = exec (.outPort a0 a1) s := by
  have hphases : (s.withLast l).outPhases a0 a1 = s.outPhases a0 a1 := rfl
  simp only [exec, execOutPort, hphases, State.portWrite_withLast, State.finishOut_withLast, State.raise_withLast]

/-- Every instruction ends by overwriting the outcome, and reads it nowhere. -/
theorem exec_withLast (i : Instr) : exec i (s.withLast l) = exec i s := by
  cases i with
  | inPort a0 a1 => exact exec_inPort_withLast s l a0 a1
  | outPort a0 a1 => exact exec_outPort_withLast s l a0 a1
  | _ => rfl

theorem State.dispatch_withLast (cells : List Cell) : (s.withLast l).dispatch cells = s.dispatch cells := by
  unfold State.dispatch
  rcases decode cells with r | ⟨i, rest⟩
  · rfl
  · exact exec_withLast s l i

theorem stepInstr_withLast : stepInstr (s.withLast l) = stepInstr s := by
  have hfetch : (s.withLast l).fetch = s.fetch := State.fetch_congr rfl rfl rfl
  have hpause : (s.withLast l).pauseAnswers = s.pauseAnswers := rfl
  unfold stepInstr
  rw [hfetch, hpause]
  rcases s.fetch with e | cells
  · rfl
  · rcases s.pauseAnswers with _ | ⟨_ | _, rest⟩
    · exact s.dispatch_withLast l cells
    · exact State.dispatch_withLast { s with pauseAnswers := rest } l cells
    · rfl

end

/-! ## What a waited or paused step leaves -/

/-- All that waits and pauses can change are the host's coming answers, the run state and the outcome. -/
structure State.Waited (s u : State) : Prop extends s.SameCore u where
  portHistory : u.portHistory = s.portHistory

theorem State.Waited.refl (s : State) : s.Waited s := ⟨.refl s, rfl⟩

theorem State.Waited.trans {s u t : State} (hu : s.Waited u) (ht : u.Waited t) : s.Waited t :=
  ⟨hu.toSameCore.trans ht.toSameCore, ht.portHistory.trans hu.portHistory⟩

theorem StepShape.of_waited {s t : State} (h : StepShape s t) (hlast : t.last = some .waited ∨ t.last = some .paused) :
    s.Waited t ∧ t.run = .waiting := by
  cases h with
  | completes u hu hrunning x m c hm hport => simp at hlast
  | halts u hu hport c => simp at hlast
  | waits u hu hport => exact ⟨⟨⟨hu.regs, hu.mem, hu.params, hu.events, hu.recoveries⟩, hport⟩, rfl⟩
  | pauses u hu hport => exact ⟨⟨⟨hu.regs, hu.mem, hu.params, hu.events, hu.recoveries⟩, hport⟩, rfl⟩
  | faults u hu hport e he => simp [State.raise_last] at hlast
  | loses u hu cells a0 a1 p v ea hfetch hdec hloc hrefused hport => simp [State.raise_last] at hlast

/-- `k` waited or paused steps in a row. -/
theorem waited_of_steps {u : Nat → State} {k : Nat} (hrun : (u 0).run ≠ .halted)
    (hsteps : ∀ j < k, step (u j) = .next (u (j + 1)) ∧
      ((u (j + 1)).last = some .waited ∨ (u (j + 1)).last = some .paused)) :
    (u 0).Waited (u k) ∧ (u k).run ≠ .halted ∧ (0 < k → (u k).run = .waiting) := by
  induction k with
  | zero => exact ⟨.refl _, hrun, fun hpos => absurd hpos (Nat.lt_irrefl 0)⟩
  | succ k ih =>
    obtain ⟨hwaited, hrunning, -⟩ := ih fun j hj => hsteps j (Nat.lt_succ_of_lt hj)
    obtain ⟨hstep, hlast⟩ := hsteps k (Nat.lt_succ_self k)
    obtain ⟨hnext, hwaiting⟩ := (StepShape.of_step hrunning hstep).of_waited hlast
    exact ⟨hwaited.trans hnext, by simp [hwaiting], fun _ => hwaiting⟩

/-! ## The retry -/

/-- The state with the host's coming answers replaced. -/
def State.answered (s : State) (ra : List (Option Cell)) (wa pa : List Bool) (d : Nat) : State :=
  { s with readAnswers := ra, writeAnswers := wa, pauseAnswers := pa, drawn := d }

/-- With the same answers to come, a state after waits is resumed as the one before them, but for the outcome. -/
theorem State.Waited.resume_answered {s u : State} (h : s.Waited u) (ra : List (Option Cell)) (wa pa : List Bool)
    (d : Nat) : (u.answered ra wa pa d).resume = (s.answered ra wa pa d).resume.withLast u.last := by
  simp only [State.answered, State.resume, State.withLast, h.regs, h.mem, h.params, h.events, h.recoveries,
    h.portHistory]

/-- Settles O13: waits keep all that a step reads but the host's answers, and what is left to differ, the outcome, no
step reads. -/
theorem waitsLeaveNoTraceAndRetryAlike : Obligations.WaitsLeaveNoTraceAndRetryAlike := by
  intro u k hrun hsteps
  obtain ⟨hwaited, hnotHalted, hwaiting⟩ := waited_of_steps hrun hsteps
  refine ⟨hwaiting, hwaited.regs, hwaited.mem, hwaited.portHistory, hwaited.events, fun ra wa pa d => ?retry⟩
  case retry =>
    calc step ((u k).answered ra wa pa d)
        = stepInstr ((u k).answered ra wa pa d).resume := step_of_not_halted hnotHalted
      _ = stepInstr (((u 0).answered ra wa pa d).resume.withLast (u k).last) := by rw [hwaited.resume_answered]
      _ = stepInstr ((u 0).answered ra wa pa d).resume := stepInstr_withLast _ _
      _ = step ((u 0).answered ra wa pa d) := (step_of_not_halted (s := (u 0).answered ra wa pa d) hrun).symm

end Sys2Proof.Machine
end

section
/-! What each instruction can change and which faults it can raise, said once: a rule for each phase, which says what
the phase raises and what holds of the value it hands on, and with them one rule for the body of each family of
instructions. -/

namespace Sys2Proof.Machine

/-! ## The effect of an instruction -/

/-- Of the registers, `x` changes only IP, those the instruction writes of itself and its destination. -/
def State.keepsRegs (s : State) (i : Instr) (x : Regs) : Prop :=
  ∀ r, r ≠ .ip → r ∉ i.implicit → ¬ s.targets i r → x.get r = s.regs.get r

/-- Of the cells, `m` changes only those the instruction stores to. -/
def State.keepsCells (s : State) (i : Instr) (m : Memory) : Prop :=
  ∀ a, ¬ s.storesTo i a → m.read a.toNat = s.mem.read a.toNat

/-- `t` is `s` but for what the instruction may change. -/
structure State.Framed (s : State) (i : Instr) (t : State) : Prop where
  run : t.run = s.run
  events : t.events = s.events
  recoveries : t.recoveries = s.recoveries
  pauseAnswers : t.pauseAnswers = s.pauseAnswers
  regs : s.keepsRegs i t.regs
  cells : ∀ a, ¬ s.storesTo i a → t.getValue a = s.getValue a
  host : (∀ a0 a1, i ≠ .inPort a0 a1 ∧ i ≠ .outPort a0 a1) → s.sameHost t

/-- What the instruction leaves: completed, its own cost and frame; faulted, a kind it may raise. -/
structure State.Effect (s : State) (i : Instr) (t : State) : Prop where
  completed : ∀ c, t.last = some (.completed c) → c = i.cost s.params ∧ s.Framed i t
  faulted : ∀ k a, t.last = some (.faulted k a) → i.mayRaise k

section
variable {s u : State} {i : Instr}

theorem State.Effect.of_raise {e : ErrorEvent} (he : i.mayRaise e.kind) : s.Effect i (u.raise e) := by
  refine ⟨fun c hlast => absurd hlast (u.raise_last_ne_completed e c), fun k a hlast => ?_⟩
  obtain ⟨rfl, rfl⟩ : e.kind = k ∧ e.addr = a := by simpa [State.raise_last] using hlast
  exact he

theorem State.Effect.of_wait : s.Effect i u.wait := ⟨nofun, nofun⟩

/-- Completing in a state that a port transaction may have left. -/
theorem State.Effect.of_commit_after {x : Regs} {m : Memory} {c : Nat} (hu : s.SameCore u) (hrun : u.run = s.run)
    (hpause : u.pauseAnswers = s.pauseAnswers)
    (hhost : (∀ a0 a1, i ≠ .inPort a0 a1 ∧ i ≠ .outPort a0 a1) → s.sameHost u) (hx : s.keepsRegs i x)
    (hm : s.keepsCells i m) (hcost : i.cost s.params = c := by rfl) : s.Effect i (u.commit x m c) := by
  refine ⟨fun c' hlast => ⟨?cost, ?frame⟩, nofun⟩
  case cost => rw [hcost, StepOutcome.completed.inj (Option.some.inj hlast)]
  case frame =>
    refine ⟨hrun, hu.events, hu.recoveries, hpause, hx, fun a ha => ?_, hhost⟩
    exact State.getValue_eq_of_read_eq (congrArg Params.memSize hu.params) (hm a ha)

theorem State.Effect.of_commit {x : Regs} {m : Memory} {c : Nat} (hx : s.keepsRegs i x) (hm : s.keepsCells i m)
    (hcost : i.cost s.params = c := by rfl) : s.Effect i (s.commit x m c) :=
  .of_commit_after (.refl s) rfl rfl (fun _ => ⟨rfl, rfl, rfl, rfl, rfl, rfl, rfl, rfl⟩) hx hm hcost

end

/-! ## Phases -/

/-- A phase of the instruction: it raises only what the instruction may raise, and `Q` holds of what it hands on. -/
def Phase {α : Type} (i : Instr) (Q : α → Prop) : Except ErrorEvent α → Prop
  | .ok a => Q a
  | .error e => i.mayRaise e.kind

section
variable {α β : Type} {s : State} {i : Instr}

theorem Phase.bind {P : α → Prop} {Q : β → Prop} {x : Except ErrorEvent α} {f : α → Except ErrorEvent β}
    (hx : Phase i P x) (hf : ∀ a, P a → Phase i Q (f a)) : Phase i Q (x >>= f) := by
  cases x with
  | error e => exact hx
  | ok a => exact hf a hx

theorem Phase.of_cases {Q : α → Prop} {x : Except ErrorEvent α} (hok : ∀ a, x = .ok a → Q a)
    (herror : ∀ e, x = .error e → i.mayRaise e.kind) : Phase i Q x := by
  cases x with
  | error e => exact herror e rfl
  | ok a => exact hok a rfl

theorem State.Effect.settle {r : Except ErrorEvent State} (h : Phase i (s.Effect i) r) : s.Effect i (s.settle r) := by
  cases r with
  | error e => exact .of_raise h
  | ok t => exact h

/-! ### The operands -/

/-- An instruction with operands may raise the faults of operands. -/
theorem mayRaise_of_args (hargs : i.args ≠ []) :
    i.mayRaise .invalidType ∧ i.mayRaise .illegalRegister ∧ i.mayRaise .segmentationFault := by
  refine ⟨hargs, hargs, ?_, ?_, ?_⟩ <;> rintro rfl <;> exact hargs rfl

theorem Phase.srcLoc (x : Regs) (o : Operand) (hargs : i.args ≠ [] := by nofun) :
    Phase i (fun _ => True) (srcLoc x s.pc o) := by
  obtain ⟨htype, hreg, -⟩ := mayRaise_of_args hargs
  refine .of_cases (fun _ _ => trivial) fun e he => ?_
  obtain rfl | rfl := srcLoc_error he
  · exact htype
  · exact hreg

theorem Phase.dstLoc (n : Nat) (o : Operand) (hargs : i.args ≠ [] := by nofun) :
    Phase i (s.locates n o) (dstLoc (s.fetched n) s.pc o) := by
  obtain ⟨htype, hreg, -⟩ := mayRaise_of_args hargs
  refine .of_cases (fun _ => id) fun e he => ?_
  obtain rfl | rfl := dstLoc_error he
  · exact htype
  · exact hreg

theorem Phase.memRead (a : Cell) (hseg : i.mayRaise .segmentationFault := by exact ⟨nofun, nofun, nofun⟩) :
    Phase i (fun _ => True) (s.memRead a) := by
  refine .of_cases (fun _ _ => trivial) fun e he => ?_
  obtain ⟨-, rfl⟩ := State.memRead_eq_error.1 he
  exact hseg

theorem Phase.readLoc (x : Regs) (L : Loc) (hargs : i.args ≠ [] := by nofun) :
    Phase i (fun _ => True) (s.readLoc x L) := by
  obtain ⟨-, -, hseg⟩ := mayRaise_of_args hargs
  cases L with
  | imm v => trivial
  | reg r => trivial
  | mem ea => exact .memRead ea hseg

theorem Phase.readSource (n : Nat) (o : Operand) (hargs : i.args ≠ [] := by nofun) :
    Phase i (fun _ => True) (s.readSource n o) :=
  .bind (.srcLoc _ o hargs) fun L _ => .readLoc _ L hargs

theorem Phase.readSources (n : Nat) (o0 o1 : Operand) (hargs : i.args ≠ [] := by nofun) :
    Phase i (fun _ => True) (s.readSources n o0 o1) :=
  .bind (.srcLoc _ o0 hargs) fun l0 _ => .bind (.srcLoc _ o1 hargs) fun l1 _ =>
    .bind (.readLoc _ l0 hargs) fun _ _ => .bind (.readLoc _ l1 hargs) fun _ _ => trivial

/-! ### Checks -/

theorem Phase.overflowCheck (h : i.storesAtSp = true) (x : Regs) (pc : Cell) (slots : Nat) :
    Phase i (fun _ => True) (overflowCheck x pc slots) := by
  unfold Machine.overflowCheck
  split
  · exact h
  · trivial

theorem Phase.underflowCheck (h : i.mayRaise .stackUnderflow) (x : Regs) (pc top : Cell) (slots : Nat) :
    Phase i (fun _ => True) (underflowCheck x pc top slots) := by
  unfold Machine.underflowCheck
  split
  · exact h
  · trivial

theorem Phase.portCheck (h : i.mayRaise .invalidPort) (p : Cell) : Phase i (fun _ => True) (s.portCheck p) := by
  refine .of_cases (fun _ _ => trivial) fun e he => ?_
  rw [State.portCheck_error he]
  exact h

/-! ### Register writes -/

theorem State.keepsRegs_fetched (s : State) (i : Instr) (n : Nat) : s.keepsRegs i (s.fetched n) := by
  intro r hip _ _
  rw [State.fetched_get, if_neg hip]

theorem State.keepsRegs.setAll {x : Regs} {ws : List (RegId × Cell)} (hx : s.keepsRegs i x)
    (hws : ∀ w ∈ ws, w.1 = .ip ∨ w.1 ∈ i.implicit) : s.keepsRegs i (x.setAll ws) := by
  refine List.foldlRecOn ws _ hx fun y hy w hw r hip himplicit htarget => ?_
  have hne : r ≠ w.1 := by
    rintro rfl
    exact (hws w hw).elim hip himplicit
  rw [Regs.get_set_of_ne _ _ hne]
  exact hy r hip himplicit htarget

/-- The registers after fetch with the writes `ws` of the instruction itself. -/
theorem State.keepsRegs_setAll {n : Nat} {ws : List (RegId × Cell)} (hws : ∀ w ∈ ws, w.1 = .ip ∨ w.1 ∈ i.implicit) :
    s.keepsRegs i ((s.fetched n).setAll ws) := (s.keepsRegs_fetched i n).setAll hws

theorem State.keepsRegs.setTo {x : Regs} {o : Operand} {L : Dest} (hx : s.keepsRegs i x) (harg : (.dst, o) ∈ i.args)
    (hloc : s.locates i.args.length o L) (v : Cell) : s.keepsRegs i (x.setTo v L) := by
  intro r hip himplicit htarget
  have hne : L ≠ .reg r := by
    rintro rfl
    exact htarget ⟨o, harg, hloc⟩
  rw [Regs.setTo_get, if_neg hne]
  exact hx r hip himplicit htarget

/-! ### Stores -/

theorem State.keepsCells_self (s : State) (i : Instr) : s.keepsCells i s.mem := fun _ _ => rfl

theorem State.keepsCells_of_setValue {a v : Cell} {m : Memory} (ha : s.storesTo i a) (h : s.setValue a v = some m) :
    s.keepsCells i m := by
  intro b hb
  obtain ⟨-, -, hread, -⟩ := State.setValue_eq_some h
  have hne : b.toNat ≠ a.toNat := fun heq => hb (BitVec.eq_of_toNat_eq heq ▸ ha)
  rw [hread, if_neg fun h => hne h.1]

theorem State.keepsCells_of_storeTo {o : Operand} {L : Dest} {v : Cell} {m : Memory} (harg : (.dst, o) ∈ i.args)
    (hloc : s.locates i.args.length o L) (h : s.storeTo v L = .ok m) : s.keepsCells i m := by
  obtain ⟨_, _, rfl⟩ | ⟨ea, rfl, hset⟩ := State.storeTo_ok h
  · exact s.keepsCells_self i
  · exact State.keepsCells_of_setValue (.inr ⟨o, harg, hloc⟩) hset

theorem Phase.memWrite_sp (hseg : i.mayRaise .segmentationFault) (hsp : i.storesAtSp = true) (v : Cell) :
    Phase i (s.keepsCells i) (s.memWrite s.regs.sp v) := by
  refine .of_cases (fun m hm => ?_) fun e he => ?_
  · exact State.keepsCells_of_setValue (.inl ⟨hsp, rfl⟩) (State.memWrite_eq_ok.1 hm)
  · obtain ⟨_, -, rfl⟩ := State.storeTo_error (L := .mem s.regs.sp) he
    exact hseg

/-- The write of the destination, which ends the instruction. -/
theorem Phase.commitTo {o : Operand} {L : Dest} {x : Regs} {c : Nat} (harg : (.dst, o) ∈ i.args)
    (hloc : s.locates i.args.length o L) (hx : s.keepsRegs i x) (v : Cell) (hcost : i.cost s.params = c := by rfl) :
    Phase i (s.Effect i) (s.commitTo x L v c) := by
  obtain ⟨-, -, hseg⟩ := mayRaise_of_args (List.ne_nil_of_mem harg)
  refine .of_cases (fun t ht => ?_) fun e he => ?_
  · obtain ⟨m, hm, rfl⟩ := State.commitTo_eq_ok.1 ht
    exact .of_commit (hx.setTo harg hloc v) (State.keepsCells_of_storeTo harg hloc hm) hcost
  · obtain ⟨_, -, rfl⟩ := State.storeTo_error (State.commitTo_eq_error.1 he)
    exact hseg

end

/-! ## The families -/

section
variable {i : Instr} {c : Nat} {a0 a1 a2 : Operand} (s : State)

theorem State.binaryWith_effect {f : Cell → Cell → Except ErrorEvent Cell}
    (hf : ∀ p q, Phase i (fun _ => True) (f p q)) (hcost : i.cost s.params = c)
    (hargs : i.args = [(.dst, a0), (.src, a1), (.src, a2)]) : s.Effect i (s.binaryWith c f a0 a1 a2) := by
  have hne : i.args ≠ [] := by simp [hargs]
  have harg : (Role.dst, a0) ∈ i.args := by simp [hargs]
  rw [State.binaryWith_eq]
  refine .settle (.bind (.dstLoc 3 a0 hne) fun L hloc => .bind (.readSources 3 a1 a2 hne) fun v _ =>
    .bind (hf v.1 v.2) fun r _ => .commitTo harg ?_ (s.keepsRegs_fetched i 3) r hcost)
  rwa [hargs]

theorem State.binary_effect {f : Cell → Cell → Cell} (hcost : i.cost s.params = c := by rfl)
    (hargs : i.args = [(.dst, a0), (.src, a1), (.src, a2)] := by rfl) : s.Effect i (s.binary c f a0 a1 a2) :=
  s.binaryWith_effect (fun _ _ => trivial) hcost hargs

theorem State.division_effect {f : Cell → Cell → Cell} (hzero : i.mayRaise .divisionByZero)
    (hcost : i.cost s.params = c := by rfl)
    (hargs : i.args = [(.dst, a0), (.src, a1), (.src, a2)] := by rfl) : s.Effect i (s.division c f a0 a1 a2) := by
  refine s.binaryWith_effect (fun p q => ?_) hcost hargs
  split
  · exact hzero
  · trivial

theorem State.unary_effect {f : Cell → Cell} (hcost : i.cost s.params = c := by rfl)
    (hargs : i.args = [(.dst, a0), (.src, a1)] := by rfl) : s.Effect i (s.unary c f a0 a1) := by
  have hne : i.args ≠ [] := by simp [hargs]
  have harg : (Role.dst, a0) ∈ i.args := by simp [hargs]
  rw [State.unary_eq]
  refine .settle (.bind (.dstLoc 2 a0 hne) fun L hloc => .bind (.readSource 2 a1 hne) fun p _ =>
    .commitTo harg ?_ (s.keepsRegs_fetched i 2) (f p) hcost)
  rwa [hargs]

theorem State.compare_effect {f : Cell → Cell → Cell} (hcost : i.cost s.params = 1 := by rfl)
    (hargs : i.args = [(.src, a0), (.src, a1)] := by rfl) (himplicit : i.implicit = [.flags] := by rfl) :
    s.Effect i (s.compare f a0 a1) := by
  have hne : i.args ≠ [] := by simp [hargs]
  rw [State.compare_eq]
  exact .settle (.bind (.readSources 2 a0 a1 hne) fun v _ =>
    .of_commit (State.keepsRegs_setAll (by simp [himplicit])) (s.keepsCells_self i) hcost)

theorem State.jumpIf_effect {cond : Condition} (hcost : i.cost s.params = 1 := by rfl)
    (hargs : i.args = [(.src, a0)] := by rfl) : s.Effect i (s.jumpIf cond a0) := by
  have hne : i.args ≠ [] := by simp [hargs]
  rw [State.jumpIf_eq]
  refine .settle (.bind (.readSource 1 a0 hne) fun target _ => .of_commit ?_ (s.keepsCells_self i) hcost)
  split
  · exact State.keepsRegs_setAll (by simp)
  · exact s.keepsRegs_fetched i 1

/-- The checked store at SP that ends PUSH, CALL and ENTER. -/
theorem Phase.pushChecked {slots : Nat} {v : Cell} {ws : List (RegId × Cell)}
    (hws : ∀ w ∈ ws, w.1 = .ip ∨ w.1 ∈ i.implicit)
    (hseg : i.mayRaise .segmentationFault := by exact ⟨nofun, nofun, nofun⟩)
    (hsp : i.storesAtSp = true := by rfl) (hcost : i.cost s.params = 1 := by rfl) :
    Phase i (s.Effect i) (s.pushChecked slots v ws) :=
  .bind (.overflowCheck hsp _ _ _) fun _ _ => .bind (.memWrite_sp hseg hsp v) fun _ hm =>
    .of_commit (State.keepsRegs_setAll hws) hm hcost

/-- The checked read of the stack that ends RET and LEAVE. -/
theorem Phase.popChecked {n slots : Nat} {top addr : Cell} {ws : Cell → List (RegId × Cell)}
    (hws : ∀ v, ∀ w ∈ ws v, w.1 = .ip ∨ w.1 ∈ i.implicit) (hunder : i.mayRaise .stackUnderflow)
    (hseg : i.mayRaise .segmentationFault := by exact ⟨nofun, nofun, nofun⟩)
    (hcost : i.cost s.params = 1 := by rfl) :
    Phase i (s.Effect i) (s.popChecked n top slots addr ws) :=
  .bind (.underflowCheck hunder _ _ _ _) fun _ _ => .bind (.memRead addr hseg) fun v _ =>
    .of_commit (State.keepsRegs_setAll (hws v)) (s.keepsCells_self i) hcost

end

/-! ## The instructions with a body of their own -/

section
variable (s : State) (a0 a1 : Operand)

theorem nop_effect : s.Effect .nop (s.commit (s.fetched 0) s.mem 1) :=
  .of_commit (s.keepsRegs_fetched _ 0) (s.keepsCells_self _)

theorem push_effect : s.Effect (.push a0) (s.settle (s.readSource 1 a0 >>= s.pushCell)) :=
  .settle (.bind (.readSource 1 a0) fun _ _ =>
    Phase.pushChecked s (by simp [Instr.implicit]))

theorem pop_effect : s.Effect (.pop a0) (s.settle (dstLoc (s.fetched 1) s.pc a0 >>= s.popInto)) := by
  have harg : (Role.dst, a0) ∈ (Instr.pop a0).args := List.mem_cons_self
  have hregs : s.keepsRegs (.pop a0) ((s.fetched 1).setAll [(.sp, s.regs.sp - 1)]) :=
    State.keepsRegs_setAll (by simp [Instr.implicit])
  refine .settle (.bind (.dstLoc 1 a0) fun L hloc => ?_)
  rw [State.popInto]
  exact .bind (.underflowCheck (.inr (.inl ⟨a0, rfl⟩)) _ _ _ _) fun _ _ => .bind (.memRead _) fun v _ =>
    .commitTo harg hloc hregs v

theorem jmp_effect : s.Effect (.jmp a0) (s.settle (s.readSource 1 a0 >>= fun target =>
    pure (s.commit ((s.fetched 1).setAll [(.ip, target)]) s.mem 1))) :=
  .settle (.bind (.readSource 1 a0) fun _ _ =>
    .of_commit (State.keepsRegs_setAll (by simp)) (s.keepsCells_self _))

theorem call_effect : s.Effect (.call a0) (s.settle (s.readSource 1 a0 >>= fun target =>
    s.pushChecked 1 (s.pc + 2) [(.sp, s.regs.sp + 1), (.ip, target)])) :=
  .settle (.bind (.readSource 1 a0) fun _ _ =>
    Phase.pushChecked s (by simp [Instr.implicit]))

theorem enter_effect : s.Effect (.enter a0) (s.settle (s.readSource 1 a0 >>= fun k =>
    s.pushChecked (1 + k.toNat) s.regs.fp [(.fp, s.regs.sp + 1), (.sp, s.regs.sp + 1 + k)])) :=
  .settle (.bind (.readSource 1 a0) fun _ _ =>
    Phase.pushChecked s (by simp [Instr.implicit]))

theorem ret_effect :
    s.Effect (.ret a0 a1) (s.settle (s.readSources 2 a0 a1 >>= fun c => s.returnWith c.1 c.2)) :=
  .settle (.bind (.readSources 2 a0 a1) fun _ _ =>
    Phase.popChecked s (by simp [Instr.implicit]) (.inr (.inr ⟨a0, a1, rfl⟩)))

theorem leave_effect : s.Effect .leave (s.settle (s.popChecked 0 s.regs.fp 1 (s.regs.fp - 1) fun v =>
    [(.sp, s.regs.fp - 1), (.fp, v)])) :=
  .settle (Phase.popChecked s (by simp [Instr.implicit]) (.inl rfl))

theorem State.portRead_pauseAnswers (p : Nat) : (s.portRead p).2.pauseAnswers = s.pauseAnswers := by
  obtain ⟨_, _, h⟩ := s.portRead_shape p
  rw [h]

theorem State.portWrite_pauseAnswers (p : Nat) (v : Cell) : (s.portWrite p v).2.pauseAnswers = s.pauseAnswers := by
  obtain ⟨_, _, h⟩ := s.portWrite_shape p v
  rw [h]

/-- The end of IN, in the state its transaction left: registers and memory are those IN began with. -/
theorem finishIn_effect {L : Dest} (hloc : s.locates 2 a0 L) (p : Nat) :
    s.Effect (.inPort a0 a1) ((s.portRead p).2.finishIn L (s.portRead p).1) := by
  have hu := s.portRead_sameCore p
  rcases (s.portRead p).1 with _ | v
  · exact .of_wait
  rw [State.finishIn]
  obtain ⟨t, ht, heq⟩ | ⟨e, he, heq⟩ := (s.portRead p).2.settle_cases
    ((s.portRead p).2.commitTo ((s.portRead p).2.fetched 2) L v 1) <;> rw [heq]
  · obtain ⟨m, hm, rfl⟩ := State.commitTo_eq_ok.1 ht
    rw [State.storeTo_congr v L hu.params hu.mem] at hm
    rw [State.fetched_congr 2 hu.regs]
    have harg : (Role.dst, a0) ∈ (Instr.inPort a0 a1).args := List.mem_cons_self
    exact .of_commit_after hu (s.portRead_run p) (s.portRead_pauseAnswers p) (fun h => absurd rfl (h a0 a1).1)
      ((s.keepsRegs_fetched _ 2).setTo harg hloc v) (State.keepsCells_of_storeTo harg hloc hm)
  · obtain ⟨_, -, rfl⟩ := State.storeTo_error (State.commitTo_eq_error.1 he)
    exact .of_raise ⟨nofun, nofun, nofun⟩

theorem inPort_effect : s.Effect (.inPort a0 a1) (s.settle (dstLoc (s.fetched 2) s.pc a0 >>= fun L =>
    s.readSource 2 a1 >>= fun p => s.portCheck p >>= fun port =>
      pure ((s.portRead port).2.finishIn L (s.portRead port).1))) :=
  .settle (.bind (.dstLoc 2 a0) fun _ hloc => .bind (.readSource 2 a1) fun _ _ =>
    .bind (.portCheck ⟨a0, a1, .inl rfl⟩ _) fun port _ => finishIn_effect s a0 a1 hloc port)

/-- The end of OUT, in the state its transaction left. -/
theorem finishOut_effect (p : Nat) (v : Cell) :
    s.Effect (.outPort a0 a1) ((s.portWrite p v).2.finishOut (s.portWrite p v).1) := by
  have hu := s.portWrite_sameCore p v
  rcases (s.portWrite p v).1 with _ | _
  · exact .of_wait
  rw [State.finishOut, State.fetched_congr 2 hu.regs, hu.mem]
  exact .of_commit_after hu (s.portWrite_run p v) (s.portWrite_pauseAnswers p v) (fun h => absurd rfl (h a0 a1).2)
    (s.keepsRegs_fetched _ 2) (s.keepsCells_self _)

theorem outPort_effect : s.Effect (.outPort a0 a1) (s.settle (s.readSources 2 a0 a1 >>= fun r =>
    s.portCheck r.1 >>= fun port => pure ((s.portWrite port r.2).2.finishOut (s.portWrite port r.2).1))) :=
  .settle (.bind (.readSources 2 a0 a1) fun r _ =>
    .bind (.portCheck ⟨a0, a1, .inr rfl⟩ _) fun port _ => finishOut_effect s a0 a1 port r.2)

end

/-! ## Every instruction -/

/-- EVERY instruction answers a state with its own effect. -/
theorem exec_effect (i : Instr) (s : State) : ∃ t, exec i s = .next t ∧ s.Effect i t := by
  cases i with
  | nop => exact ⟨_, exec_nop s, nop_effect s⟩
  | halt => exact ⟨_, exec_halt s, nofun, nofun⟩
  | sect => exact ⟨_, exec_sect s, .of_raise rfl⟩
  | push a0 => exact ⟨_, exec_push a0 s, push_effect s a0⟩
  | pop a0 => exact ⟨_, exec_pop a0 s, pop_effect s a0⟩
  | jmp a0 => exact ⟨_, exec_jmp a0 s, jmp_effect s a0⟩
  | call a0 => exact ⟨_, exec_call a0 s, call_effect s a0⟩
  | ret a0 a1 => exact ⟨_, exec_ret a0 a1 s, ret_effect s a0 a1⟩
  | enter a0 => exact ⟨_, exec_enter a0 s, enter_effect s a0⟩
  | leave => exact ⟨_, exec_leave s, leave_effect s⟩
  | inPort a0 a1 => exact ⟨_, exec_inPort a0 a1 s, inPort_effect s a0 a1⟩
  | outPort a0 a1 => exact ⟨_, exec_outPort a0 a1 s, outPort_effect s a0 a1⟩
  | mov a0 a1 => exact ⟨_, exec_mov a0 a1 s, s.unary_effect⟩
  | jmpcEq | jmpcNe | jmpcGt | jmpcLt | jmpcGe | jmpcLe => exact ⟨_, rfl, s.jumpIf_effect⟩
  | add | sub | mul | and | or | xor | shl | shr | sar | fadd | fsub | fmul | fdiv => exact ⟨_, rfl, s.binary_effect⟩
  | div a0 a1 a2 => exact ⟨_, rfl, s.division_effect ⟨a0, a1, a2, .inl rfl⟩⟩
  | mod a0 a1 a2 => exact ⟨_, rfl, s.division_effect ⟨a0, a1, a2, .inr (.inl rfl)⟩⟩
  | udiv a0 a1 a2 => exact ⟨_, rfl, s.division_effect ⟨a0, a1, a2, .inr (.inr (.inl rfl))⟩⟩
  | umod a0 a1 a2 => exact ⟨_, rfl, s.division_effect ⟨a0, a1, a2, .inr (.inr (.inr rfl))⟩⟩
  | neg | not | fneg | fabs | fsqrt | fsin | fcos | itof | ftoi => exact ⟨_, rfl, s.unary_effect⟩
  | cmpI32 | cmpI16 | cmpI8 | cmpU32 | cmpU16 | cmpU8 | cmpF32 => exact ⟨_, rfl, s.compare_effect⟩

theorem State.Effect.of_exec {i : Instr} {s t : State} (hexec : exec i s = .next t) : s.Effect i t := by
  obtain ⟨u, hu, heffect⟩ := exec_effect i s
  obtain rfl : u = t := by simpa [hu] using hexec
  exact heffect

/-- Settles O59: the completed half of the effect of every instruction. -/
theorem everyInstructionFrame : Obligations.EveryInstructionFrame := by
  intro i s t c hexec hlast
  obtain ⟨hcost, hframe⟩ := (State.Effect.of_exec hexec).completed c hlast
  exact ⟨hcost, hframe.run, hframe.events, hframe.recoveries, hframe.pauseAnswers, hframe.regs, hframe.cells,
    hframe.host⟩

/-- Settles O20: the codes in their order, and the faulted half of the effect of every instruction. -/
theorem faultKindsByInstruction : Obligations.FaultKindsByInstruction :=
  ⟨rfl, fun _ _ _ k a hexec => (State.Effect.of_exec hexec).faulted k a⟩

/-! ## The first operand fault (40_execution_cycle.md R71, 60_exceptions.md R138) -/

/-- Without arguments there is no operand fault to report. -/
theorem operandFaults_of_no_args {i : Instr} (hargs : i.args = []) : OperandFaults i := by
  intro s
  rw [hargs]
  exact ⟨fun _ _ _ _ h => by simp at h, fun _ _ _ _ h => by simp at h⟩

/-- Settles O21: the rule of each instruction says it of that instruction. -/
theorem firstOperandFaultIsReported : Obligations.FirstOperandFaultIsReported := by
  intro i
  obtain ⟨hadd, hsub, hmul⟩ := addSubMulWrap
  obtain ⟨hdiv, hmod, hudiv, humod⟩ := divisionsTruncateOrFault
  obtain ⟨hand, hor, hxor⟩ := andOrXorBitwise
  obtain ⟨hshl, hshr, hsar⟩ := shiftsByTheLowFiveBits
  obtain ⟨hfadd, hfsub⟩ := floatSumsExactlyRounded
  obtain ⟨hfmul, hfdiv⟩ := floatProductsExactlyRounded
  obtain ⟨hneg, hnot, hfneg, hfabs⟩ := negationsAndComplement
  obtain ⟨⟨_, hfsin, -⟩, _, hfcos, -⟩ := sineAndCosineWithinTheirBounds
  obtain ⟨hitof, hftoi⟩ := conversionsRoundAndSaturate
  obtain ⟨heq, hne, hgt, hlt, hge, hle⟩ := jmpcJumpsByTheFlags
  obtain ⟨hi32, hi16, hi8, hu32, hu16, hu8⟩ := integerComparisonsSetFlags
  cases i with
  | nop | halt | leave | sect => exact operandFaults_of_no_args rfl
  | push a0 => exact (pushStoresAtSp.1 a0).2
  | pop a0 => exact (popTakesTheCellBelowSp.1 a0).2
  | jmp a0 => exact (jmpSetsIp.1 a0).2
  | jmpcEq a0 => exact (heq.1 a0).2
  | jmpcNe a0 => exact (hne.1 a0).2
  | jmpcGt a0 => exact (hgt.1 a0).2
  | jmpcLt a0 => exact (hlt.1 a0).2
  | jmpcGe a0 => exact (hge.1 a0).2
  | jmpcLe a0 => exact (hle.1 a0).2
  | call a0 => exact (callPushesTheReturnAddress.1 a0).2
  | ret a0 a1 => exact (retReturnsAndDiscards.1 a0 a1).2
  | enter a0 => exact (enterOpensAFrame.1 a0).2
  | add a0 a1 a2 => exact (hadd.1 a0 a1 a2).2
  | sub a0 a1 a2 => exact (hsub.1 a0 a1 a2).2
  | mul a0 a1 a2 => exact (hmul.1 a0 a1 a2).2
  | div a0 a1 a2 => exact (hdiv.1 a0 a1 a2).2
  | mod a0 a1 a2 => exact (hmod.1 a0 a1 a2).2
  | udiv a0 a1 a2 => exact (hudiv.1 a0 a1 a2).2
  | umod a0 a1 a2 => exact (humod.1 a0 a1 a2).2
  | and a0 a1 a2 => exact (hand.1 a0 a1 a2).2
  | or a0 a1 a2 => exact (hor.1 a0 a1 a2).2
  | xor a0 a1 a2 => exact (hxor.1 a0 a1 a2).2
  | shl a0 a1 a2 => exact (hshl.1 a0 a1 a2).2
  | shr a0 a1 a2 => exact (hshr.1 a0 a1 a2).2
  | sar a0 a1 a2 => exact (hsar.1 a0 a1 a2).2
  | fadd a0 a1 a2 => exact (hfadd.1 a0 a1 a2).2
  | fsub a0 a1 a2 => exact (hfsub.1 a0 a1 a2).2
  | fmul a0 a1 a2 => exact (hfmul.1 a0 a1 a2).2
  | fdiv a0 a1 a2 => exact (hfdiv.1 a0 a1 a2).2
  | neg a0 a1 => exact (hneg.1 a0 a1).2
  | not a0 a1 => exact (hnot.1 a0 a1).2
  | fneg a0 a1 => exact (hfneg.1 a0 a1).2
  | fabs a0 a1 => exact (hfabs.1 a0 a1).2
  | fsqrt a0 a1 => exact (squareRootExactlyRounded.1 a0 a1).2
  | fsin a0 a1 => exact (hfsin.1 a0 a1).2
  | fcos a0 a1 => exact (hfcos.1 a0 a1).2
  | itof a0 a1 => exact (hitof.1 a0 a1).2
  | ftoi a0 a1 => exact (hftoi.1 a0 a1).2
  | inPort a0 a1 => exact (inDeliversWaitsOrFaults.1 a0 a1).2
  | outPort a0 a1 => exact (outDeliversWaitsOrFaults.1 a0 a1).2
  | cmpI32 a0 a1 => exact (hi32.1 a0 a1).2
  | cmpI16 a0 a1 => exact (hi16.1 a0 a1).2
  | cmpI8 a0 a1 => exact (hi8.1 a0 a1).2
  | cmpU32 a0 a1 => exact (hu32.1 a0 a1).2
  | cmpU16 a0 a1 => exact (hu16.1 a0 a1).2
  | cmpU8 a0 a1 => exact (hu8.1 a0 a1).2
  | cmpF32 a0 a1 => exact (floatComparisonSetsFlags.1 a0 a1).2
  | mov a0 a1 => exact (movCopiesTheCell.1 a0 a1).2

end Sys2Proof.Machine
end

section
/-! Matched pairs (spec/42_stack.md R79, 43_control_transfer.md R88 to R92): POP after PUSH, LEAVE after ENTER and RET
after CALL find the cell that was stored, and SP where it was. -/

namespace Sys2Proof.Machine

section
variable {s t : State}

/-- The cell just stored at SP, in RAM, is read back. -/
theorem State.stores.getValue_self {a v : Cell} (h : s.stores t a v) (hram : Params.romAt s.params a.toNat = none) :
    t.getValue a = some v := by
  rw [h, if_pos ⟨rfl, hram⟩]

theorem State.acceptsAt_of_ram {a : Cell} (hbacked : a.toNat < s.params.memSize)
    (hram : Params.romAt s.params a.toNat = none) : s.acceptsAt a :=
  ⟨hbacked, by simp [hram]⟩

/-- SP one higher, where it does not wrap. -/
theorem Cell.toNat_add_one {a : Cell} (h : a.toNat + 1 < 2 ^ 32) : (a + 1).toNat = a.toNat + 1 := by
  rw [BitVec.toNat_add_of_lt h]
  rfl

end

/-- Settles O33: POP takes the cell PUSH stored, at the SP that PUSH left. -/
theorem pushThenPopRestoresSp : Obligations.PushThenPopRestoresSp := by
  intro s a0 v b r hread hbase hwrap hroom hbacked hram hb
  obtain ⟨-, hpush⟩ := pushStoresAtSp.2 s a0 v hread
  obtain ⟨t, ht, -, hregs, hstores⟩ := (hpush hroom).1 (State.acceptsAt_of_ram hbacked hram)
  have hsp : t.regs.sp = s.regs.sp + 1 := hregs .sp
  have hsb : t.regs.sb = s.regs.sb := hregs .sb
  have hcell : t.getValue (t.regs.sp - 1) = some v := by
    rw [hsp, add_sub_cancel_right, hstores.getValue_self hram]
  have hcells : t.regs.sb.toNat < t.regs.sp.toNat := by
    rw [hsb, hsp, Cell.toNat_add_one hwrap]
    omega
  obtain ⟨-, hpop⟩ := popTakesTheCellBelowSp.2 t (.reg b) (.reg r) (dstLoc_reg hb)
  obtain ⟨u, hu, ⟨-, hlast, -⟩, hset, -⟩ := ((hpop hcells).2 v hcell).1 trivial
  refine ⟨t, u, ht, hu, hlast, ?_, fun hne => ?_⟩
  · rw [hset, Regs.setAll_append, Regs.get_set_self]
  · have hkept := hset .sp
    rw [Regs.setAll_append, Regs.get_set_of_ne _ _ hne.symm] at hkept
    calc u.regs.sp = t.regs.sp - 1 := hkept
      _ = s.regs.sp := by rw [hsp, add_sub_cancel_right]

/-- Settles O40: LEAVE looks only at FP, SB and the cell below FP, which are as ENTER left them. -/
theorem leaveUndoesEnter : Obligations.LeaveUndoesEnter := by
  intro s t u a0 k hread hbase hwrap hroom hbacked hram hexec hfp hsb hcell
  obtain ⟨-, henter⟩ := enterOpensAFrame.2 s a0 k hread
  obtain ⟨t', ht', -, hregs, hstores⟩ := (henter hroom).1 (State.acceptsAt_of_ram hbacked hram)
  obtain rfl : t' = t := by simpa [ht'] using hexec
  have hfp' : t'.regs.fp = s.regs.sp + 1 := hregs .fp
  have hsb' : t'.regs.sb = s.regs.sb := hregs .sb
  have hbelow : u.regs.fp - 1 = s.regs.sp := by rw [hfp, hfp', add_sub_cancel_right]
  have hsaved : u.getValue (u.regs.fp - 1) = some s.regs.fp := by
    rw [hfp, hcell, hfp', add_sub_cancel_right, hstores.getValue_self hram]
  have hframe : u.regs.sb.toNat < u.regs.fp.toNat := by
    rw [hsb, hsb', hfp, hfp', Cell.toNat_add_one hwrap]
    omega
  obtain ⟨-, hleave⟩ := leaveClosesAFrame.2 u
  obtain ⟨z, hz, ⟨-, hlast, -⟩, hset, -⟩ := (hleave hframe).2 s.regs.fp hsaved
  exact ⟨z, hz, hlast, (hset .sp).trans hbelow, hset .fp⟩

/-- Settles O41: RET looks only at SP, SB and the return cell, which is the one CALL stored. -/
theorem retUndoesCall : Obligations.RetUndoesCall := by
  intro s t u a0 target b hread hbase hwrap hroom hbacked hram hexec hsp hsb hcell
  obtain ⟨-, hcall⟩ := callPushesTheReturnAddress.2 s a0 target hread
  obtain ⟨t', ht', -, hregs, hstores⟩ := (hcall hroom).1 (State.acceptsAt_of_ram hbacked hram)
  obtain rfl : t' = t := by simpa [ht'] using hexec
  have hsp' : t'.regs.sp = s.regs.sp + 1 := hregs .sp
  have hsb' : t'.regs.sb = s.regs.sb := hregs .sb
  have hbelow : u.regs.sp - b - 1 = s.regs.sp := by rw [hsp, hsp', add_sub_cancel_right, add_sub_cancel_right]
  have hreturn : u.getValue (u.regs.sp - b - 1) = some (s.pc + 2) := by
    rw [hbelow, hcell, hstores.getValue_self hram]
  have hslots : u.regs.sb.toNat + b.toNat + 1 + (0 : Cell).toNat ≤ u.regs.sp.toNat := by
    have htop : u.regs.sp.toNat = s.regs.sp.toNat + 1 + b.toNat := by
      rw [hsp, hsp', BitVec.toNat_add, Cell.toNat_add_one (by omega), Nat.mod_eq_of_lt hwrap]
    have hzero : (0 : Cell).toNat = 0 := rfl
    rw [hsb, hsb', htop, hzero]
    omega
  obtain ⟨-, hret⟩ := retReturnsAndDiscards.2 u (.imm b) (.imm 0) b 0 ⟨_, rfl, rfl⟩ ⟨_, rfl, rfl⟩
  obtain ⟨z, hz, ⟨-, hlast, -⟩, hset, -⟩ := (hret hslots).2 (s.pc + 2) hreturn
  refine ⟨z, hz, hlast, ?_, hset .ip⟩
  calc z.regs.sp = u.regs.sp - b - 1 - 0 := hset .sp
    _ = s.regs.sp := by rw [sub_zero, hbelow]

end Sys2Proof.Machine
end

section
/-! Quotient and remainder together (spec/44_binary_ops.md R94, R100). -/

namespace Sys2Proof.Machine

/-- Both are wrapped, and wrapping is a homomorphism. -/
theorem aluDiv_mul_add_aluMod (p q : Cell) : q * aluDiv p q + aluMod p q = p := by
  have hsum : q.toInt * p.toInt.tdiv q.toInt + p.toInt.tmod q.toInt = p.toInt := Int.mul_tdiv_add_tmod _ _
  calc q * aluDiv p q + aluMod p q
      = BitVec.ofInt 32 q.toInt * aluDiv p q + aluMod p q := by rw [BitVec.ofInt_toInt]
    _ = BitVec.ofInt 32 (q.toInt * p.toInt.tdiv q.toInt + p.toInt.tmod q.toInt) := by
      rw [aluDiv, aluMod, ← BitVec.ofInt_mul, ← BitVec.ofInt_add]
    _ = p := by rw [hsum, BitVec.ofInt_toInt]

theorem aluUdiv_mul_add_aluUmod (p q : Cell) : q * aluUdiv p q + aluUmod p q = p := by
  apply BitVec.eq_of_toNat_eq
  rw [BitVec.toNat_add, BitVec.toNat_mul, aluUdiv_toNat, aluUmod_toNat, Nat.mod_add_mod, Nat.div_add_mod,
    Nat.mod_eq_of_lt p.isLt]

theorem aluMod_toInt_eq_tmod (p q : Cell) : (aluMod p q).toInt = p.toInt.tmod q.toInt := by
  rw [aluMod_eq_srem, BitVec.toInt_srem]

theorem aluMod_natAbs_lt (p : Cell) {q : Cell} (hq : q ≠ 0) : (aluMod p q).toInt.natAbs < q.toInt.natAbs := by
  have hne : q.toInt ≠ 0 := fun h => hq (BitVec.eq_of_toInt_eq h)
  rw [aluMod_toInt_eq_tmod, Int.natAbs_tmod]
  exact Nat.mod_lt _ (Int.natAbs_pos.2 hne)

/-- The remainder of truncated division is zero or has the sign of the dividend. -/
theorem aluMod_sign (p q : Cell) : (aluMod p q).toInt = 0 ∨ ((aluMod p q).toInt < 0 ↔ p.toInt < 0) := by
  rw [aluMod_toInt_eq_tmod]
  rcases lt_or_ge p.toInt 0 with hneg | hnonneg
  · have hge : 0 ≤ (-p.toInt).tmod q.toInt := Int.tmod_nonneg _ (by omega)
    rw [Int.neg_tmod] at hge
    omega
  · have hge : 0 ≤ p.toInt.tmod q.toInt := Int.tmod_nonneg _ hnonneg
    omega

/-- Settles O44: the laws of truncated division of the integers and of division of the naturals, wrapped. -/
theorem quotientAndRemainderAgree : Obligations.QuotientAndRemainderAgree :=
  fun p q hq => ⟨aluDiv_mul_add_aluMod p q, aluUdiv_mul_add_aluUmod p q, aluMod_natAbs_lt p hq, aluMod_sign p q⟩

end Sys2Proof.Machine
end

section
/-! IN and OUT of a host whose decided answers are used up (spec/20_memory.md R38; log entry 7). -/

namespace Sys2Proof.Machine

section
variable {s : State} {p : Nat}

/-! ## Transactions whose answer is free -/

theorem State.portRead_of_undecided (hp : p ≠ diskPort) (h : s.readAnswers = []) :
    s.portRead p = (none, { s with drawn := s.drawn + 1 }) ∨
      ∃ v, s.portRead p =
        (some v, { s with drawn := s.drawn + 1, portHistory := s.portHistory ++ [PortEvent.input p v] }) := by
  rcases hfree : Config.readAnswer s.drawn p with _ | v
  · exact .inl (by simp [State.portRead, hp, h, hfree])
  · exact .inr ⟨v, by simp [State.portRead, hp, h, hfree]⟩

theorem State.portWrite_of_undecided (v : Cell) (hp : p ≠ diskPort) (h : s.writeAnswers = []) :
    s.portWrite p v = (false, { s with drawn := s.drawn + 1 }) ∨
      s.portWrite p v =
        (true, { s with drawn := s.drawn + 1, portHistory := s.portHistory ++ [PortEvent.output p v] }) := by
  rcases hfree : Config.writeAnswer s.drawn p v
  · exact .inl (by simp [State.portWrite, hp, h, hfree])
  · exact .inr (by simp [State.portWrite, hp, h, hfree])

end

/-- Settles O55: by the free answer of the one transaction; what is drawn and the history are no part of what the end of
the instruction reads. -/
theorem undecidedPortsWaitOrTransfer : Obligations.UndecidedPortsWaitOrTransfer := by
  refine ⟨fun s a0 a1 L p h0 h1 hlo hhi hne hans => ?input, fun s a0 a1 p v h0 h1 hlo hhi hne hans => ?output⟩
  case input =>
    rw [exec_inPort_of_valid h0 h1 hlo hhi]
    obtain hwait | ⟨v, hready⟩ := State.portRead_of_undecided (mt toNat_eq_diskPort_iff.1 hne) hans
    · exact .inl (by rw [hwait]; rfl)
    · rw [hready]
      refine .inr ⟨v, fun hacc => ⟨_, rfl, State.finishIn_of_accepts hacc⟩, ?_⟩
      rintro ea rfl hrefused
      exact congrArg _ (State.finishIn_of_not_acceptsAt hrefused)
  case output =>
    rw [exec_outPort_of_valid h0 h1 hlo hhi]
    obtain hwait | hdone := State.portWrite_of_undecided v (mt toNat_eq_diskPort_iff.1 hne) hans
    · exact .inl (by rw [hwait]; rfl)
    · rw [hdone]
      exact .inr ⟨_, rfl, State.finishOut_of_done _⟩

end Sys2Proof.Machine
end
